-- ==== Sys2Proof/Word.lean ====
section
/-! DEFINITION. The value types of the core (00_scope R9, 10_state R23, R31, R33, 30_encoding R81, R83). -/

namespace Sys2Proof

/-- A raw byte of the raw-sample ring (10_state R30). -/
abbrev Byte := BitVec 8

/-- A command word (30_encoding R83). -/
abbrev CommandWord := BitVec 32

/-- The sideband context id of a command (30_encoding R81). -/
abbrev ContextId := BitVec 3

/-- The INST field of a command word (30_encoding R83, R86). -/
abbrev InstNo := BitVec 8

/-- A value of the open type SAMPLE (00_scope R8), coded by an integer.
DESIGN CHOICE, log 7, safe: no operation looks at the code but to copy it. -/
abbrev Sample := Int

/-- A value of the open type FS (00_scope R8, 10_state R31), coded by an integer.
DESIGN CHOICE, log 7, safe: no operation looks at the code but to copy it. -/
abbrev FilterState := Int

/-- A native signed sample (10_state R33): an integer in the range of `NATIVE_W` bits. -/
abbrev Native := Int

/-- The contents of an element space of `n` elements of which `draw` lists the first ones; an element
past the list is `dflt` (10_state R48: the contents at reset are a draw). -/
def drawnSpace {α : Type} (draw : List α) (dflt : α) (n : Nat) : List α :=
  (List.range n).map fun k => draw.getD k dflt

end Sys2Proof
end

