-- ==== Sys2Proof/Config.lean ====
section
/-! DEFINITION. The agents and their command interface (00_scope R6, 30_encoding R80-R82), the parameters of an
implementation (00_scope R8), and the values the spec leaves free, as constants without a body. -/

namespace Sys2Proof

/-- The four software execution contexts (00_scope R6). The fifth agent, DMA, issues no operation. -/
inductive Context where
  | task
  | tickIsr
  | bitstreamIsr
  | dmaIsr
  deriving DecidableEq, Repr, Inhabited

/-- One of the two indices of a ring (10_state R24, R25). -/
inductive RingIndex where
  | head
  | tail
  deriving DecidableEq, Repr, Inhabited

/-- What the decimator does when the MicRingBuffer is full (43_decimator R163). -/
inductive MicFullPolicy where
  | drop
  | fatal
  deriving DecidableEq, Repr

/-- RB_N[i], RB_W[i], RB_PROD[i], RB_CONS[i] of one ring (00_scope R8). -/
structure RingConfig where
  n : Nat
  w : Nat
  prod : Context
  cons : Context
  deriving DecidableEq, Repr

/-- INT_TOP[j] and DB_ID[j] of one debounce filter (00_scope R8). -/
structure DebounceConfig where
  intTop : Nat
  id : Nat
  deriving DecidableEq, Repr

/-- One known value of DECIM_FILTER (43_decimator R162): from the state `fs` and the bytes `bytes` it gives
the state `fs'` and the samples `pcm`. -/
structure FilterRow where
  fs : FilterState
  bytes : List Byte
  fs' : FilterState
  pcm : List Sample
  deriving DecidableEq, Repr

/-- One known value of SAMPLE_CONVERT (44_pingpong R194). -/
structure ConvertRow where
  sample : Sample
  native : Native
  deriving DecidableEq, Repr

/-- The parameters of 00_scope R8. NRB is the length of `rb`, NDB the length of `db`, MIC_N is RB_N[1].
DECIM_FILTER and SAMPLE_CONVERT are given by the values known of them; every other value of theirs is free
(`freeFilterState`, `freeFilterSample`, `freeConvert` below; DESIGN CHOICE, logs 8 and 9, safe). -/
structure Config where
  rb : List RingConfig
  /-- CW -/
  cw : Nat
  /-- TICK_US -/
  tickUs : Nat
  /-- US_W -/
  usW : Nat
  /-- PASS_THRESHOLD -/
  passThreshold : Nat
  /-- CLK_RESET -/
  clkReset : Nat
  db : List DebounceConfig
  /-- DBID_W -/
  dbIdW : Nat
  /-- DEC_IN -/
  decIn : Nat
  /-- DEC_OUT -/
  decOut : Nat
  /-- FS0 -/
  fs0 : FilterState
  /-- the known values of DECIM_FILTER -/
  filter : List FilterRow
  /-- ZERO_SAMPLE -/
  zeroSample : Sample
  /-- B -/
  b : Nat
  /-- CH -/
  ch : Nat
  /-- MIC_BLOCK -/
  micBlock : Nat
  /-- MIC_FULL_POLICY -/
  micFullPolicy : MicFullPolicy
  /-- NATIVE_W -/
  nativeW : Nat
  /-- the known values of SAMPLE_CONVERT -/
  convert : List ConvertRow
  /-- PRIO_TICK, PRIO_BITSTREAM, PRIO_DMA: no rule depends on them (60_exceptions R246) -/
  prioTick : Nat
  prioBitstream : Nat
  prioDma : Nat
  /-- SAMPLE_RATE, SAMPLE_PERIOD: timing only, no rule depends on them (00_scope R8) -/
  sampleRate : Nat
  samplePeriod : Nat
  deriving DecidableEq, Repr

/-- NRB. -/
def Config.nrb (c : Config) : Nat := c.rb.length

/-- NDB. -/
def Config.ndb (c : Config) : Nat := c.db.length

/-- RB_N[i]; 0 for an index that is no ring. -/
def Config.ringN (c : Config) (i : Nat) : Nat := (c.rb[i]?.map (·.n)).getD 0

/-- RB_W[i]; 0 for an index that is no ring. -/
def Config.ringW (c : Config) (i : Nat) : Nat := (c.rb[i]?.map (·.w)).getD 0

/-- RB_PROD[i]. -/
def Config.ringProd (c : Config) (i : Nat) : Option Context := c.rb[i]?.map (·.prod)

/-- RB_CONS[i]. -/
def Config.ringCons (c : Config) (i : Nat) : Option Context := c.rb[i]?.map (·.cons)

/-- INT_TOP[j]; 0 for an index that is no debounce filter. -/
def Config.intTop (c : Config) (j : Nat) : Nat := (c.db[j]?.map (·.intTop)).getD 0

/-- DB_ID[j]; 0 for an index that is no debounce filter. -/
def Config.dbId (c : Config) (j : Nat) : Nat := (c.db[j]?.map (·.id)).getD 0

/-- M, the number of counter values (41_clock). -/
def Config.clockModulus (c : Config) : Nat := 2 ^ c.cw

/-- The number of samples of a playback block, CH*B (10_state R33). -/
def Config.blockLen (c : Config) : Nat := c.ch * c.b

/-- The constraints of 00_scope R8, checked at reset (70_reset_and_hazards R272). -/
inductive Constraint where
  /-- 2 ≤ NRB ≤ 256 -/
  | nrb
  /-- 1 ≤ RB_N[i] -/
  | ringSize
  /-- RB_W[i] ≥ 1 -/
  | ringWidth
  /-- RB_W[0] = 8 -/
  | rawWidth
  /-- RB_PROD[0] = BITSTREAM_ISR -/
  | rawProducer
  /-- RB_CONS[0] = TASK -/
  | rawConsumer
  /-- RB_PROD[1] = TASK -/
  | micProducer
  /-- RB_CONS[1] = TASK -/
  | micConsumer
  /-- 2 ≤ CW -/
  | clockWidth
  /-- TICK_US ≥ 1 -/
  | tickPeriod
  /-- US_W ≥ 1 -/
  | microsecondsWidth
  /-- 1 ≤ PASS_THRESHOLD ≤ 2^CW - 1 -/
  | passThreshold
  /-- CLK_RESET is a CW-bit value -/
  | clockReset
  /-- NDB ≤ 256 -/
  | ndb
  /-- INT_TOP[j] ≥ 1 -/
  | integratorTop
  /-- DBID_W ≥ 8 -/
  | identifierWidth
  /-- DB_ID[j] is a DBID_W-bit value -/
  | identifier
  /-- DEC_IN ≥ 1 and DEC_IN ≤ RB_N[0] - 1 -/
  | decimationIn
  /-- DEC_OUT ≥ 1 -/
  | decimationOut
  /-- B ≥ 1 -/
  | blockFrames
  /-- CH = 2 -/
  | channels
  /-- MIC_BLOCK ≥ 1 -/
  | micBlock
  /-- MIC_N ≥ 2 -/
  | micSize
  deriving DecidableEq, Repr

/-- A command on an interface: the sideband id (30_encoding R81), the word (R83) and the operand ports (R82). -/
structure Command where
  ctx : ContextId
  word : CommandWord
  arg0 : Nat
  arg1 : Nat
  blkIn : List Sample
  deriving DecidableEq, Repr, Inhabited

/-- The next step of one agent (00_scope R6, R7). -/
inductive Event where
  /-- a context issues the command on its interface -/
  | command (cmd : Command)
  /-- a context takes the next atomic step of the operation it has in progress (10_state R26) -/
  | resume (c : Context)
  /-- the DMA engine finishes a playback (44_pingpong R191) -/
  | dma
  deriving DecidableEq, Repr, Inhabited

/-- Free value: the state DECIM_FILTER goes to, where the configuration does not list it (43_decimator R162;
U7; DESIGN CHOICE, log 8, safe). -/
opaque Config.freeFilterState : FilterState → List Byte → FilterState

/-- Free value: sample `n` of the block DECIM_FILTER gives, where the configuration does not list it
(43_decimator R162; U7; DESIGN CHOICE, log 8, safe). -/
opaque Config.freeFilterSample : FilterState → List Byte → Nat → Sample

/-- Free value: SAMPLE_CONVERT, where the configuration does not list it (44_pingpong R194; U8; DESIGN CHOICE,
log 9, safe). -/
opaque Config.freeConvert : Sample → Native

/-- Free value: the index that draw number `n` has a flush write first, where the state lists no draw
(40_ringbuffer R108; U2; DESIGN CHOICE, log 10, safe). -/
opaque Config.freeFlushFirst : Nat → RingIndex

/-- Free value: the agent's step that draw number `n` has the environment take, where the state lists no event
(00_scope R7; U25, U26; DESIGN CHOICE, log 1, safe). -/
opaque Config.freeEvent : Nat → Event

/-- The configuration `State.reset` is an instance of. DESIGN CHOICE, log 4, unsafe for a statement about
`State.reset` alone: where 00_scope R8 gives a default it is taken, where it leaves a parameter open the value
is one that the vectors of 95_test_vectors use, but for these, which the model picks: RB_W[1] = 32 (the width of
MIC's elements, which only the check RB_W[i] ≥ 1 reads), NATIVE_W = 16, CLK_RESET = 0, no listed value of
DECIM_FILTER or SAMPLE_CONVERT (so all of them are free), and 0 for the parameters that no rule reads (log 25). -/
def Config.chosen : Config where
  rb := [⟨9, 8, .bitstreamIsr, .task⟩, ⟨3, 32, .task, .task⟩, ⟨4, 8, .task, .tickIsr⟩]
  cw := 32
  tickUs := 1000
  usW := 32
  passThreshold := 2147483647
  clkReset := 0
  db := [⟨4, 0⟩]
  dbIdW := 8
  decIn := 4
  decOut := 2
  fs0 := 0
  filter := []
  zeroSample := 0
  b := 2
  ch := 2
  micBlock := 2
  micFullPolicy := .drop
  nativeW := 16
  convert := []
  prioTick := 0
  prioBitstream := 0
  prioDma := 0
  sampleRate := 0
  samplePeriod := 0

end Sys2Proof
end

