-- ==== Sys2Proof/Syntax.lean ====
section
/-! DEFINITION. The operations of the core: one constructor per row of the opcode table (30_encoding R85).
An RB or DB operation carries the INST field of its word (R86); the operands come from the ports (R82, R89). -/

namespace Sys2Proof

inductive Instr where
  /-- RB_WRITE (R103) -/
  | rbWrite (inst : InstNo)
  /-- RB_READ (R104) -/
  | rbRead (inst : InstNo)
  /-- RB_PEEK (R105) -/
  | rbPeek (inst : InstNo)
  /-- RB_USED (R106) -/
  | rbUsed (inst : InstNo)
  /-- RB_FREE (R107) -/
  | rbFree (inst : InstNo)
  /-- RB_FLUSH (R108) -/
  | rbFlush (inst : InstNo)
  /-- CLK_TICK (R120) -/
  | clkTick
  /-- CLK_NOW (R121) -/
  | clkNow
  /-- CLK_DELAY_FROM (R122) -/
  | clkDelayFrom
  /-- CLK_HAS_PASSED (R123) -/
  | clkHasPassed
  /-- DB_INIT (R140) -/
  | dbInit (inst : InstNo)
  /-- DB_SAMPLE (R141) -/
  | dbSample (inst : InstNo)
  /-- DB_STATE (R142) -/
  | dbState (inst : InstNo)
  /-- DEC_PUSH (R160) -/
  | decPush
  /-- DEC_DRAIN (R161) -/
  | decDrain
  /-- MIC_FETCH (R164) -/
  | micFetch
  /-- PP_START (R190) -/
  | ppStart
  /-- PP_COMPLETE (R192) -/
  | ppComplete
  /-- PP_POLL (R193) -/
  | ppPoll
  /-- PP_FILL (R194) -/
  | ppFill
  /-- PP_PLAYING (R195) -/
  | ppPlaying
  /-- SYS_IDLE (R220) -/
  | sysIdle
  /-- SYS_STATUS (R221) -/
  | sysStatus
  deriving DecidableEq, Repr

end Sys2Proof
end

