-- ==== Sys2Proof/Machine/Legal.lean ====
section
/-! DEFINITION. Which INST values an operation may name (30_encoding R86). -/

namespace Sys2Proof.Machine

/-- A ring that RB_WRITE, RB_READ, RB_PEEK and RB_FLUSH may name: 2 ≤ i < NRB, since RAW and MIC are reached
only through the DEC unit (30_encoding R86, 40_ringbuffer R100). -/
def legalDataRing (c : Config) (inst : InstNo) : Bool :=
  decide (2 ≤ inst.toNat) && decide (inst.toNat < c.nrb)

/-- A ring that RB_USED and RB_FREE may name: i < NRB (30_encoding R86). -/
def legalRing (c : Config) (inst : InstNo) : Bool :=
  decide (inst.toNat < c.nrb)

/-- A debounce filter: j < NDB (30_encoding R86). -/
def legalDebounce (c : Config) (inst : InstNo) : Bool :=
  decide (inst.toNat < c.ndb)

/-- The INST value of the operation is one that 30_encoding R86 allows. The units CLK, DEC, PP and SYS have no
INST operand: their words carry 0 there, which the decoder checks. -/
def legalInst (c : Config) : Instr → Bool
  | .rbWrite inst => legalDataRing c inst
  | .rbRead inst => legalDataRing c inst
  | .rbPeek inst => legalDataRing c inst
  | .rbUsed inst => legalRing c inst
  | .rbFree inst => legalRing c inst
  | .rbFlush inst => legalDataRing c inst
  | .dbInit inst => legalDebounce c inst
  | .dbSample inst => legalDebounce c inst
  | .dbState inst => legalDebounce c inst
  | .clkTick | .clkNow | .clkDelayFrom | .clkHasPassed => true
  | .decPush | .decDrain | .micFetch => true
  | .ppStart | .ppComplete | .ppPoll | .ppFill | .ppPlaying => true
  | .sysIdle | .sysStatus => true

end Sys2Proof.Machine
end

