-- ==== Sys2Proof/WellFormed.lean ====
section
/-! DEFINITION. A well-formed operation: its INST value is one that 30_encoding R86 allows on the configuration. -/

namespace Sys2Proof

/-- The operation names an instance that exists and that it may name (30_encoding R86). A word that decodes to
an operation which is not well formed is illegal (R93). -/
abbrev Instr.WellFormed (c : Config) (i : Instr) : Prop :=
  Machine.legalInst c i = true

end Sys2Proof
end

