-- ==== Sys2Proof/Decode.lean ====
section
/-! DEFINITION. Command words (30_encoding R83 to R87): the decoder, total on every word and rejecting by name,
and the encoder. -/

namespace Sys2Proof

/-- Why a word is no operation of 30_encoding R85 (R93). -/
inductive DecodeError where
  /-- UNIT 0x6 to 0xF (R84) -/
  | reservedUnit
  /-- an OP that R85 does not list for the unit -/
  | reservedOp
  /-- RSVD ≠ 0 (R87) -/
  | reservedBits
  /-- INST ≠ 0 for a unit without instances (R86) -/
  | instNotZero
  deriving DecidableEq, Repr

/-- UNIT, bits 31:28 (R83). -/
def unitField (w : CommandWord) : BitVec 4 := w.extractLsb' 28 4

/-- OP, bits 27:24 (R83). -/
def opField (w : CommandWord) : BitVec 4 := w.extractLsb' 24 4

/-- INST, bits 23:16 (R83). -/
def instField (w : CommandWord) : InstNo := w.extractLsb' 16 8

/-- RSVD, bits 15:0 (R83). -/
def rsvdField (w : CommandWord) : BitVec 16 := w.extractLsb' 0 16

/-- The operation `i` of a unit without instances: INST must be 0 (R86). -/
def withoutInst (inst : InstNo) (i : Instr) : Except DecodeError Instr :=
  if inst = 0 then .ok i else .error .instNotZero

/-- UNIT 0x0, RB (R85). -/
def decodeRb (inst : InstNo) : Nat → Except DecodeError Instr
  | 0 => .ok (.rbWrite inst)
  | 1 => .ok (.rbRead inst)
  | 2 => .ok (.rbPeek inst)
  | 3 => .ok (.rbUsed inst)
  | 4 => .ok (.rbFree inst)
  | 5 => .ok (.rbFlush inst)
  | _ => .error .reservedOp

/-- UNIT 0x1, CLK (R85). -/
def decodeClk (inst : InstNo) : Nat → Except DecodeError Instr
  | 0 => withoutInst inst .clkTick
  | 1 => withoutInst inst .clkNow
  | 2 => withoutInst inst .clkDelayFrom
  | 3 => withoutInst inst .clkHasPassed
  | _ => .error .reservedOp

/-- UNIT 0x2, DB (R85). -/
def decodeDb (inst : InstNo) : Nat → Except DecodeError Instr
  | 0 => .ok (.dbInit inst)
  | 1 => .ok (.dbSample inst)
  | 2 => .ok (.dbState inst)
  | _ => .error .reservedOp

/-- UNIT 0x3, DEC (R85). -/
def decodeDec (inst : InstNo) : Nat → Except DecodeError Instr
  | 0 => withoutInst inst .decPush
  | 1 => withoutInst inst .decDrain
  | 2 => withoutInst inst .micFetch
  | _ => .error .reservedOp

/-- UNIT 0x4, PP (R85). -/
def decodePp (inst : InstNo) : Nat → Except DecodeError Instr
  | 0 => withoutInst inst .ppStart
  | 1 => withoutInst inst .ppComplete
  | 2 => withoutInst inst .ppPoll
  | 3 => withoutInst inst .ppFill
  | 4 => withoutInst inst .ppPlaying
  | _ => .error .reservedOp

/-- UNIT 0x5, SYS (R85). -/
def decodeSys (inst : InstNo) : Nat → Except DecodeError Instr
  | 0 => withoutInst inst .sysIdle
  | 1 => withoutInst inst .sysStatus
  | _ => .error .reservedOp

/-- The unit table (R84). -/
def decodeUnit (op : Nat) (inst : InstNo) : Nat → Except DecodeError Instr
  | 0 => decodeRb inst op
  | 1 => decodeClk inst op
  | 2 => decodeDb inst op
  | 3 => decodeDec inst op
  | 4 => decodePp inst op
  | 5 => decodeSys inst op
  | _ => .error .reservedUnit

/-- The operation a command word stands for (R83 to R87). Whether its INST value names an instance of the
configuration is `Instr.WellFormed`. -/
def decode (w : CommandWord) : Except DecodeError Instr :=
  if rsvdField w = 0 then
    decodeUnit (opField w).toNat (instField w) (unitField w).toNat
  else .error .reservedBits

/-- The word with the given UNIT, OP and INST fields and RSVD = 0 (R83). -/
def commandWord (unit op : BitVec 4) (inst : InstNo) : CommandWord :=
  unit ++ op ++ inst ++ 0#16

/-- The command word of an operation (R85). -/
def encode : Instr → CommandWord
  | .rbWrite inst => commandWord 0x0 0x0 inst
  | .rbRead inst => commandWord 0x0 0x1 inst
  | .rbPeek inst => commandWord 0x0 0x2 inst
  | .rbUsed inst => commandWord 0x0 0x3 inst
  | .rbFree inst => commandWord 0x0 0x4 inst
  | .rbFlush inst => commandWord 0x0 0x5 inst
  | .clkTick => commandWord 0x1 0x0 0
  | .clkNow => commandWord 0x1 0x1 0
  | .clkDelayFrom => commandWord 0x1 0x2 0
  | .clkHasPassed => commandWord 0x1 0x3 0
  | .dbInit inst => commandWord 0x2 0x0 inst
  | .dbSample inst => commandWord 0x2 0x1 inst
  | .dbState inst => commandWord 0x2 0x2 inst
  | .decPush => commandWord 0x3 0x0 0
  | .decDrain => commandWord 0x3 0x1 0
  | .micFetch => commandWord 0x3 0x2 0
  | .ppStart => commandWord 0x4 0x0 0
  | .ppComplete => commandWord 0x4 0x1 0
  | .ppPoll => commandWord 0x4 0x2 0
  | .ppFill => commandWord 0x4 0x3 0
  | .ppPlaying => commandWord 0x4 0x4 0
  | .sysIdle => commandWord 0x5 0x0 0
  | .sysStatus => commandWord 0x5 0x1 0

/-- The command word an instruction of the opcode table is: its low `nbits` bits, zero above (R83: one length,
32 bits). -/
def tableWord (nbits w : Nat) : CommandWord := BitVec.ofNat 32 (w % 2 ^ nbits)

/-- The operation the decoder reads from an instruction of the opcode table, none where it refuses. -/
def decodeTableWord (nbits w : Nat) : Option Instr :=
  (decode (tableWord nbits w)).toOption

end Sys2Proof
end

