-- ==== Sys2Proof/Machine/ConfigCheck.lean ====
section
/-! DEFINITION. The check of the configuration at reset (70_reset_and_hazards R272, 00_scope R8). -/

namespace Sys2Proof.Machine

/-- Whether the configuration meets one constraint of 00_scope R8. -/
def constraintHolds (c : Config) : Constraint → Bool
  | .nrb => decide (2 ≤ c.nrb) && decide (c.nrb ≤ 256)
  | .ringSize => c.rb.all fun r => decide (1 ≤ r.n)
  | .ringWidth => c.rb.all fun r => decide (1 ≤ r.w)
  | .rawWidth => decide (c.ringW 0 = 8)
  | .rawProducer => decide (c.ringProd 0 = some .bitstreamIsr)
  | .rawConsumer => decide (c.ringCons 0 = some .task)
  | .micProducer => decide (c.ringProd 1 = some .task)
  | .micConsumer => decide (c.ringCons 1 = some .task)
  | .clockWidth => decide (2 ≤ c.cw)
  | .tickPeriod => decide (1 ≤ c.tickUs)
  | .microsecondsWidth => decide (1 ≤ c.usW)
  | .passThreshold => decide (1 ≤ c.passThreshold) && decide (c.passThreshold ≤ c.clockModulus - 1)
  | .clockReset => decide (c.clkReset < c.clockModulus)
  | .ndb => decide (c.ndb ≤ 256)
  | .integratorTop => c.db.all fun d => decide (1 ≤ d.intTop)
  | .identifierWidth => decide (8 ≤ c.dbIdW)
  | .identifier => c.db.all fun d => decide (d.id < 2 ^ c.dbIdW)
  | .decimationIn => decide (1 ≤ c.decIn) && decide (c.decIn ≤ c.ringN 0 - 1)
  | .decimationOut => decide (1 ≤ c.decOut)
  | .blockFrames => decide (1 ≤ c.b)
  | .channels => decide (c.ch = 2)
  | .micBlock => decide (1 ≤ c.micBlock)
  | .micSize => decide (2 ≤ c.ringN 1)

/-- Every constraint, in the order of 00_scope R8. -/
def allConstraints : List Constraint :=
  [.nrb, .ringSize, .ringWidth, .rawWidth, .rawProducer, .rawConsumer, .micProducer, .micConsumer,
   .clockWidth, .tickPeriod, .microsecondsWidth, .passThreshold, .clockReset, .ndb, .integratorTop,
   .identifierWidth, .identifier, .decimationIn, .decimationOut, .blockFrames, .channels, .micBlock, .micSize]

/-- The constraints the configuration breaks (70_reset_and_hazards R272). -/
def brokenConstraints (c : Config) : List Constraint :=
  allConstraints.filter fun k => !constraintHolds c k

end Sys2Proof.Machine
end

