-- ==== Sys2Proof/Machine/State.lean ====
section
/-! DEFINITION. The state of the core (10_state R20 to R42), the ports of its command interfaces (30_encoding R80 to
R82), why a step stops, and the state after reset (10_state R48, 70_reset_and_hazards R270 to R273). -/

namespace Sys2Proof.Machine

/-- Why the machine stops. Neither is an instruction's own outcome: an operation that raises a fatal halt or a
model fault ANSWERS A NEXT STATE that records it (60_exceptions R237, R240). -/
inductive Fault where
  /-- Raised by `step` and by every meaning in a state with `SYS.halted = 1`: no agent has a step
  (60_exceptions R240, 30_encoding R88). Safe: the machine stops as the spec says. -/
  | halted
  /-- Raised by `step` and by every meaning in a state with `SYS.fault ≠ none`: no agent has a step
  (60_exceptions R237, 30_encoding R88). Safe: the machine stops as the spec says. -/
  | faulted
  /-- Raised by an access to an element that its space does not have (20_memory R60, R62: no such access can be
  expressed). Safe: only a state that no run reaches gets here (log 11). -/
  | noSuchElement
  /-- Raised by an operation on a ring or a debounce filter that the configuration has and the state lacks.
  Safe: only a state that no run reaches gets here (log 11). -/
  | noSuchInstance
  deriving DecidableEq, Repr

/-- Why an instruction is refused. -/
inductive Refusal where
  /-- Raised by `exec` for an instruction that has no meaning yet. Safe. No arm of `exec` raises it. -/
  | notModelled (mnemonic : String)
  deriving DecidableEq, Repr

/-- SYS.halt_code (60_exceptions R232). The codes 4 to 7 are reserved and never raised. -/
inductive HaltCode where
  /-- 0: no halt -/
  | none
  /-- 1: HALT_DEC_OVERFLOW (R233) -/
  | decOverflow
  /-- 2: HALT_PB_OVERRUN (R234) -/
  | pbOverrun
  /-- 3: HALT_MIC_OVERFLOW (R235) -/
  | micOverflow
  deriving DecidableEq, Repr

/-- The model faults that a command raises (60_exceptions R236, codes 1 to 6). -/
inductive FaultCode where
  /-- 1: FLT_ILLEGAL_COMMAND -/
  | illegalCommand
  /-- 2: FLT_CONTEXT -/
  | context
  /-- 3: FLT_SEQUENCE -/
  | sequence
  /-- 4: FLT_OWNERSHIP -/
  | ownership
  /-- 5: FLT_SPURIOUS -/
  | spurious
  /-- 6: FLT_OPERAND -/
  | operand
  deriving DecidableEq, Repr

/-- What SYS.fault records (10_state R22, 60_exceptions R236). -/
inductive FaultRecord where
  /-- a fault of a command: its code, the issuing context, the command word -/
  | command (code : FaultCode) (ctx : ContextId) (word : CommandWord)
  /-- 7: FLT_CONFIG, with the constraints broken (log 19) -/
  | config (broken : List Constraint)
  deriving DecidableEq, Repr

/-- A ring: its backing store and its two indices (10_state R23 to R25). Its size N is the store's length (log 12). -/
structure RingBuffer (α : Type) where
  store : List α
  head : Nat
  tail : Nat
  deriving DecidableEq, Repr

/-- The phase of a drain (10_state R26, 43_decimator R161): which atomic step comes next. -/
inductive DrainPhase where
  | check
  | collect
  | emit
  deriving DecidableEq, Repr

/-- The progress of a DEC_DRAIN (10_state R26): `acc` holds the bytes collected so far. -/
structure Drain where
  phase : DrainPhase
  k : Nat
  acc : List Byte
  blocks : Nat
  deriving DecidableEq, Repr

/-- CTXST[c] (10_state R26). -/
inductive Progress where
  | idle
  /-- RB_FLUSH of a ring: the index write that remains (40_ringbuffer R108) -/
  | flush (inst : InstNo) (remaining : RingIndex)
  /-- DEC_DRAIN -/
  | drain (d : Drain)
  deriving DecidableEq, Repr

/-- One value for each software context (00_scope R6). -/
structure PerContext (α : Type) where
  task : α
  tick : α
  bits : α
  dmai : α
  deriving DecidableEq, Repr

/-- The result ports of an interface (30_encoding R82); `none` is a port that holds no value. -/
structure Results where
  ok : Option Bool
  res : Option Nat
  blkOut : Option (List Sample)
  edgeValid : Option Bool
  edgeState : Option Bool
  edgeId : Option Nat
  deriving DecidableEq, Repr

/-- DB[j].dstate once DB_INIT has run (10_state R29). -/
inductive DebounceState where
  | undefined
  | false
  | true
  deriving DecidableEq, Repr

/-- DB[j] once DB_INIT has run (10_state R28, R29); Uninit is the absence of this record (log 17). -/
structure Debounce where
  integ : Nat
  dstate : DebounceState
  deriving DecidableEq, Repr

/-- A playback buffer's index (10_state R33, R35). -/
inductive BufIx where
  | zero
  | one
  deriving DecidableEq, Repr

/-- PP.task_phase (10_state R37). -/
inductive TaskPhase where
  | wait
  | fill
  deriving DecidableEq, Repr

/-- The scheduler's and the DMA engine's state once PP_START has run (10_state R35 to R41, log 16). -/
structure Playback where
  playing : BufIx
  expected : BufIx
  phase : TaskPhase
  idleCount : Nat
  dmaActive : Bool
  dmaPending : Bool
  dmaBuf : BufIx
  deriving DecidableEq, Repr

/-- A debounce edge event (10_state R42): instance, new state, identifier, issuing context. -/
structure Edge where
  inst : InstNo
  state : Bool
  id : Nat
  ctx : Context
  deriving DecidableEq, Repr

/-- The state of the core. -/
structure State where
  /-- the configuration (00_scope R8), written by no step (10_state R45; log 3) -/
  cfg : Config
  /-- SYS.halted (R21) -/
  halted : Bool
  /-- SYS.halt_code (R21) -/
  haltCode : HaltCode
  /-- SYS.fault (R22) -/
  fault : Option FaultRecord
  /-- CTXST (R26) -/
  progress : PerContext Progress
  /-- RB[0], RAW (R30) -/
  raw : RingBuffer Byte
  /-- RB[1], MIC (R30) -/
  mic : RingBuffer Sample
  /-- RB[2] to RB[NRB-1], each element a value of RB_W[i] bits (R23) -/
  rings : List (RingBuffer Nat)
  /-- CLK.cnt (R27) -/
  cnt : Nat
  /-- DB[0] to DB[NDB-1]; `none` is Uninit (R28, R29) -/
  db : List (Option Debounce)
  /-- DEC.fs (R31) -/
  fs : FilterState
  /-- PP.buf[0] (R33) -/
  buf0 : List Native
  /-- PP.buf[1] (R33) -/
  buf1 : List Native
  /-- PP.started, PP.playing, PP.expected, PP.task_phase, PP.idle_count, DMA.active, DMA.pending, DMA.buf
  (R34 to R41); `none` before PP_START -/
  pp : Option Playback
  /-- OUT.played (R42) -/
  played : List (BufIx × List Native)
  /-- OUT.edges (R42) -/
  edges : List Edge
  /-- OUT.diag (R42) -/
  diag : List HaltCode
  /-- the result ports of each context's interface (30_encoding R80, R82) -/
  results : PerContext Results
  /-- the command whose step is being taken: sideband id, word and operand ports (30_encoding R81 to R83; log 13) -/
  cmd : Command
  /-- the agents' steps already chosen, next first (00_scope R7; log 1) -/
  events : List Event
  /-- the draws of 40_ringbuffer R108 already chosen, next first (log 10) -/
  flushDraws : List RingIndex
  /-- how many free values have been drawn (logs 1 and 10) -/
  draws : Nat
  deriving DecidableEq, Repr

/-- PP.started (R34). -/
def State.ppStarted (s : State) : Bool := s.pp.isSome

/-- DMA.active (R39): 0 until PP_START. -/
def State.dmaActive (s : State) : Bool := (s.pp.map (·.dmaActive)).getD false

/-- DMA.pending (R41): 0 until PP_START. -/
def State.dmaPending (s : State) : Bool := (s.pp.map (·.dmaPending)).getD false

/-- The contents that reset draws (10_state R48): the backing stores and the playback buffers. -/
structure Draws where
  raw : List Byte
  mic : List Sample
  rings : List (List Nat)
  buf0 : List Native
  buf1 : List Native
  deriving DecidableEq, Repr

/-- A ring at reset: the drawn store, both indices 0 (10_state R48). -/
def RingBuffer.atReset {α : Type} (store : List α) : RingBuffer α := ⟨store, 0, 0⟩

/-- A general ring at reset: each drawn element is cut to RB_W[i] bits (log 6). -/
def generalRingAtReset (r : RingConfig) (draw : List Nat) : RingBuffer Nat :=
  .atReset ((drawnSpace draw 0 r.n).map (· % 2 ^ r.w))

/-- A playback buffer at reset: CH*B drawn samples, each cut to the range of NATIVE_W bits (log 6). -/
def bufferAtReset (c : Config) (draw : List Native) : List Native :=
  (drawnSpace draw 0 c.blockLen).map (·.bmod (2 ^ c.nativeW))

/-- Result ports that hold no value. -/
def Results.blank : Results := ⟨none, none, none, none, none, none⟩

/-- Reset (70_reset_and_hazards R270 to R273) of an instance of configuration `c`, with the contents `d` drawn:
every field of 10_state R48, and FLT_CONFIG if the configuration breaks a constraint (R272). -/
def State.resetOf (c : Config) (d : Draws) : State where
  cfg := c
  halted := false
  haltCode := .none
  fault := if brokenConstraints c = [] then none else some (.config (brokenConstraints c))
  progress := ⟨.idle, .idle, .idle, .idle⟩
  raw := .atReset (drawnSpace d.raw 0 (c.ringN 0))
  mic := .atReset (drawnSpace d.mic 0 (c.ringN 1))
  rings := (c.rb.drop 2).mapIdx fun n r => generalRingAtReset r (d.rings.getD n [])
  cnt := c.clkReset
  db := List.replicate c.ndb none
  fs := c.fs0
  buf0 := bufferAtReset c d.buf0
  buf1 := bufferAtReset c d.buf1
  pp := none
  played := []
  edges := []
  diag := []
  results := ⟨.blank, .blank, .blank, .blank⟩
  cmd := ⟨0, 0, 0, 0, []⟩
  events := []
  flushDraws := []
  draws := 0

/-- The machine right after reset: the configuration `Config.chosen` and zero for every draw (DESIGN CHOICE,
logs 4 and 5, unsafe for a statement about this one state; `State.resetOf` ranges over all of them). -/
def State.reset : State := .resetOf .chosen ⟨[], [], [], [], []⟩

end Sys2Proof.Machine
end

