-- ==== Sys2Proof/Machine/Ops.lean ====
section
/-! DEFINITION. The named operations over the state: contexts and their ports, element spaces, rings, the
uninterpreted functions of the configuration, raising a model fault and entering the fatal halt. -/

namespace Sys2Proof.Machine

/-- What an operation, or an agent's step, answers. -/
abbrev Result := Host.Outcome State Fault Refusal

/-! ### Contexts (00_scope R6, 30_encoding R81) -/

/-- The context a sideband id names; ids 4 to 7 are reserved (30_encoding R81). -/
def contextOfId (id : ContextId) : Option Context :=
  match id.toNat with
  | 0 => some .task
  | 1 => some .tickIsr
  | 2 => some .bitstreamIsr
  | 3 => some .dmaIsr
  | _ => none

/-- The sideband id of a context (30_encoding R81). -/
def contextId : Context → ContextId
  | .task => 0
  | .tickIsr => 1
  | .bitstreamIsr => 2
  | .dmaIsr => 3

def PerContext.get {α : Type} (p : PerContext α) : Context → α
  | .task => p.task
  | .tickIsr => p.tick
  | .bitstreamIsr => p.bits
  | .dmaIsr => p.dmai

def PerContext.set {α : Type} (p : PerContext α) (c : Context) (v : α) : PerContext α :=
  match c with
  | .task => { p with task := v }
  | .tickIsr => { p with tick := v }
  | .bitstreamIsr => { p with bits := v }
  | .dmaIsr => { p with dmai := v }

/-! ### Updates of the state -/

def State.setProgress (s : State) (c : Context) (p : Progress) : State :=
  { s with progress := s.progress.set c p }

/-- Drive the result ports of a context's interface; a port the operation does not name holds no value
(30_encoding R82). -/
def State.setResults (s : State) (c : Context) (r : Results) : State :=
  { s with results := s.results.set c r }

def State.setRaw (s : State) (r : RingBuffer Byte) : State := { s with raw := r }

def State.setMic (s : State) (r : RingBuffer Sample) : State := { s with mic := r }

/-- Ring `i` of the general rings, 2 ≤ i. -/
def State.ring? (s : State) (i : Nat) : Option (RingBuffer Nat) :=
  if 2 ≤ i then s.rings[i - 2]? else none

def State.setRing (s : State) (i : Nat) (r : RingBuffer Nat) : State :=
  { s with rings := s.rings.set (i - 2) r }

def State.setDebounce (s : State) (j : Nat) (d : Debounce) : State :=
  { s with db := s.db.set j (some d) }

def State.setPlayback (s : State) (p : Playback) : State := { s with pp := some p }

/-- The other buffer, `1 - b`. -/
def BufIx.other : BufIx → BufIx
  | .zero => .one
  | .one => .zero

/-- PP.buf[b] (10_state R33). -/
def State.buf (s : State) : BufIx → List Native
  | .zero => s.buf0
  | .one => s.buf1

def State.setBuf (s : State) (b : BufIx) (v : List Native) : State :=
  match b with
  | .zero => { s with buf0 := v }
  | .one => { s with buf1 := v }

/-! ### Ending an operation -/

/-- The operation is finished: context `c` sees the results (30_encoding R80, R82). -/
def finish (c : Context) (r : Results) (s : State) : Result :=
  .next (s.setResults c r)

/-- `raise Fault(code)` (60_exceptions R237): SYS.fault records the code, the issuing context and the command
word; nothing else changes. -/
def raiseFault (code : FaultCode) (s : State) : Result :=
  .next { s with fault := some (.command code s.cmd.ctx s.cmd.word) }

/-- `raise Fatal(code)`: entering the fatal halt (60_exceptions R240, R241). The spec gives no return from it
(R242), so there is no operation beside it. -/
def raiseFatal (code : HaltCode) (s : State) : Result :=
  .next { s with halted := true, haltCode := code, diag := s.diag ++ [code] }

/-! ### Element spaces (20_memory R60) -/

/-- `MemRead(S, k, 1)`; none for an index outside the space (20_memory R62). -/
def memRead {α : Type} (space : List α) (k : Nat) : Option α := space[k]?

/-- `MemWrite(S, k, 1, v)`; none for an index outside the space (20_memory R62). -/
def memWrite {α : Type} (space : List α) (k : Nat) (v : α) : Option (List α) :=
  if k < space.length then some (space.set k v) else none

/-! ### Rings (40_ringbuffer R101 to R104) -/

section
variable {α : Type}

/-- N. -/
def RingBuffer.size (r : RingBuffer α) : Nat := r.store.length

/-- `used(i) = (head - tail + N) mod N` (R101). -/
def RingBuffer.used (r : RingBuffer α) : Nat := (r.head + r.size - r.tail) % r.size

/-- `free(i) = N - used(i) - 1` (R102). -/
def RingBuffer.free (r : RingBuffer α) : Nat := r.size - r.used - 1

/-- The element the next read returns (R104, R105). -/
def RingBuffer.front (r : RingBuffer α) : Option α := memRead r.store r.tail

/-- `tail <- (tail + 1) mod N` (R104). -/
def RingBuffer.dropFront (r : RingBuffer α) : RingBuffer α := { r with tail := (r.tail + 1) % r.size }

/-- The write half of R103: the element goes to the slot at head, and head advances. -/
def RingBuffer.push (r : RingBuffer α) (e : α) : Option (RingBuffer α) :=
  (memWrite r.store r.head e).map fun store => { r with store := store, head := (r.head + 1) % r.size }

/-- The read half of R104: the oldest element, and the ring without it. -/
def RingBuffer.pop (r : RingBuffer α) : Option (α × RingBuffer α) :=
  r.front.map fun e => (e, r.dropFront)

/-- `m` reads, oldest first (43_decimator R164). -/
def RingBuffer.popMany (r : RingBuffer α) : Nat → Option (List α × RingBuffer α)
  | 0 => some ([], r)
  | m + 1 => r.pop.bind fun p => (p.2.popMany m).map fun q => (p.1 :: q.1, q.2)

/-- The loop of MicSinkWrite (43_decimator R163): an element that finds the ring full is discarded. -/
def RingBuffer.pushWhileFree (r : RingBuffer α) : List α → Option (RingBuffer α)
  | [] => some r
  | e :: es => if 0 < r.free then (r.push e).bind fun r' => r'.pushWhileFree es else r.pushWhileFree es

/-- One index write of RB_FLUSH (R108). -/
def RingBuffer.clearIndex (r : RingBuffer α) : RingIndex → RingBuffer α
  | .head => { r with head := 0 }
  | .tail => { r with tail := 0 }

end

/-- The index a flush writes second. -/
def otherIndex : RingIndex → RingIndex
  | .head => .tail
  | .tail => .head

/-- The general ring an operation names, which a state that a run reaches has. -/
def withRing (inst : InstNo) (s : State) (k : RingBuffer Nat → Result) : Result :=
  match s.ring? inst.toNat with
  | some r => k r
  | none => .fault .noSuchInstance

/-- The debounce filter an operation names, which a state that a run reaches has. -/
def withDebounce (inst : InstNo) (s : State) (k : Option Debounce → Result) : Result :=
  match s.db[inst.toNat]? with
  | some d => k d
  | none => .fault .noSuchInstance

/-- `draw first in {head, tail}` (40_ringbuffer R108): the first draw the state lists, else a free value (log 10). -/
def flushFirst (s : State) : RingIndex :=
  match s.flushDraws with
  | x :: _ => x
  | [] => Config.freeFlushFirst s.draws

/-- The state once the draw of a flush is taken: a listed draw leaves the list, a free one is counted. -/
def State.afterFlushDraw (s : State) : State :=
  match s.flushDraws with
  | _ :: xs => { s with flushDraws := xs }
  | [] => { s with draws := s.draws + 1 }

/-! ### Arithmetic of 00_scope R9 -/

/-- `ceil_div(a, b)`, the least q with q·b ≥ a, for b ≥ 1 (00_scope R9). -/
def ceilDiv (a b : Nat) : Nat := (a + b - 1) / b

/-! ### The uninterpreted functions of the configuration -/

/-- The value the configuration lists of DECIM_FILTER at these arguments. -/
def filterRow (c : Config) (fs : FilterState) (bytes : List Byte) : Option FilterRow :=
  c.filter.find? fun r => r.fs == fs && r.bytes == bytes

/-- The state DECIM_FILTER goes to (43_decimator R162). -/
def filterState (c : Config) (fs : FilterState) (bytes : List Byte) : FilterState :=
  match filterRow c fs bytes with
  | some r => r.fs'
  | none => Config.freeFilterState fs bytes

/-- Sample `n` of the block DECIM_FILTER gives (43_decimator R162). -/
def filterSample (c : Config) (fs : FilterState) (bytes : List Byte) (n : Nat) : Sample :=
  match (filterRow c fs bytes).bind (·.pcm[n]?) with
  | some x => x
  | none => Config.freeFilterSample fs bytes n

/-- The block DECIM_FILTER gives: exactly DEC_OUT samples (43_decimator R162). -/
def filterBlock (c : Config) (fs : FilterState) (bytes : List Byte) : List Sample :=
  (List.range c.decOut).map (filterSample c fs bytes)

/-- The value of SAMPLE_CONVERT (44_pingpong R194) before it is cut to the native width: listed, or free. -/
def convertValue (c : Config) (x : Sample) : Native :=
  match c.convert.find? (fun r : ConvertRow => r.sample == x) with
  | some r => r.native
  | none => Config.freeConvert x

/-- SAMPLE_CONVERT (44_pingpong R194), in the range of NATIVE_W bits (10_state R33). -/
def sampleConvert (c : Config) (x : Sample) : Native := (convertValue c x).bmod (2 ^ c.nativeW)

end Sys2Proof.Machine
end

