-- ==== Sys2Proof/Machine/Flags.lean ====
section
/-! DEFINITION. The status an operation reports. The core has no flag register (10_state R43): a status is a value of
the result ports (30_encoding R82, R89) or a field of the status word (10_state R44). -/

namespace Sys2Proof.Machine

/-! ### Result ports by operation (30_encoding R89): a port not named holds no value -/

/-- `ok` alone: RB_WRITE, CLK_HAS_PASSED, PP_POLL, and RB_READ and RB_PEEK on an empty ring. -/
def okResult (b : Bool) : Results := { Results.blank with ok := some b }

/-- `ok = 1` and `res`: RB_READ and RB_PEEK of an element. -/
def okResResult (v : Nat) : Results := { Results.blank with ok := some true, res := some v }

/-- `res` alone. -/
def resResult (v : Nat) : Results := { Results.blank with res := some v }

/-- `res` and `blk_out`: MIC_FETCH. -/
def blockResult (m : Nat) (block : List Sample) : Results :=
  { Results.blank with res := some m, blkOut := some block }

/-- The edge outputs of DB_SAMPLE: `edge_state` and `edge_id` have a value only when `edge_valid` is 1 (42_debounce R141). -/
def edgeResult (edge : Option Bool) (id : Nat) : Results :=
  { Results.blank with edgeValid := some edge.isSome, edgeState := edge, edgeId := edge.map fun _ => id }

/-! ### Computed status -/

/-- `k = ceil_div(us, TICK_US) + 1` (41_clock R122). -/
def delayTicks (c : Config) (us : Nat) : Nat := ceilDiv us c.tickUs + 1

/-- `(base + k) mod M` (41_clock R122). -/
def deadlineFrom (c : Config) (base us : Nat) : Nat := (base + delayTicks c us) % c.clockModulus

/-- `(cnt - d) mod M` for a CW-bit deadline (41_clock R123). -/
def clockDiff (c : Config) (cnt d : Nat) : Nat := (cnt + c.clockModulus - d) % c.clockModulus

/-- Passed only while the difference is smaller than the threshold (41_clock R123). -/
def hasPassed (c : Config) (cnt d : Nat) : Bool := decide (clockDiff c cnt d < c.passThreshold)

/-- The integrator after one sample, saturating at T and at 0 (42_debounce R141). -/
def integrate (top integ : Nat) (raw : Bool) : Nat :=
  if raw then min (integ + 1) top else integ - 1

/-- The edge of a sample: the integrator after the update against the state before it (42_debounce R141). -/
def edgeOf (top integ : Nat) (dstate : DebounceState) : Option Bool :=
  if integ = top ∧ dstate ≠ .true then some true
  else if integ = 0 ∧ dstate ≠ .false then some false
  else none

/-- The debounced state after an edge, or the state before it when there is none (42_debounce R141). -/
def stateAfterEdge (dstate : DebounceState) : Option Bool → DebounceState
  | some true => .true
  | some false => .false
  | none => dstate

/-- The encoding of DB[j].dstate on the result port (10_state R29). -/
def debounceCode : DebounceState → Nat
  | .undefined => 0
  | .false => 1
  | .true => 2

/-- SYS.halt_code (60_exceptions R232). -/
def haltCodeBits : HaltCode → BitVec 3
  | .none => 0
  | .decOverflow => 1
  | .pbOverrun => 2
  | .micOverflow => 3

/-- The number of a model fault (60_exceptions R236). -/
def faultNumber : FaultRecord → Nat
  | .command .illegalCommand _ _ => 1
  | .command .context _ _ => 2
  | .command .sequence _ _ => 3
  | .command .ownership _ _ => 4
  | .command .spurious _ _ => 5
  | .command .operand _ _ => 6
  | .config _ => 7

/-- A buffer's index as a number. -/
def bufNumber : BufIx → Nat
  | .zero => 0
  | .one => 1

/-- A buffer's index as a bit. -/
def bufBit : BufIx → Bool
  | .zero => false
  | .one => true

/-- A bit of the scheduler's state in the status word: 0 before PP_START (10_state R44). -/
def playbackBit (s : State) (f : Playback → Bool) : BitVec 1 :=
  BitVec.ofBool ((s.pp.map f).getD false)

/-- The status word (10_state R44), its fields from bit 31 down to bit 0. -/
def statusWord (s : State) : BitVec 32 :=
  0#21
    ++ playbackBit s (fun p => bufBit p.dmaBuf)
    ++ playbackBit s (fun p => p.dmaPending)
    ++ playbackBit s (fun p => p.dmaActive)
    ++ playbackBit s (fun p => decide (p.phase = .fill))
    ++ playbackBit s (fun p => bufBit p.expected)
    ++ playbackBit s (fun p => bufBit p.playing)
    ++ BitVec.ofBool s.ppStarted
    ++ haltCodeBits s.haltCode
    ++ BitVec.ofBool s.halted

end Sys2Proof.Machine
end

