-- ==== Sys2Proof/Machine/Operands.lean ====
section
/-! DEFINITION. Who may issue an operation (60_exceptions R248), which operands it takes (30_encoding R89), and the
checks that every operation makes before its own rule, in their order (30_encoding R88). -/

namespace Sys2Proof.Machine

/-- The producer of the ring (60_exceptions R248). -/
def isProducer (c : Config) (inst : InstNo) (x : Context) : Bool :=
  decide (c.ringProd inst.toNat = some x)

/-- The consumer of the ring (60_exceptions R248). -/
def isConsumer (c : Config) (inst : InstNo) (x : Context) : Bool :=
  decide (c.ringCons inst.toNat = some x)

/-- The permission table of 60_exceptions R248. -/
def permitted (c : Config) (x : Context) : Instr → Bool
  | .rbWrite inst => isProducer c inst x
  | .rbRead inst => isConsumer c inst x
  | .rbPeek inst => isConsumer c inst x
  | .rbUsed inst => isProducer c inst x || isConsumer c inst x
  | .rbFree inst => isProducer c inst x || isConsumer c inst x
  | .rbFlush inst => isProducer c inst x || isConsumer c inst x
  | .clkTick => decide (x = .tickIsr)
  | .clkNow | .clkDelayFrom | .clkHasPassed => true
  | .dbInit _ | .dbSample _ | .dbState _ => true
  | .decPush => decide (x = .bitstreamIsr)
  | .decDrain | .micFetch => decide (x = .task)
  | .ppStart | .ppPoll | .ppFill => decide (x = .task)
  | .ppComplete => decide (x = .dmaIsr)
  | .ppPlaying => true
  | .sysIdle => decide (x = .task)
  | .sysStatus => true

/-- An operand fits `w` bits (30_encoding R89). -/
def fits (v w : Nat) : Bool := decide (v < 2 ^ w)

/-- The operands of the command are in range (30_encoding R89): each fits the width of its operand, and a block has
the length the operation takes. -/
def operandsFit (c : Config) (cmd : Command) : Instr → Bool
  | .rbWrite inst => fits cmd.arg0 (c.ringW inst.toNat)
  | .clkDelayFrom => fits cmd.arg0 c.cw && fits cmd.arg1 c.usW
  | .clkHasPassed => fits cmd.arg0 c.cw
  | .dbSample _ => fits cmd.arg0 1
  | .decPush => fits cmd.arg0 8
  | .ppFill => decide (cmd.blkIn.length = c.blockLen)
  | .rbRead _ | .rbPeek _ | .rbUsed _ | .rbFree _ | .rbFlush _ => true
  | .clkTick | .clkNow => true
  | .dbInit _ | .dbState _ => true
  | .decDrain | .micFetch => true
  | .ppStart | .ppComplete | .ppPoll | .ppPlaying => true
  | .sysIdle | .sysStatus => true

/-- The checks of 30_encoding R88 in their order, and then the operation's own rule for the issuing context. -/
def issue (i : Instr) (s : State) (rule : Context → Result) : Result :=
  if s.halted then .fault .halted
  else if s.fault.isSome then .fault .faulted
  else if !legalInst s.cfg i then raiseFault .illegalCommand s
  else match contextOfId s.cmd.ctx with
    | none => raiseFault .context s
    | some x =>
      if !permitted s.cfg x i then raiseFault .context s
      else if !operandsFit s.cfg s.cmd i then raiseFault .operand s
      else rule x

end Sys2Proof.Machine
end

