-- ==== Sys2Proof/Machine/Clock.lean ====
section
/-! DEFINITION. The CLK unit (41_clock). -/

namespace Sys2Proof.Machine

/-- CLK_TICK (R120): the counter wraps modulo 2^CW. -/
def execClkTick (s : State) : Result :=
  issue .clkTick s fun x => finish x .blank { s with cnt := (s.cnt + 1) % s.cfg.clockModulus }

/-- CLK_NOW (R121). -/
def execClkNow (s : State) : Result :=
  issue .clkNow s fun x => finish x (resResult s.cnt) s

/-- CLK_DELAY_FROM (R122): it does not read the counter. -/
def execClkDelayFrom (s : State) : Result :=
  issue .clkDelayFrom s fun x => finish x (resResult (deadlineFrom s.cfg s.cmd.arg0 s.cmd.arg1)) s

/-- CLK_HAS_PASSED (R123): computed for every deadline, with no fault (R126). -/
def execClkHasPassed (s : State) : Result :=
  issue .clkHasPassed s fun x => finish x (okResult (hasPassed s.cfg s.cnt s.cmd.arg0)) s

end Sys2Proof.Machine
end

