-- ==== Sys2Proof/Machine/Debouncer.lean ====
section
/-! DEFINITION. The DB unit (42_debounce). -/

namespace Sys2Proof.Machine

/-- DB_INIT (R140): also on a filter already in use, which it restarts. -/
def execDbInit (inst : InstNo) (s : State) : Result :=
  issue (.dbInit inst) s fun x => withDebounce inst s fun _ =>
    finish x .blank (s.setDebounce inst.toNat ⟨s.cfg.intTop inst.toNat / 2, .undefined⟩)

/-- `emit Edge(s, id)` (R141): the event is appended to OUT.edges with the issuing context (R143). -/
def emitEdge (inst : InstNo) (x : Context) (edge : Option Bool) (s : State) : State :=
  match edge with
  | some b => { s with edges := s.edges ++ [⟨inst, b, s.cfg.dbId inst.toNat, x⟩] }
  | none => s

/-- One integration step on an initialised filter (R141). -/
def sampleFilter (inst : InstNo) (x : Context) (raw : Bool) (d : Debounce) (s : State) : Result :=
  let top := s.cfg.intTop inst.toNat
  let integ := integrate top d.integ raw
  let edge := edgeOf top integ d.dstate
  finish x (edgeResult edge (s.cfg.dbId inst.toNat))
    (emitEdge inst x edge (s.setDebounce inst.toNat ⟨integ, stateAfterEdge d.dstate edge⟩))

/-- DB_SAMPLE (R141): FLT_SEQUENCE before DB_INIT. -/
def execDbSample (inst : InstNo) (s : State) : Result :=
  issue (.dbSample inst) s fun x => withDebounce inst s fun d? =>
    match d? with
    | none => raiseFault .sequence s
    | some d => sampleFilter inst x (decide (s.cmd.arg0 = 1)) d s

/-- DB_STATE (R142): FLT_SEQUENCE before DB_INIT. -/
def execDbState (inst : InstNo) (s : State) : Result :=
  issue (.dbState inst) s fun x => withDebounce inst s fun d? =>
    match d? with
    | none => raiseFault .sequence s
    | some d => finish x (resResult (debounceCode d.dstate)) s

end Sys2Proof.Machine
end

