-- ==== Sys2Proof/Machine/Decimator.lean ====
section
/-! DEFINITION. The DEC unit (43_decimator). -/

namespace Sys2Proof.Machine

/-- DEC_PUSH (R160): a full raw ring is fatal, and the ring is unchanged. -/
def execDecPush (s : State) : Result :=
  issue .decPush s fun x =>
    if s.raw.free = 0 then raiseFatal .decOverflow s
    else match s.raw.push (BitVec.ofNat 8 s.cmd.arg0) with
      | some r => finish x .blank (s.setRaw r)
      | none => .fault .noSuchElement

/-- The Check step (R161): with fewer than DEC_IN bytes the operation is finished, else a block's collection begins. -/
def drainCheck (x : Context) (d : Drain) (s : State) : Result :=
  if s.raw.used < s.cfg.decIn then finish x (resResult d.blocks) (s.setProgress x .idle)
  else .next (s.setProgress x (.drain ⟨.collect, 0, [], d.blocks⟩))

/-- A Collect step (R161): one byte leaves the raw ring. -/
def drainCollect (x : Context) (d : Drain) (s : State) : Result :=
  match s.raw.pop with
  | some (e, r) =>
    .next ((s.setRaw r).setProgress x
      (.drain ⟨if d.k + 1 < s.cfg.decIn then .collect else .emit, d.k + 1, d.acc ++ [e], d.blocks⟩))
  | none => .fault .noSuchElement

/-- The Emit step (R161) with MicSinkWrite (R163): the block goes through the filter and on to the MIC ring. -/
def drainEmit (x : Context) (d : Drain) (s : State) : Result :=
  if s.cfg.micFullPolicy = .fatal ∧ s.mic.free < s.cfg.decOut then raiseFatal .micOverflow s
  else match s.mic.pushWhileFree (filterBlock s.cfg s.fs d.acc) with
    | some r =>
      .next (({ s with fs := filterState s.cfg s.fs d.acc }.setMic r).setProgress x
        (.drain ⟨.check, d.k, d.acc, d.blocks + 1⟩))
    | none => .fault .noSuchElement

/-- The next atomic step of a drain (R161). -/
def drainStep (x : Context) (d : Drain) (s : State) : Result :=
  match d.phase with
  | .check => drainCheck x d s
  | .collect => drainCollect x d s
  | .emit => drainEmit x d s

/-- DEC_DRAIN (R161), its first atomic step: the first Check. -/
def execDecDrain (s : State) : Result :=
  issue .decDrain s fun x => drainCheck x ⟨.check, 0, [], 0⟩ s

/-- A microphone feed block: the samples read, and zeros for the rest (R164). -/
def micBlock (c : Config) (samples : List Sample) : List Sample :=
  samples ++ List.replicate (c.micBlock - samples.length) c.zeroSample

/-- MIC_FETCH (R164): it never waits and never halts. -/
def execMicFetch (s : State) : Result :=
  issue .micFetch s fun x =>
    match s.mic.popMany (min s.mic.used s.cfg.micBlock) with
    | some (samples, r) =>
      finish x (blockResult (min s.mic.used s.cfg.micBlock) (micBlock s.cfg samples)) (s.setMic r)
    | none => .fault .noSuchElement

end Sys2Proof.Machine
end

