-- ==== Sys2Proof/Machine/PingPong.lean ====
section
/-! DEFINITION. The PP unit and the DMA engine (44_pingpong). -/

namespace Sys2Proof.Machine

/-- The scheduler right after PP_START (R190). -/
def playbackStart : Playback := ⟨.zero, .zero, .fill, 0, true, false, .zero⟩

/-- PP_START (R190): FLT_SEQUENCE when playback has started. -/
def execPpStart (s : State) : Result :=
  issue .ppStart s fun x =>
    match s.pp with
    | some _ => raiseFault .sequence s
    | none => finish x .blank (s.setPlayback playbackStart)

/-- The restart of playback with the other buffer (R192). -/
def completed (p : Playback) : Playback :=
  { p with dmaPending := false, dmaBuf := p.playing.other, dmaActive := true, playing := p.playing.other }

/-- PP_COMPLETE (R192): FLT_SEQUENCE before PP_START, FLT_SPURIOUS when no completion is pending. -/
def execPpComplete (s : State) : Result :=
  issue .ppComplete s fun x =>
    match s.pp with
    | none => raiseFault .sequence s
    | some p =>
      if !p.dmaPending then raiseFault .spurious s
      else finish x .blank (s.setPlayback (completed p))

/-- PP_POLL (R193): ready when the index has become the buffer last filled; ready on the first poll of a wait is
the overrun, which halts. -/
def execPpPoll (s : State) : Result :=
  issue .ppPoll s fun x =>
    match s.pp with
    | none => raiseFault .sequence s
    | some p =>
      if p.phase ≠ .wait then raiseFault .sequence s
      else if p.playing = p.expected then
        if p.idleCount = 0 then raiseFatal .pbOverrun s
        else finish x (okResult true) (s.setPlayback { p with phase := .fill, idleCount := 0 })
      else finish x (okResult false) (s.setPlayback { p with idleCount := p.idleCount + 1 })

/-- PP_FILL (R194): it writes the buffer that is not expected next, unless the DMA engine plays it. -/
def execPpFill (s : State) : Result :=
  issue .ppFill s fun x =>
    match s.pp with
    | none => raiseFault .sequence s
    | some p =>
      if p.phase ≠ .fill then raiseFault .sequence s
      else if p.dmaActive = true ∧ p.dmaBuf = p.expected.other then raiseFault .ownership s
      else finish x .blank
        ((s.setBuf p.expected.other (s.cmd.blkIn.map (sampleConvert s.cfg))).setPlayback
          { p with expected := p.expected.other, phase := .wait, idleCount := 0 })

/-- PP_PLAYING (R195). -/
def execPpPlaying (s : State) : Result :=
  issue .ppPlaying s fun x =>
    match s.pp with
    | none => raiseFault .sequence s
    | some p => finish x (resResult (bufNumber p.playing)) s

/-- The DMA engine's finish step (R191), enabled while a buffer is playing and no completion is pending; otherwise
the engine has no step (log 2). -/
def dmaStep (s : State) : Result :=
  match s.pp with
  | none => .next s
  | some p =>
    if p.dmaActive = true ∧ p.dmaPending = false then
      .next ({ s with played := s.played ++ [(p.dmaBuf, s.buf p.dmaBuf)] }.setPlayback
        { p with dmaActive := false, dmaPending := true })
    else .next s

end Sys2Proof.Machine
end

