-- ==== Sys2Proof/Machine/RingBuffer.lean ====
section
/-! DEFINITION. The RB unit (40_ringbuffer). -/

namespace Sys2Proof.Machine

/-- RB_WRITE (R103). A full ring is no exception: ok = 0 and the ring is unmodified (R112). -/
def execRbWrite (inst : InstNo) (s : State) : Result :=
  issue (.rbWrite inst) s fun x => withRing inst s fun r =>
    if r.free = 0 then finish x (okResult false) s
    else match r.push s.cmd.arg0 with
      | some r' => finish x (okResult true) (s.setRing inst.toNat r')
      | none => .fault .noSuchElement

/-- RB_READ (R104). An empty ring is no exception: ok = 0 and res holds no value (R112). -/
def execRbRead (inst : InstNo) (s : State) : Result :=
  issue (.rbRead inst) s fun x => withRing inst s fun r =>
    if r.used = 0 then finish x (okResult false) s
    else match r.pop with
      | some (e, r') => finish x (okResResult e) (s.setRing inst.toNat r')
      | none => .fault .noSuchElement

/-- RB_PEEK (R105). -/
def execRbPeek (inst : InstNo) (s : State) : Result :=
  issue (.rbPeek inst) s fun x => withRing inst s fun r =>
    if r.used = 0 then finish x (okResult false) s
    else match r.front with
      | some e => finish x (okResResult e) s
      | none => .fault .noSuchElement

/-- A count of any of the rings: RAW and MIC too may be asked (R106, R107, 30_encoding R86). -/
def ringCount (inst : InstNo) (s : State) (ofRaw : RingBuffer Byte → Nat) (ofMic : RingBuffer Sample → Nat)
    (ofRing : RingBuffer Nat → Nat) (k : Nat → Result) : Result :=
  match inst.toNat with
  | 0 => k (ofRaw s.raw)
  | 1 => k (ofMic s.mic)
  | _ => withRing inst s fun r => k (ofRing r)

/-- RB_USED (R106). -/
def execRbUsed (inst : InstNo) (s : State) : Result :=
  issue (.rbUsed inst) s fun x =>
    ringCount inst s RingBuffer.used RingBuffer.used RingBuffer.used fun n => finish x (resResult n) s

/-- RB_FREE (R107). -/
def execRbFree (inst : InstNo) (s : State) : Result :=
  issue (.rbFree inst) s fun x =>
    ringCount inst s RingBuffer.free RingBuffer.free RingBuffer.free fun n => finish x (resResult n) s

/-- RB_FLUSH (R108), its first atomic step: the index that the draw names goes to 0, and CTXST records the write
that remains. -/
def execRbFlush (inst : InstNo) (s : State) : Result :=
  issue (.rbFlush inst) s fun x => withRing inst s fun r =>
    .next ((s.afterFlushDraw.setRing inst.toNat (r.clearIndex (flushFirst s))).setProgress x
      (.flush inst (otherIndex (flushFirst s))))

/-- RB_FLUSH (R108), its second atomic step: the other index goes to 0, and the operation is finished. -/
def flushStep (x : Context) (inst : InstNo) (remaining : RingIndex) (s : State) : Result :=
  withRing inst s fun r =>
    finish x .blank ((s.setRing inst.toNat (r.clearIndex remaining)).setProgress x .idle)

end Sys2Proof.Machine
end

