-- ==== Sys2Proof/Machine/Sys.lean ====
section
/-! DEFINITION. The SYS unit (45_system). -/

namespace Sys2Proof.Machine

/-- SYS_IDLE (R220): no state is read or written; the result ports hold no value after it. -/
def execSysIdle (s : State) : Result :=
  issue .sysIdle s fun x => finish x .blank s

/-- SYS_STATUS (R221). -/
def execSysStatus (s : State) : Result :=
  issue .sysStatus s fun x => finish x (resResult (statusWord s).toNat) s

end Sys2Proof.Machine
end

