-- ==== Sys2Proof/Machine/Dispatch.lean ====
section
/-! DEFINITION. The meaning of each operation: one arm per constructor of `Instr`. -/

namespace Sys2Proof.Machine

def exec (i : Instr) (s : State) : Host.Outcome State Fault Refusal :=
  match i with
  | .rbWrite inst => Sys2Proof.Machine.execRbWrite inst s
  | .rbRead inst => Sys2Proof.Machine.execRbRead inst s
  | .rbPeek inst => Sys2Proof.Machine.execRbPeek inst s
  | .rbUsed inst => Sys2Proof.Machine.execRbUsed inst s
  | .rbFree inst => Sys2Proof.Machine.execRbFree inst s
  | .rbFlush inst => Sys2Proof.Machine.execRbFlush inst s
  | .clkTick => Sys2Proof.Machine.execClkTick s
  | .clkNow => Sys2Proof.Machine.execClkNow s
  | .clkDelayFrom => Sys2Proof.Machine.execClkDelayFrom s
  | .clkHasPassed => Sys2Proof.Machine.execClkHasPassed s
  | .dbInit inst => Sys2Proof.Machine.execDbInit inst s
  | .dbSample inst => Sys2Proof.Machine.execDbSample inst s
  | .dbState inst => Sys2Proof.Machine.execDbState inst s
  | .decPush => Sys2Proof.Machine.execDecPush s
  | .decDrain => Sys2Proof.Machine.execDecDrain s
  | .micFetch => Sys2Proof.Machine.execMicFetch s
  | .ppStart => Sys2Proof.Machine.execPpStart s
  | .ppComplete => Sys2Proof.Machine.execPpComplete s
  | .ppPoll => Sys2Proof.Machine.execPpPoll s
  | .ppFill => Sys2Proof.Machine.execPpFill s
  | .ppPlaying => Sys2Proof.Machine.execPpPlaying s
  | .sysIdle => Sys2Proof.Machine.execSysIdle s
  | .sysStatus => Sys2Proof.Machine.execSysStatus s

end Sys2Proof.Machine
end

