-- ==== Sys2Proof/Machine/Agents.lean ====
section
/-! DEFINITION. The agents and their steps (00_scope R6, R7): which one moves, what its step is, and how a command
word comes to be the next one performed. -/

namespace Sys2Proof.Machine

/-- The next agent's step: the first event the state lists, else the free value of the environment (00_scope R7;
DESIGN CHOICE, log 1, safe). -/
def nextEvent (s : State) : Event :=
  match s.events with
  | e :: _ => e
  | [] => Config.freeEvent s.draws

/-- The state once the next event is taken: a listed one leaves the list, a free one is counted. -/
def State.afterEvent (s : State) : State :=
  match s.events with
  | _ :: es => { s with events := es }
  | [] => { s with draws := s.draws + 1 }

/-- The context behind a sideband id has an operation in progress, so it issues no new one (10_state R26). A
reserved id has no CTXST and is never busy (log 21). -/
def busy (s : State) (id : ContextId) : Bool :=
  match contextOfId id with
  | some x => decide (s.progress.get x ≠ .idle)
  | none => false

/-- The first atomic step of the command on the interface: FLT_ILLEGAL_COMMAND for a word that is no operation
(30_encoding R88, R93), else the operation's meaning, which makes the other checks of R88. -/
def runCommand (s : State) : Result :=
  match decode s.cmd.word with
  | .ok i => exec i s
  | .error _ => raiseFault .illegalCommand s

/-- The next atomic step of the operation a context has in progress (10_state R26); a context that is idle has no
step (log 2). -/
def resumeStep (x : Context) (s : State) : Result :=
  match s.progress.get x with
  | .idle => .next s
  | .flush inst remaining => flushStep x inst remaining s
  | .drain d => drainStep x d s

/-- One agent's step. An event that names an agent without such a step changes nothing (log 2). -/
def takeEvent (e : Event) (s : State) : Result :=
  match e with
  | .command cmd => if busy s cmd.ctx then .next s else runCommand { s with cmd := cmd }
  | .resume x => resumeStep x s
  | .dma => dmaStep s

/-- A context that 60_exceptions R248 permits the word's operation to; TASK where there is none. -/
def fetchContext (c : Config) (w : CommandWord) : Context :=
  match decode w with
  | .error _ => .task
  | .ok i => ([.task, .tickIsr, .bitstreamIsr, .dmaIsr].find? fun x => permitted c x i).getD .task

/-- The word as a command of a permitted context, its operand ports 0 and its block CH*B zero samples. -/
def fetchCommand (c : Config) (w : CommandWord) : Command :=
  ⟨contextId (fetchContext c w), w, 0, 0, List.replicate c.blockLen c.zeroSample⟩

/-- The command becomes the next event, from a context that is idle. -/
def State.withCommand (s : State) (x : Context) (cmd : Command) : State :=
  { s.setProgress x .idle with events := .command cmd :: s.events }

end Sys2Proof.Machine
end

