-- ==== Sys2Proof/Machine/Step.lean ====
section
/-! DEFINITION. One step of the machine: one atomic step of one agent (00_scope R7, R11, 20_memory R69). -/

namespace Sys2Proof.Machine

/-- A halted or faulted core has no step (30_encoding R88, 60_exceptions R237, R240); otherwise the next event's
agent takes its step. -/
def step (s : State) : Host.Outcome State Fault Refusal :=
  if s.halted then .fault .halted
  else if s.fault.isSome then .fault .faulted
  else takeEvent (nextEvent s) s.afterEvent

/-- `s` with the command word of an instruction of the opcode table issued next, by a context that may issue it
(log 20). -/
def State.withFetchWord (s : State) (nbits w : Nat) : State :=
  s.withCommand (fetchContext s.cfg (tableWord nbits w)) (fetchCommand s.cfg (tableWord nbits w))

end Sys2Proof.Machine
end

