-- ==== Sys2Proof/Safety.lean ====
section
/-! DEFINITION. The terms claims are stated in: when an operation may be issued, what a well-formed state is (the
invariants the rules name), and runs along listed events. -/

namespace Sys2Proof.Machine

/-- Neither halted nor faulted: agents have steps (60_exceptions R237, R240). -/
structure Running (s : State) : Prop where
  notHalted : s.halted = false
  noFault : s.fault = none

/-- The operation passes every check of 30_encoding R88 when context `x` issues it: it executes normally. -/
structure Issuable (i : Instr) (x : Context) (s : State) : Prop extends Running s where
  legal : i.WellFormed s.cfg
  context : contextOfId s.cmd.ctx = some x
  allowed : permitted s.cfg x i = true
  operands : operandsFit s.cfg s.cmd i = true

/-- The configuration meets every constraint of 00_scope R8 (70_reset_and_hazards R272). -/
def ConfigOk (s : State) : Prop := brokenConstraints s.cfg = []

/-- Every element space has the size that the configuration gives it (20_memory R60): the one canonical form of the
model's memory (log 11). -/
abbrev Memory.wf (s : State) : Prop :=
  s.raw.store.length = s.cfg.ringN 0 ∧ s.mic.store.length = s.cfg.ringN 1 ∧
  s.rings.map (·.store.length) = (s.cfg.rb.drop 2).map (·.n) ∧
  s.buf0.length = s.cfg.blockLen ∧ s.buf1.length = s.cfg.blockLen

/-- A ring of size `n` whose indices are in range (10_state R23 to R25). -/
structure RingBuffer.WellFormed {α : Type} (r : RingBuffer α) (n : Nat) : Prop where
  size : r.size = n
  head : r.head < n
  tail : r.tail < n

/-- The elements a ring holds, oldest first: the slots tail, tail + 1, …, head - 1 (40_ringbuffer R110). -/
def RingBuffer.contents {α : Type} (r : RingBuffer α) : List α :=
  (List.range r.used).filterMap fun n => r.store[(r.tail + n) % r.size]?

/-- The head, the tail and the size N of ring `i`, whichever its element type (40_ringbuffer R100). -/
def State.indices? (s : State) (i : Nat) : Option (Nat × Nat × Nat) :=
  match i with
  | 0 => some (s.raw.head, s.raw.tail, s.raw.size)
  | 1 => some (s.mic.head, s.mic.tail, s.mic.size)
  | _ => (s.ring? i).map fun r => (r.head, r.tail, r.size)

/-- 10_state R23 to R25: every ring has its configured size, its indices are in range, and every element of a
general ring has RB_W[i] bits. -/
structure RingsInv (s : State) : Prop where
  raw : s.raw.WellFormed (s.cfg.ringN 0)
  mic : s.mic.WellFormed (s.cfg.ringN 1)
  count : s.rings.length = s.cfg.nrb - 2
  general : ∀ n (r : RingBuffer Nat), s.rings[n]? = some r → r.WellFormed (s.cfg.ringN (n + 2))
  widths : ∀ n (r : RingBuffer Nat), s.rings[n]? = some r → ∀ e ∈ r.store, e < 2 ^ s.cfg.ringW (n + 2)

/-- 10_state R27: the counter has CW bits. -/
def ClockInv (s : State) : Prop := s.cnt < s.cfg.clockModulus

/-- 42_debounce R144 and R146, for an initialised filter of integrator top `top`: the integrator is in [0, T], it
is below T unless the state is True, and it is above 0 unless the state is False or the filter is fresh from
DB_INIT with T = 1. -/
structure Debounce.WellFormed (d : Debounce) (top : Nat) : Prop where
  bound : d.integ ≤ top
  belowTop : d.dstate ≠ .true → d.integ < top
  aboveZero : d.dstate ≠ .false → 1 ≤ d.integ ∨ d.dstate = .undefined ∧ top = 1

/-- The new states of the edges of filter `j`, in order (10_state R42). -/
def edgeStates (s : State) (j : Nat) : List Bool :=
  (s.edges.filter fun e => e.inst.toNat == j).map (·.state)

/-- 42_debounce R144 and R146: every initialised filter is well formed, and its state is that of its last edge. -/
structure DebounceInv (s : State) : Prop where
  count : s.db.length = s.cfg.ndb
  filters : ∀ j (d : Debounce), s.db[j]? = some (some d) → d.WellFormed (s.cfg.intTop j)
  lastTrue : ∀ j (d : Debounce), s.db[j]? = some (some d) → d.dstate = .true → (edgeStates s j).getLast? = some true
  lastFalse : ∀ j (d : Debounce), s.db[j]? = some (some d) → d.dstate = .false → (edgeStates s j).getLast? = some false

/-- Playback number `n` plays this buffer (44_pingpong R197). -/
def bufferAt (n : Nat) : BufIx := if n % 2 = 0 then .zero else .one

/-- A native sample is in the range of `w` bits (10_state R33). -/
def nativeInRange (w : Nat) (v : Native) : Prop := -(2 ^ w / 2) ≤ v ∧ v < (2 ^ w + 1) / 2

/-- 10_state R33: both playback buffers hold CH*B samples of NATIVE_W bits. -/
structure BuffersInv (s : State) : Prop where
  length0 : s.buf0.length = s.cfg.blockLen
  length1 : s.buf1.length = s.cfg.blockLen
  range0 : ∀ v ∈ s.buf0, nativeInRange s.cfg.nativeW v
  range1 : ∀ v ∈ s.buf1, nativeInRange s.cfg.nativeW v

/-- 44_pingpong R199 and R197: the DMA engine's buffer is the playing one, exactly one of DMA.active and DMA.pending
is 1, and the buffers played so far are 0, 1, 0, 1, …, the one playing or just finished among them. -/
structure PlaybackInv (s : State) : Prop where
  order : s.played.map Prod.fst = (List.range s.played.length).map bufferAt
  notStarted : s.pp = none → s.played = []
  buffer : ∀ p, s.pp = some p → p.dmaBuf = p.playing
  one : ∀ p, s.pp = some p → p.dmaPending = !p.dmaActive
  active : ∀ p, s.pp = some p → p.dmaActive = true → p.playing = bufferAt s.played.length
  pending : ∀ p, s.pp = some p → p.dmaPending = true →
    s.played ≠ [] ∧ p.playing = bufferAt (s.played.length - 1)

/-- The progress of a drain is one that 43_decimator R161 reaches: while bytes are collected, enough of them are left in
the raw ring, so that a Collect step never finds it empty. -/
structure Drain.WellFormed (d : Drain) (s : State) : Prop where
  collected : d.phase ≠ .check → d.acc.length = d.k
  range : d.k ≤ s.cfg.decIn
  collect : d.phase = .collect → d.k < s.cfg.decIn ∧ s.cfg.decIn ≤ d.k + s.raw.used
  emit : d.phase = .emit → d.k = s.cfg.decIn

/-- 10_state R26: only TASK drains, and a flush in progress names a ring it may name. -/
structure ProgressInv (s : State) : Prop where
  drains : ∀ x d, s.progress.get x = .drain d → x = .task ∧ d.WellFormed s
  flushes : ∀ x inst i, s.progress.get x = .flush inst i → legalDataRing s.cfg inst = true

/-- 10_state R21, R42 and 60_exceptions R232, R240: the halt code and OUT.diag name the one cause of the halt, if
there is one. -/
def HaltInv (s : State) : Prop :=
  (s.halted = false ∧ s.haltCode = .none ∧ s.diag = []) ∨
  (s.halted = true ∧ s.haltCode ≠ .none ∧ s.diag = [s.haltCode])

/-- The well-formed states: every invariant above. -/
structure CoreInv (s : State) : Prop where
  config : ConfigOk s
  rings : RingsInv s
  clock : ClockInv s
  debounce : DebounceInv s
  buffers : BuffersInv s
  playback : PlaybackInv s
  progress : ProgressInv s
  halt : HaltInv s

/-- The step of the agent that `e` names, with the check of a stopped core (30_encoding R88). -/
def stepOn (e : Event) (s : State) : Result :=
  if s.halted then .fault .halted
  else if s.fault.isSome then .fault .faulted
  else takeEvent e s

/-- The steps that the events name, one after another, with no other agent stepping between them. -/
def runEvents : List Event → State → Result
  | [], s => .next s
  | e :: es, s =>
    match stepOn e s with
    | .next t => runEvents es t
    | .fault r => .fault r
    | .refused r => .refused r

/-- The event that context `x` issues operation `i` with these operands. -/
def issueEvent (x : Context) (i : Instr) (arg0 arg1 : Nat) (blkIn : List Sample) : Event :=
  .command ⟨contextId x, encode i, arg0, arg1, blkIn⟩

/-- `n` playbacks finished and restarted: the DMA finish step and then PP_COMPLETE, each time (44_pingpong R198). -/
def completions : Nat → List Event
  | 0 => []
  | n + 1 => .dma :: issueEvent .dmaIsr .ppComplete 0 0 [] :: completions n

/-- The bytes pushed one after another by the bitstream interrupt (43_decimator R160). -/
def pushes (bytes : List Byte) : List Event :=
  bytes.map fun b => issueEvent .bitstreamIsr .decPush b.toNat 0 []

/-- DECIM_FILTER on `q` blocks of DEC_IN bytes each, in order (43_decimator R167): the last state and all samples. -/
def filterChunks (c : Config) : Nat → FilterState → List Byte → FilterState × List Sample
  | 0, fs, _ => (fs, [])
  | q + 1, fs, bytes =>
    let rest := filterChunks c q (filterState c fs (bytes.take c.decIn)) (bytes.drop c.decIn)
    (rest.1, filterBlock c fs (bytes.take c.decIn) ++ rest.2)

end Sys2Proof.Machine
end

