-- ==== Sys2Proof/Certificates/Slice0/Obligations.lean ====
section
/-! DEFINITION. The statements about the core, for the provers. Each docstring names the rules it formalises. -/

open Sys2Proof Sys2Proof.Machine

/-! ### Encoding -/

/-- Words written out from 30_encoding R83 to R86, one operation of each unit and one reject of each kind. -/
def Obligations.SpecWordsDecode : Prop :=
  decode 0x00020000#32 = .ok (.rbWrite 2) ∧
  decode 0x03000000#32 = .ok (.rbUsed 0) ∧
  decode 0x12000000#32 = .ok .clkDelayFrom ∧
  decode 0x21070000#32 = .ok (.dbSample 7) ∧
  decode 0x31000000#32 = .ok .decDrain ∧
  decode 0x43000000#32 = .ok .ppFill ∧
  decode 0x51000000#32 = .ok .sysStatus ∧
  decode 0x0002000F#32 = .error .reservedBits ∧
  decode 0x10010000#32 = .error .instNotZero ∧
  decode 0x45000000#32 = .error .reservedOp ∧
  decode 0x60000000#32 = .error .reservedUnit

/-- Decode and encode agree on every operation, with INST at every value (30_encoding R83 to R87). -/
def Obligations.DecodeOfEncodeIsInstr : Prop :=
  ∀ i : Instr, decode (encode i) = .ok i

/-- A word the decoder accepts is the encoding of what it gives: no bit of it is dropped (30_encoding R83 to R87). -/
def Obligations.DecodedWordIsItsEncoding : Prop :=
  ∀ (w : CommandWord) (i : Instr), decode w = .ok i → encode i = w

/-! ### A step, and the checks before an operation -/

/-- A word that is no operation, or names an instance it may not name, records FLT_ILLEGAL_COMMAND whoever issues it and
whatever the operands (30_encoding R88, R93). Which instances it may name is the table of R86: a general ring for the
four data operations, any ring for the two counts, a debounce filter for the DB operations; the operations of the other
units take no instance, and their words are accepted with INST 0 alone. -/
def Obligations.IllegalCommandRecordsFault : Prop :=
  (∀ (c : Config) (inst : InstNo),
    (∀ i ∈ [Instr.rbWrite inst, .rbRead inst, .rbPeek inst, .rbFlush inst],
      i.WellFormed c ↔ 2 ≤ inst.toNat ∧ inst.toNat < c.nrb) ∧
    (∀ i ∈ [Instr.rbUsed inst, .rbFree inst], i.WellFormed c ↔ inst.toNat < c.nrb) ∧
    (∀ i ∈ [Instr.dbInit inst, .dbSample inst, .dbState inst], i.WellFormed c ↔ inst.toNat < c.ndb) ∧
    (∀ i ∈ [Instr.clkTick, .clkNow, .clkDelayFrom, .clkHasPassed, .decPush, .decDrain, .micFetch,
      .ppStart, .ppComplete, .ppPoll, .ppFill, .ppPlaying, .sysIdle, .sysStatus], i.WellFormed c)) ∧
  (∀ (w : CommandWord) (i : Instr), decode w = .ok i →
    w.extractLsb' 28 4 ≠ 0 → w.extractLsb' 28 4 ≠ 2 → w.extractLsb' 16 8 = 0) ∧
  (∀ (s : State) (cmd : Command) (rest : List Event),
    Running s → s.events = .command cmd :: rest → busy s cmd.ctx = false →
    (∀ i, decode cmd.word = .ok i → ¬ i.WellFormed s.cfg) →
    step s = .next { s with
      events := rest, cmd := cmd, fault := some (.command .illegalCommand cmd.ctx cmd.word) }) ∧
  (∀ (s : State) (i : Instr), Running s → ¬ i.WellFormed s.cfg →
    exec i s = .next { s with fault := some (.command .illegalCommand s.cmd.ctx s.cmd.word) })

/-- A step takes the next event: a command of an idle context is performed as the operation its word decodes to; a
context in the middle of an operation issues none and takes that operation's next step; the DMA engine takes its own.
That an event naming a context that cannot take it is used up with no effect is the model's choice (logs 1 and 2). -/
def Obligations.StepPerformsDecodedInstr : Prop :=
  (∀ (s : State) (cmd : Command) (rest : List Event) (i : Instr),
    Running s → s.events = .command cmd :: rest → busy s cmd.ctx = false → decode cmd.word = .ok i →
    step s = exec i { s with events := rest, cmd := cmd }) ∧
  (∀ (s : State) (cmd : Command) (rest : List Event),
    Running s → s.events = .command cmd :: rest → busy s cmd.ctx = true →
    step s = .next { s with events := rest }) ∧
  (∀ (s : State) (x : Context) (rest : List Event),
    Running s → s.events = .resume x :: rest → step s = resumeStep x { s with events := rest }) ∧
  (∀ (s : State) (rest : List Event),
    Running s → s.events = .dma :: rest → step s = dmaStep { s with events := rest })

/-- After a fatal halt or a model fault no agent has a step and no operation is performed (30_encoding R88, 60_exceptions
R237, R240); the names of the two outcomes are the model's (log 15). -/
def Obligations.StoppedCoreHasNoStep : Prop :=
  (∀ s : State, s.halted = true → step s = .fault .halted ∧ ∀ i, exec i s = .fault .halted) ∧
  (∀ s : State, s.halted = false → s.fault ≠ none →
    step s = .fault .faulted ∧ ∀ i, exec i s = .fault .faulted)

/-- The permission table of 60_exceptions R248, and the FLT_CONTEXT of any other context, a reserved id among them
(30_encoding R81). -/
def Obligations.UnpermittedContextFaults : Prop :=
  (∀ (c : Config) (x : Context) (inst : InstNo),
    (permitted c x (.rbWrite inst) = true ↔ c.ringProd inst.toNat = some x) ∧
    (permitted c x (.rbRead inst) = true ↔ c.ringCons inst.toNat = some x) ∧
    (permitted c x (.rbPeek inst) = true ↔ c.ringCons inst.toNat = some x) ∧
    (permitted c x (.rbUsed inst) = true ↔ c.ringProd inst.toNat = some x ∨ c.ringCons inst.toNat = some x) ∧
    (permitted c x (.rbFree inst) = true ↔ c.ringProd inst.toNat = some x ∨ c.ringCons inst.toNat = some x) ∧
    (permitted c x (.rbFlush inst) = true ↔ c.ringProd inst.toNat = some x ∨ c.ringCons inst.toNat = some x) ∧
    (permitted c x .clkTick = true ↔ x = .tickIsr) ∧
    (permitted c x .decPush = true ↔ x = .bitstreamIsr) ∧
    (permitted c x .ppComplete = true ↔ x = .dmaIsr) ∧
    (∀ i ∈ [Instr.decDrain, .micFetch, .ppStart, .ppPoll, .ppFill, .sysIdle],
      permitted c x i = true ↔ x = .task) ∧
    (∀ i ∈ [Instr.clkNow, .clkDelayFrom, .clkHasPassed, .dbInit inst, .dbSample inst, .dbState inst, .ppPlaying,
      .sysStatus], permitted c x i = true)) ∧
  (∀ (s : State) (i : Instr), Running s → i.WellFormed s.cfg →
    (∀ x, contextOfId s.cmd.ctx = some x → permitted s.cfg x i = false) →
    exec i s = .next { s with fault := some (.command .context s.cmd.ctx s.cmd.word) })

/-- The operand widths of 30_encoding R89, that an operation without operands takes every command, and FLT_OPERAND for an
operand that does not fit or a block of the wrong length. -/
def Obligations.OperandOutOfRangeFaults : Prop :=
  (∀ (c : Config) (cmd : Command) (inst : InstNo),
    (operandsFit c cmd (.rbWrite inst) = true ↔ cmd.arg0 < 2 ^ c.ringW inst.toNat) ∧
    (operandsFit c cmd .clkDelayFrom = true ↔ cmd.arg0 < 2 ^ c.cw ∧ cmd.arg1 < 2 ^ c.usW) ∧
    (operandsFit c cmd .clkHasPassed = true ↔ cmd.arg0 < 2 ^ c.cw) ∧
    (operandsFit c cmd (.dbSample inst) = true ↔ cmd.arg0 = 0 ∨ cmd.arg0 = 1) ∧
    (operandsFit c cmd .decPush = true ↔ cmd.arg0 < 256) ∧
    (operandsFit c cmd .ppFill = true ↔ cmd.blkIn.length = c.ch * c.b) ∧
    (∀ i ∈ [Instr.rbRead inst, .rbPeek inst, .rbUsed inst, .rbFree inst, .rbFlush inst, .clkTick, .clkNow,
      .dbInit inst, .dbState inst, .decDrain, .micFetch, .ppStart, .ppComplete, .ppPoll, .ppPlaying, .sysIdle,
      .sysStatus], operandsFit c cmd i = true)) ∧
  (∀ (s : State) (i : Instr) (x : Context), Running s → i.WellFormed s.cfg → contextOfId s.cmd.ctx = some x →
    permitted s.cfg x i = true → operandsFit s.cfg s.cmd i = false →
    exec i s = .next { s with fault := some (.command .operand s.cmd.ctx s.cmd.word) })

/-! ### RingBuffer -/

/-- RB_WRITE (40_ringbuffer R103): full exactly when N - 1 elements are stored; else the element goes to the slot at head
and head advances modulo N. -/
def Obligations.RbWriteStoresUnlessFull : Prop :=
  ∀ (s : State) (x : Context) (inst : InstNo) (r : RingBuffer Nat),
    Issuable (.rbWrite inst) x s → s.ring? inst.toNat = some r → r.head < r.size → r.tail < r.size →
    exec (.rbWrite inst) s = .next (
      if (r.head + r.size - r.tail) % r.size = r.size - 1 then s.setResults x (okResult false)
      else (s.setRing inst.toNat ⟨r.store.set r.head s.cmd.arg0, (r.head + 1) % r.size, r.tail⟩).setResults x
        (okResult true))

/-- RB_READ (40_ringbuffer R104): the element at tail, and tail advances modulo N; ok = 0 and no res when empty. -/
def Obligations.RbReadTakesOldest : Prop :=
  ∀ (s : State) (x : Context) (inst : InstNo) (r : RingBuffer Nat) (e : Nat),
    Issuable (.rbRead inst) x s → s.ring? inst.toNat = some r → r.store[r.tail]? = some e →
    exec (.rbRead inst) s = .next (
      if (r.head + r.size - r.tail) % r.size = 0 then s.setResults x (okResult false)
      else (s.setRing inst.toNat ⟨r.store, r.head, (r.tail + 1) % r.size⟩).setResults x (okResResult e))

/-- RB_PEEK (40_ringbuffer R105): the element at tail, and nothing but the result ports changes. -/
def Obligations.RbPeekShowsOldest : Prop :=
  ∀ (s : State) (x : Context) (inst : InstNo) (r : RingBuffer Nat) (e : Nat),
    Issuable (.rbPeek inst) x s → s.ring? inst.toNat = some r → r.store[r.tail]? = some e →
    exec (.rbPeek inst) s = .next (s.setResults x
      (if (r.head + r.size - r.tail) % r.size = 0 then okResult false else okResResult e))

/-- RB_USED and RB_FREE (40_ringbuffer R106, R107), on RAW, on MIC and on a general ring. -/
def Obligations.RbCountsAreSnapshots : Prop :=
  ∀ (s : State) (x : Context) (inst : InstNo) (h t n : Nat), s.indices? inst.toNat = some (h, t, n) →
    (Issuable (.rbUsed inst) x s →
      exec (.rbUsed inst) s = .next (s.setResults x (resResult ((h + n - t) % n)))) ∧
    (Issuable (.rbFree inst) x s →
      exec (.rbFree inst) s = .next (s.setResults x (resResult (n - (h + n - t) % n - 1))))

/-- RB_FLUSH (40_ringbuffer R108), the first of its two steps: one index goes to 0, which of them the draw says, and
CTXST records the write that remains; that a listed draw is used before a free one is the model's choice (log 10). -/
def Obligations.RbFlushClearsDrawnIndexFirst : Prop :=
  ∀ (s : State) (x : Context) (inst : InstNo) (r : RingBuffer Nat),
    Issuable (.rbFlush inst) x s → s.ring? inst.toNat = some r →
    ∃ first t, exec (.rbFlush inst) s = .next t ∧ (∀ y ys, s.flushDraws = y :: ys → first = y) ∧
      (first = .head → t.ring? inst.toNat = some ⟨r.store, 0, r.tail⟩ ∧ t.progress.get x = .flush inst .tail) ∧
      (first = .tail → t.ring? inst.toNat = some ⟨r.store, r.head, 0⟩ ∧ t.progress.get x = .flush inst .head)

/-- RB_FLUSH (40_ringbuffer R108), the second step: the other index goes to 0, whatever the other context did in
between, and the operation is finished. -/
def Obligations.FlushSecondStepClearsOtherIndex : Prop :=
  ∀ (s : State) (x : Context) (inst : InstNo) (r : RingBuffer Nat) (i : RingIndex),
    Running s → s.progress.get x = .flush inst i → s.ring? inst.toNat = some r →
    stepOn (.resume x) s = .next (((s.setRing inst.toNat
      (match i with
        | .head => ⟨r.store, 0, r.tail⟩
        | .tail => ⟨r.store, r.head, 0⟩)).setProgress x .idle).setResults x .blank)

/-- With no step of another context between its two steps, a flush empties the ring (40_ringbuffer R108, 70_reset R282). -/
def Obligations.UndisturbedFlushEmpties : Prop :=
  ∀ (s : State) (x : Context) (inst : InstNo) (r : RingBuffer Nat),
    Running s → s.progress.get x = .idle → (Instr.rbFlush inst).WellFormed s.cfg →
    permitted s.cfg x (.rbFlush inst) = true → s.ring? inst.toNat = some r →
    ∃ t, runEvents [issueEvent x (.rbFlush inst) 0 0 [], .resume x] s = .next t ∧
      t.ring? inst.toNat = some ⟨r.store, 0, 0⟩ ∧
      (⟨r.store, 0, 0⟩ : RingBuffer Nat).used = 0 ∧ (⟨r.store, 0, 0⟩ : RingBuffer Nat).free = r.size - 1 ∧
      t.progress.get x = .idle ∧ t.results.get x = .blank

/-- 40_ringbuffer R109: the counts of every ring add up to N - 1, a write fails exactly when used = N - 1, a read or a
peek exactly when used = 0. -/
def Obligations.RingCountsAddUp : Prop :=
  ∀ s : State, RingsInv s →
    (s.raw.used ≤ s.raw.size - 1 ∧ s.raw.free ≤ s.raw.size - 1 ∧ s.raw.used + s.raw.free = s.raw.size - 1) ∧
    (s.mic.used ≤ s.mic.size - 1 ∧ s.mic.free ≤ s.mic.size - 1 ∧ s.mic.used + s.mic.free = s.mic.size - 1) ∧
    ∀ (x : Context) (inst : InstNo) (r : RingBuffer Nat), s.ring? inst.toNat = some r →
      (r.used ≤ r.size - 1 ∧ r.free ≤ r.size - 1 ∧ r.used + r.free = r.size - 1) ∧
      (Issuable (.rbWrite inst) x s → ∃ t, exec (.rbWrite inst) s = .next t ∧
        ((t.results.get x).ok = some false ↔ r.used = r.size - 1)) ∧
      (Issuable (.rbRead inst) x s → ∃ t, exec (.rbRead inst) s = .next t ∧
        ((t.results.get x).ok = some false ↔ r.used = 0)) ∧
      (Issuable (.rbPeek inst) x s → ∃ t, exec (.rbPeek inst) s = .next t ∧
        ((t.results.get x).ok = some false ↔ r.used = 0))

/-- 40_ringbuffer R110, for one operation: a write that is accepted appends its element behind all others, a read
returns the oldest element and leaves the others in order, a peek returns the element the next read will. -/
def Obligations.RingIsFirstInFirstOut : Prop :=
  ∀ (s : State) (x : Context) (inst : InstNo) (r : RingBuffer Nat), RingsInv s → s.ring? inst.toNat = some r →
    (Issuable (.rbWrite inst) x s → r.free ≠ 0 →
      ∃ t r', exec (.rbWrite inst) s = .next t ∧ t.ring? inst.toNat = some r' ∧
        (t.results.get x).ok = some true ∧ r'.contents = r.contents ++ [s.cmd.arg0]) ∧
    (∀ e es, r.contents = e :: es →
      (Issuable (.rbRead inst) x s →
        ∃ t r', exec (.rbRead inst) s = .next t ∧ t.ring? inst.toNat = some r' ∧
          (t.results.get x).res = some e ∧ r'.contents = es) ∧
      (Issuable (.rbPeek inst) x s →
        ∃ t, exec (.rbPeek inst) s = .next t ∧ t.ring? inst.toNat = some r ∧ (t.results.get x).res = some e))

/-! ### MonotonicClock -/

/-- CLK_TICK (41_clock R120): the counter advances modulo 2^CW. -/
def Obligations.ClkTickAdvancesCounter : Prop :=
  ∀ (s : State) (x : Context), Issuable .clkTick x s →
    exec .clkTick s = .next ({ s with cnt := (s.cnt + 1) % 2 ^ s.cfg.cw }.setResults x .blank)

/-- CLK_NOW (41_clock R121) returns the counter. CLK_DELAY_FROM (R122) returns (base + q + 1) mod 2^CW, q the least
number of ticks that lasts the microseconds, and does not read the counter. -/
def Obligations.ClkNowAndDelayFromCompute : Prop :=
  (∀ (s : State) (x : Context), Issuable .clkNow x s →
    exec .clkNow s = .next (s.setResults x (resResult s.cnt))) ∧
  (∀ (s : State) (x : Context) (q : Nat), Issuable .clkDelayFrom x s →
    s.cmd.arg1 ≤ q * s.cfg.tickUs → (∀ q', s.cmd.arg1 ≤ q' * s.cfg.tickUs → q ≤ q') →
    1 ≤ s.cfg.tickUs →
    exec .clkDelayFrom s = .next (s.setResults x (resResult ((s.cmd.arg0 + (q + 1)) % 2 ^ s.cfg.cw))))

/-- CLK_HAS_PASSED (41_clock R123): passed exactly while (cnt - d) mod 2^CW is below the threshold. -/
def Obligations.ClkHasPassedTestsDifference : Prop :=
  ∀ (s : State) (x : Context), Issuable .clkHasPassed x s →
    exec .clkHasPassed s = .next (s.setResults x
      (okResult (decide (((s.cnt : Int) - s.cmd.arg0) % 2 ^ s.cfg.cw < s.cfg.passThreshold))))

/-- The horizon (41_clock R124): a deadline k ticks ahead is judged right at every tick before it exactly when
k ≤ M - H, reads passed for H ticks from its own on, and is forgotten after them. -/
def Obligations.DeadlineHorizon : Prop :=
  ∀ (c : Config) (t0 k : Nat), brokenConstraints c = [] → 1 ≤ k →
    (∀ m, hasPassed c ((t0 + m) % c.clockModulus) ((t0 + k) % c.clockModulus) = true ↔
      ((m : Int) - k) % c.clockModulus < c.passThreshold) ∧
    ((∀ m, m < k → hasPassed c ((t0 + m) % c.clockModulus) ((t0 + k) % c.clockModulus) = false) ↔
      k ≤ c.clockModulus - c.passThreshold) ∧
    (∀ m, k ≤ m → m < k + c.passThreshold →
      hasPassed c ((t0 + m) % c.clockModulus) ((t0 + k) % c.clockModulus) = true) ∧
    (∀ m, k + c.passThreshold ≤ m → m < k + c.clockModulus →
      hasPassed c ((t0 + m) % c.clockModulus) ((t0 + k) % c.clockModulus) = false)

/-- The delay law (41_clock R125) on the machine: a deadline that CLK_DELAY_FROM gives from the counter's own value reads
not passed at once and after each of the first k - 1 ticks, and passed after the k-th. -/
def Obligations.DelayPassesAfterItsTicks : Prop :=
  ∀ (s : State) (us m : Nat), ConfigOk s → Running s → ClockInv s →
    s.progress.get .task = .idle → s.progress.get .tickIsr = .idle → us < 2 ^ s.cfg.usW →
    delayTicks s.cfg us ≤ s.cfg.clockModulus - s.cfg.passThreshold → m ≤ delayTicks s.cfg us →
    ∃ u t, stepOn (issueEvent .task .clkDelayFrom s.cnt us []) s = .next u ∧
      (u.results.get .task).res = some ((s.cnt + delayTicks s.cfg us) % s.cfg.clockModulus) ∧
      runEvents (List.replicate m (issueEvent .tickIsr .clkTick 0 0 []) ++
        [issueEvent .task .clkHasPassed ((s.cnt + delayTicks s.cfg us) % s.cfg.clockModulus) 0 []]) u = .next t ∧
      (t.results.get .task).ok = some (decide (m = delayTicks s.cfg us))

/-! ### DebounceFilter -/

/-- DB_INIT (42_debounce R140): integrator floor(T/2), state Undefined, no edge, whatever the filter held before. -/
def Obligations.DbInitHalvesTop : Prop :=
  ∀ (s : State) (x : Context) (inst : InstNo), Issuable (.dbInit inst) x s → inst.toNat < s.db.length →
    exec (.dbInit inst) s = .next ({ s with
      db := s.db.set inst.toNat (some ⟨s.cfg.intTop inst.toNat / 2, .undefined⟩) }.setResults x .blank)

/-- DB_SAMPLE (42_debounce R141) on an initialised filter: the integrator saturates at T and at 0; the edge is the new
value against the old state, on the ports and in OUT.edges. Before DB_INIT it faults FLT_SEQUENCE. -/
def Obligations.DbSampleIntegratesAndReportsEdge : Prop :=
  (∀ (s : State) (x : Context) (inst : InstNo), Issuable (.dbSample inst) x s → s.db[inst.toNat]? = some none →
    exec (.dbSample inst) s = .next { s with fault := some (.command .sequence s.cmd.ctx s.cmd.word) }) ∧
  ∀ (s : State) (x : Context) (inst : InstNo) (d : Debounce) (v : Nat),
    Issuable (.dbSample inst) x s → s.db[inst.toNat]? = some (some d) →
    v = (if s.cmd.arg0 = 1 then min (d.integ + 1) (s.cfg.intTop inst.toNat) else d.integ - 1) →
    exec (.dbSample inst) s = .next (
      if v = s.cfg.intTop inst.toNat ∧ d.dstate ≠ .true then
        { s with
          db := s.db.set inst.toNat (some ⟨v, .true⟩)
          edges := s.edges ++ [⟨inst, true, s.cfg.dbId inst.toNat, x⟩]
          results := s.results.set x
            ⟨none, none, none, some true, some true, some (s.cfg.dbId inst.toNat)⟩ }
      else if v = 0 ∧ d.dstate ≠ .false then
        { s with
          db := s.db.set inst.toNat (some ⟨v, .false⟩)
          edges := s.edges ++ [⟨inst, false, s.cfg.dbId inst.toNat, x⟩]
          results := s.results.set x
            ⟨none, none, none, some true, some false, some (s.cfg.dbId inst.toNat)⟩ }
      else
        { s with
          db := s.db.set inst.toNat (some ⟨v, d.dstate⟩)
          results := s.results.set x ⟨none, none, none, some false, none, none⟩ })

/-- DB_STATE (42_debounce R142): Undefined 0, False 1, True 2; before DB_INIT it faults FLT_SEQUENCE. -/
def Obligations.DbStateReportsOnlyInitialised : Prop :=
  (∀ (s : State) (x : Context) (inst : InstNo) (d : Debounce),
    Issuable (.dbState inst) x s → s.db[inst.toNat]? = some (some d) →
    exec (.dbState inst) s = .next (s.setResults x (resResult
      (match d.dstate with
        | .undefined => 0
        | .false => 1
        | .true => 2)))) ∧
  (∀ (s : State) (x : Context) (inst : InstNo), Issuable (.dbState inst) x s → s.db[inst.toNat]? = some none →
    exec (.dbState inst) s = .next { s with fault := some (.command .sequence s.cmd.ctx s.cmd.word) })

/-- 42_debounce R144: from a state other than True with integrator v, n true samples in a row fire exactly one True
edge, on sample T - v, and none when n is smaller. -/
def Obligations.TrueSamplesFireOneEdge : Prop :=
  ∀ (s : State) (x : Context) (inst : InstNo) (d : Debounce) (n : Nat), ConfigOk s → Running s →
    s.progress.get x = .idle → s.db[inst.toNat]? = some (some d) → inst.toNat < s.cfg.ndb →
    d.dstate ≠ .true → d.WellFormed (s.cfg.intTop inst.toNat) →
    ∃ t, runEvents (List.replicate n (issueEvent x (.dbSample inst) 1 0 [])) s = .next t ∧
      t.edges = s.edges ++ (if n < s.cfg.intTop inst.toNat - d.integ then []
        else [⟨inst, true, s.cfg.dbId inst.toNat, x⟩])

/-- 42_debounce R144, the other direction: from a state other than False, n false samples fire exactly one False edge, on
sample max(v, 1), and none when n is smaller. -/
def Obligations.FalseSamplesFireOneEdge : Prop :=
  ∀ (s : State) (x : Context) (inst : InstNo) (d : Debounce) (n : Nat), ConfigOk s → Running s →
    s.progress.get x = .idle → s.db[inst.toNat]? = some (some d) → inst.toNat < s.cfg.ndb →
    d.dstate ≠ .false → d.WellFormed (s.cfg.intTop inst.toNat) →
    ∃ t, runEvents (List.replicate n (issueEvent x (.dbSample inst) 0 0 [])) s = .next t ∧
      t.edges = s.edges ++ (if n < max d.integ 1 then []
        else [⟨inst, false, s.cfg.dbId inst.toNat, x⟩])

/-! ### BitstreamDecimator -/

/-- DEC_PUSH (43_decimator R160): the byte goes to the slot at head of RAW and head advances; a full raw ring is the
fatal halt, with no byte stored. -/
def Obligations.DecPushStoresOrHalts : Prop :=
  ∀ (s : State) (x : Context), Issuable .decPush x s → s.raw.head < s.raw.size → s.raw.tail < s.raw.size →
    exec .decPush s = .next (
      if (s.raw.head + s.raw.size - s.raw.tail) % s.raw.size = s.raw.size - 1 then
        { s with halted := true, haltCode := .decOverflow, diag := s.diag ++ [.decOverflow] }
      else { s with
        raw := ⟨s.raw.store.set s.raw.head (BitVec.ofNat 8 s.cmd.arg0), (s.raw.head + 1) % s.raw.size, s.raw.tail⟩
        results := s.results.set x .blank })

/-- DEC_DRAIN (43_decimator R161), a Check step, the first one or a later one: with fewer than DEC_IN bytes the
operation is finished and returns its block count, else collecting begins at k = 0, with no byte collected (the model's
reading, log 18). -/
def Obligations.DrainCheckFinishesOrCollects : Prop :=
  (∀ (s : State) (x : Context), Issuable .decDrain x s →
    exec .decDrain s = .next (
      if s.raw.used < s.cfg.decIn then (s.setProgress x .idle).setResults x (resResult 0)
      else s.setProgress x (.drain ⟨.collect, 0, [], 0⟩))) ∧
  (∀ (s : State) (x : Context) (d : Drain), Running s → s.progress.get x = .drain d → d.phase = .check →
    stepOn (.resume x) s = .next (
      if s.raw.used < s.cfg.decIn then (s.setProgress x .idle).setResults x (resResult d.blocks)
      else s.setProgress x (.drain ⟨.collect, 0, [], d.blocks⟩)))

/-- A Collect step (43_decimator R161): one byte leaves RAW and joins the bytes collected; after the DEC_IN-th comes the
Emit step. -/
def Obligations.DrainCollectTakesOneByte : Prop :=
  ∀ (s : State) (x : Context) (d : Drain) (e : Byte), Running s → s.progress.get x = .drain d →
    d.phase = .collect → d.k < s.cfg.decIn → s.raw.store[s.raw.tail]? = some e →
    stepOn (.resume x) s = .next { s with
      raw := ⟨s.raw.store, s.raw.head, (s.raw.tail + 1) % s.raw.size⟩
      progress := s.progress.set x (.drain
        ⟨if d.k + 1 = s.cfg.decIn then .emit else .collect, d.k + 1, d.acc ++ [e], d.blocks⟩) }

/-- An Emit step (43_decimator R161, R163): the filtered block joins MIC behind its contents, as much of it as there is
room for under policy Drop, and the filter's state moves on; under policy Fatal a block that does not fit halts the
core, with MIC and the filter's state unchanged. No slot of MIC changes but those the block's samples are stored to. That k
and acc stand until the next Check is the model's choice (log 18). -/
def Obligations.DrainEmitForwardsOrHalts : Prop :=
  ∀ (s : State) (x : Context) (d : Drain), Running s → s.progress.get x = .drain d → d.phase = .emit →
    s.mic.WellFormed s.mic.size →
    (s.cfg.micFullPolicy = .fatal ∧ s.mic.free < s.cfg.decOut →
      stepOn (.resume x) s = .next { s with
        halted := true, haltCode := .micOverflow, diag := s.diag ++ [.micOverflow] }) ∧
    (¬ (s.cfg.micFullPolicy = .fatal ∧ s.mic.free < s.cfg.decOut) →
      ∃ mic : RingBuffer Sample, mic.WellFormed s.mic.size ∧ mic.tail = s.mic.tail ∧
        mic.contents = s.mic.contents ++ (filterBlock s.cfg s.fs d.acc).take s.mic.free ∧
        (∀ k, (∀ n, n < min s.cfg.decOut s.mic.free → k ≠ (s.mic.head + n) % s.mic.size) →
          memRead mic.store k = memRead s.mic.store k) ∧
        stepOn (.resume x) s = .next { s with
          mic := mic
          fs := filterState s.cfg s.fs d.acc
          progress := s.progress.set x (.drain ⟨.check, d.k, d.acc, d.blocks + 1⟩) })

/-- MIC_FETCH (43_decimator R164): the m = min(used, MIC_BLOCK) oldest samples leave MIC, and the rest of the block is
zero samples. -/
def Obligations.MicFetchReadsOldestAndPads : Prop :=
  ∀ (s : State) (x : Context) (m : Nat), Issuable .micFetch x s → s.mic.WellFormed s.mic.size →
    m = min s.mic.used s.cfg.micBlock →
    exec .micFetch s = .next { s with
      mic := ⟨s.mic.store, s.mic.head, (s.mic.tail + m) % s.mic.size⟩
      results := s.results.set x ⟨none, some m,
        some (s.mic.contents.take m ++ List.replicate (s.cfg.micBlock - m) s.cfg.zeroSample), none, none, none⟩ }

/-- 43_decimator R167: k blocks' worth of bytes pushed into an empty raw ring and then drained, with no push during the
drain, are decimated as exactly k blocks of DEC_OUT samples, in push order; under policy Drop the MIC ring takes
min(k·DEC_OUT, free) of them. -/
def Obligations.BlocksInBlocksOut : Prop :=
  ∀ (s : State) (bytes : List Byte) (k : Nat), ConfigOk s → RingsInv s → Running s →
    s.progress.get .task = .idle → s.progress.get .bitstreamIsr = .idle →
    s.cfg.micFullPolicy = .drop → s.raw.used = 0 → bytes.length = k * s.cfg.decIn →
    bytes.length ≤ s.cfg.ringN 0 - 1 →
    ∃ t, runEvents (pushes bytes ++ issueEvent .task .decDrain 0 0 [] ::
        List.replicate (k * (s.cfg.decIn + 2)) (.resume .task)) s = .next t ∧
      (t.results.get .task).res = some k ∧ t.progress.get .task = .idle ∧ t.raw.used = 0 ∧
      t.fs = (filterChunks s.cfg k s.fs bytes).1 ∧
      (filterChunks s.cfg k s.fs bytes).2.length = k * s.cfg.decOut ∧
      t.mic.contents = s.mic.contents ++ (filterChunks s.cfg k s.fs bytes).2.take s.mic.free ∧
      t.mic.used = s.mic.used + min (k * s.cfg.decOut) s.mic.free

/-- 43_decimator R168: exactly as many pushes succeed as the raw ring has free slots; the next one is the one fatal
overflow, and nothing steps after it (R240; the name of that outcome is the model's, log 15). -/
def Obligations.OverflowHaltsExactlyOnce : Prop :=
  ∀ (s : State) (bytes : List Byte) (b : Byte), RingsInv s → Running s →
    s.progress.get .bitstreamIsr = .idle → bytes.length = s.raw.free →
    (∃ t, runEvents (pushes bytes) s = .next t ∧ Running t ∧ t.raw.free = 0 ∧ t.diag = s.diag) ∧
    (∃ t, runEvents (pushes (bytes ++ [b])) s = .next t ∧ t.halted = true ∧ t.haltCode = .decOverflow ∧
      t.diag = s.diag ++ [.decOverflow] ∧ ∀ e, stepOn e t = .fault .halted)

/-! ### PingPongPlaybackScheduler -/

/-- PP_START (44_pingpong R190): buffer 0 plays and the task owes buffer 1; a second one faults FLT_SEQUENCE. -/
def Obligations.PpStartStartsOnce : Prop :=
  ∀ (s : State) (x : Context), Issuable .ppStart x s →
    exec .ppStart s = .next (
      if s.ppStarted then { s with fault := some (.command .sequence s.cmd.ctx s.cmd.word) }
      else { s with
        pp := some
          { playing := .zero, expected := .zero, phase := .fill, idleCount := 0,
            dmaActive := true, dmaPending := false, dmaBuf := .zero }
        results := s.results.set x .blank })

/-- PP_COMPLETE (44_pingpong R192): with a completion pending, the other buffer starts playing and the index flips;
with none it faults FLT_SPURIOUS, and before PP_START FLT_SEQUENCE. -/
def Obligations.PpCompleteRestartsOtherBuffer : Prop :=
  (∀ (s : State) (x : Context), Issuable .ppComplete x s → s.pp = none →
    exec .ppComplete s = .next { s with fault := some (.command .sequence s.cmd.ctx s.cmd.word) }) ∧
  ∀ (s : State) (x : Context) (p : Playback), Issuable .ppComplete x s → s.pp = some p →
    exec .ppComplete s = .next (
      if p.dmaPending then { s with
        pp := some
          { playing := p.playing.other, expected := p.expected, phase := p.phase, idleCount := p.idleCount,
            dmaActive := true, dmaPending := false, dmaBuf := p.playing.other }
        results := s.results.set x .blank }
      else { s with fault := some (.command .spurious s.cmd.ctx s.cmd.word) })

/-- PP_POLL (44_pingpong R193) in phase Wait: ready once the playing index is the expected one, and the fatal overrun
when that is so on the first poll; in phase Fill and before PP_START it faults FLT_SEQUENCE. -/
def Obligations.PpPollWaitsOrHalts : Prop :=
  (∀ (s : State) (x : Context), Issuable .ppPoll x s → s.pp = none →
    exec .ppPoll s = .next { s with fault := some (.command .sequence s.cmd.ctx s.cmd.word) }) ∧
  ∀ (s : State) (x : Context) (p : Playback), Issuable .ppPoll x s → s.pp = some p →
    exec .ppPoll s = .next (
      if p.phase = .fill then { s with fault := some (.command .sequence s.cmd.ctx s.cmd.word) }
      else if p.playing = p.expected ∧ p.idleCount = 0 then
        { s with halted := true, haltCode := .pbOverrun, diag := s.diag ++ [.pbOverrun] }
      else if p.playing = p.expected then
        { s with pp := some { p with phase := .fill, idleCount := 0 },
                 results := s.results.set x (okResult true) }
      else { s with pp := some { p with idleCount := p.idleCount + 1 },
                    results := s.results.set x (okResult false) })

/-- PP_FILL (44_pingpong R194) in phase Fill: the converted block becomes buffer 1 - expected, which is expected next,
unless the DMA engine is playing that buffer (FLT_OWNERSHIP); in phase Wait and before PP_START it faults
FLT_SEQUENCE. -/
def Obligations.PpFillWritesFreedBuffer : Prop :=
  (∀ (s : State) (x : Context), Issuable .ppFill x s → s.pp = none →
    exec .ppFill s = .next { s with fault := some (.command .sequence s.cmd.ctx s.cmd.word) }) ∧
  ∀ (s : State) (x : Context) (p : Playback), Issuable .ppFill x s → s.pp = some p →
    exec .ppFill s = .next (
      if p.phase = .wait then { s with fault := some (.command .sequence s.cmd.ctx s.cmd.word) }
      else if p.dmaActive = true ∧ p.dmaBuf = p.expected.other then
        { s with fault := some (.command .ownership s.cmd.ctx s.cmd.word) }
      else { s with
        buf0 := if p.expected = .one then s.cmd.blkIn.map (sampleConvert s.cfg) else s.buf0
        buf1 := if p.expected = .zero then s.cmd.blkIn.map (sampleConvert s.cfg) else s.buf1
        pp := some { p with expected := p.expected.other, phase := .wait, idleCount := 0 }
        results := s.results.set x .blank })

/-- Before PP_START every other scheduler operation faults FLT_SEQUENCE (44_pingpong R190, R192 to R195), and the DMA
engine has no step: its event is used up with no effect (the model's choice, log 2). -/
def Obligations.SchedulerNeedsStart : Prop :=
  ∀ (s : State), s.pp = none →
    (∀ (x : Context) (i : Instr), i ∈ [Instr.ppComplete, .ppPoll, .ppFill, .ppPlaying] → Issuable i x s →
      exec i s = .next { s with fault := some (.command .sequence s.cmd.ctx s.cmd.word) }) ∧
    (Running s → stepOn .dma s = .next s)

/-- The DMA engine's finish step (44_pingpong R191): while a buffer plays and no completion is pending, OUT.played grows
by the buffer and its content, playing ends and the completion is pending; otherwise the engine has no step, and its
event is used up with no effect (the model's choice, log 2). -/
def Obligations.DmaFinishRecordsPlayback : Prop :=
  ∀ (s : State) (p : Playback), Running s → s.pp = some p →
    stepOn .dma s = .next (
      if p.dmaActive = true ∧ p.dmaPending = false then { s with
        played := s.played ++ [(p.dmaBuf, match p.dmaBuf with | .zero => s.buf0 | .one => s.buf1)]
        pp := some { p with dmaActive := false, dmaPending := true } }
      else s)

/-- What the overrun check detects (44_pingpong R198), for a turn with `a` completions before the fill and `b` after it,
each followed at once by the restart: an odd `a` faults FLT_OWNERSHIP, an even `a` with an odd sum halts at the first
poll, and an even sum goes undetected. -/
def Obligations.OverrunIsSeenOnlyWhenOdd : Prop :=
  ∀ (s : State) (e : BufIx) (idle a b : Nat) (blk : List Sample), Running s →
    s.progress.get .task = .idle → s.progress.get .dmaIsr = .idle → blk.length = s.cfg.blockLen →
    s.pp = some { playing := e, expected := e, phase := .fill, idleCount := idle,
                  dmaActive := true, dmaPending := false, dmaBuf := e } →
    (a % 2 = 1 → ∃ t, runEvents (completions a ++ [issueEvent .task .ppFill 0 0 blk]) s = .next t ∧
      t.fault = some (.command .ownership (contextId .task) (encode .ppFill))) ∧
    (a % 2 = 0 → (a + b) % 2 = 1 →
      ∃ t, runEvents (completions a ++ issueEvent .task .ppFill 0 0 blk :: completions b ++
          [issueEvent .task .ppPoll 0 0 []]) s = .next t ∧
        t.halted = true ∧ t.haltCode = .pbOverrun) ∧
    (a % 2 = 0 → (a + b) % 2 = 0 →
      ∃ t, runEvents (completions a ++ issueEvent .task .ppFill 0 0 blk :: completions b ++
          [issueEvent .task .ppPoll 0 0 []]) s = .next t ∧
        Running t ∧ (t.results.get .task).ok = some false)

/-! ### SYS -/

/-- PP_PLAYING (44_pingpong R195) returns the index, once there is one; SYS_IDLE (45_system R220) has no effect;
SYS_STATUS (R221) returns the status word, whose fields 10_state R44 lays out. -/
def Obligations.PlayingIdleAndStatus : Prop :=
  (∀ (s : State) (x : Context), Issuable .ppPlaying x s → s.pp = none →
    exec .ppPlaying s = .next { s with fault := some (.command .sequence s.cmd.ctx s.cmd.word) }) ∧
  (∀ (s : State) (x : Context) (p : Playback), Issuable .ppPlaying x s → s.pp = some p →
    exec .ppPlaying s = .next (s.setResults x (resResult (match p.playing with | .zero => 0 | .one => 1)))) ∧
  (∀ (s : State) (x : Context), Issuable .sysIdle x s → exec .sysIdle s = .next (s.setResults x .blank)) ∧
  (∀ (s : State) (x : Context), Issuable .sysStatus x s →
    exec .sysStatus s = .next (s.setResults x (resResult (statusWord s).toNat))) ∧
  (∀ s : State, (statusWord s).toNat =
    (if s.halted then 1 else 0) +
    (match s.haltCode with
      | .none => 0
      | .decOverflow => 2
      | .pbOverrun => 4
      | .micOverflow => 6) +
    match s.pp with
    | none => 0
    | some p =>
      16 + (if p.playing = .one then 32 else 0) + (if p.expected = .one then 64 else 0) +
      (if p.phase = .fill then 128 else 0) + (if p.dmaActive then 256 else 0) +
      (if p.dmaPending then 512 else 0) + (if p.dmaBuf = .one then 1024 else 0))

/-! ### Reset -/

/-- The reset values (10_state R48), for every configuration and every draw; and every content of the
rings and the playback buffers, all of them together, is some draw's. -/
def Obligations.ResetValues : Prop :=
  ∀ (c : Config), brokenConstraints c = [] →
    (∀ (d : Draws) (s : State), s = State.resetOf c d →
      s.cfg = c ∧ s.halted = false ∧ s.haltCode = .none ∧ s.fault = none ∧
      (∀ x, s.progress.get x = .idle) ∧
      s.raw.head = 0 ∧ s.raw.tail = 0 ∧ s.raw.size = c.ringN 0 ∧
      s.mic.head = 0 ∧ s.mic.tail = 0 ∧ s.mic.size = c.ringN 1 ∧
      (∀ i, 2 ≤ i → i < c.nrb → ∃ r, s.ring? i = some r ∧ r.head = 0 ∧ r.tail = 0 ∧ r.size = c.ringN i ∧
        ∀ e ∈ r.store, e < 2 ^ c.ringW i) ∧
      s.cnt = c.clkReset ∧ s.db.length = c.ndb ∧ (∀ d' ∈ s.db, d' = none) ∧ s.fs = c.fs0 ∧
      s.buf0.length = c.blockLen ∧ s.buf1.length = c.blockLen ∧
      s.ppStarted = false ∧ s.pp = none ∧ s.dmaActive = false ∧ s.dmaPending = false ∧
      s.played = [] ∧ s.edges = [] ∧ s.diag = []) ∧
    ∀ (raw : List Byte) (mic : List Sample) (rings : List (List Nat)) (buf0 buf1 : List Native),
      raw.length = c.ringN 0 → mic.length = c.ringN 1 →
      (∀ i store, 2 ≤ i → i < c.nrb → rings[i - 2]? = some store →
        store.length = c.ringN i ∧ ∀ e ∈ store, e < 2 ^ c.ringW i) →
      buf0.length = c.blockLen → (∀ v ∈ buf0, nativeInRange c.nativeW v) →
      buf1.length = c.blockLen → (∀ v ∈ buf1, nativeInRange c.nativeW v) →
      ∃ d, (State.resetOf c d).raw.store = raw ∧ (State.resetOf c d).mic.store = mic ∧
        (∀ i store, 2 ≤ i → i < c.nrb → rings[i - 2]? = some store →
          (State.resetOf c d).ring? i = some ⟨store, 0, 0⟩) ∧
        (State.resetOf c d).buf0 = buf0 ∧ (State.resetOf c d).buf1 = buf1

/-- The configuration check (70_reset_and_hazards R272, 00_scope R8): a configuration that breaks a constraint leaves
FLT_CONFIG, and no agent ever takes a step. That the record lists every broken constraint is the model's choice (log 19). -/
def Obligations.BrokenConfigurationIsRefused : Prop :=
  (∀ c : Config, brokenConstraints c = [] ↔
    (2 ≤ c.rb.length ∧ c.rb.length ≤ 256) ∧ (∀ r ∈ c.rb, 1 ≤ r.n ∧ 1 ≤ r.w) ∧
    (∃ raw mic rest, c.rb = raw :: mic :: rest ∧ raw.w = 8 ∧ raw.prod = .bitstreamIsr ∧ raw.cons = .task ∧
      mic.prod = .task ∧ mic.cons = .task ∧ c.decIn ≤ raw.n - 1 ∧ 2 ≤ mic.n) ∧
    2 ≤ c.cw ∧ 1 ≤ c.tickUs ∧ 1 ≤ c.usW ∧ (1 ≤ c.passThreshold ∧ c.passThreshold ≤ 2 ^ c.cw - 1) ∧
    c.clkReset < 2 ^ c.cw ∧ c.db.length ≤ 256 ∧ (∀ d ∈ c.db, 1 ≤ d.intTop ∧ d.id < 2 ^ c.dbIdW) ∧
    8 ≤ c.dbIdW ∧ 1 ≤ c.decIn ∧ 1 ≤ c.decOut ∧ 1 ≤ c.b ∧ c.ch = 2 ∧ 1 ≤ c.micBlock) ∧
  (∀ (c : Config) (d : Draws), brokenConstraints c ≠ [] →
    (State.resetOf c d).fault = some (.config (brokenConstraints c)) ∧
    step (State.resetOf c d) = .fault .faulted ∧ ∀ e, stepOn e (State.resetOf c d) = .fault .faulted)

/-- Every instance of a configuration that passes the check starts well formed and running, whatever is drawn; the
configuration of `State.reset` (the model's choice, log 4) is one. -/
def Obligations.ResetIsWellFormed : Prop :=
  (∀ (c : Config) (d : Draws), brokenConstraints c = [] →
    CoreInv (State.resetOf c d) ∧ Running (State.resetOf c d) ∧ Memory.wf (State.resetOf c d)) ∧
  brokenConstraints Config.chosen = []

/-! ### Invariants and rules of the whole machine -/

/-- Every step keeps every ring at its size, its indices in range and its elements within their width (10_state R23 to
R25, 20_memory R62). -/
def Obligations.StepKeepsRings : Prop :=
  ∀ s t : State, RingsInv s → step s = .next t → RingsInv t

/-- Every step keeps every filter's integrator in its range and its state that of its last edge (42_debounce R144, R146). -/
def Obligations.StepKeepsDebounce : Prop :=
  ∀ s t : State, ConfigOk s → DebounceInv s → step s = .next t → DebounceInv t

/-- Every step keeps the DMA invariants and the strict alternation 0, 1, 0, 1, … of the buffers played (44_pingpong R197,
R199). -/
def Obligations.StepKeepsPlaybackAlternation : Prop :=
  ∀ s t : State, PlaybackInv s → step s = .next t → PlaybackInv t

/-- Every step keeps every invariant of the core (`CoreInv`), and the memory's form. -/
def Obligations.StepKeepsWellFormed : Prop :=
  ∀ s t : State, CoreInv s → step s = .next t → CoreInv t ∧ Memory.wf t

/-- A well-formed running core always has a step to a next state, whichever agent's turn it is: no access goes outside
its space (20_memory R62), and a Collect step never finds the raw ring empty (43_decimator R161). -/
def Obligations.WellFormedCoreNeverStops : Prop :=
  ∀ s : State, CoreInv s → Running s →
    (∃ t, step s = .next t) ∧
    ∀ x d, s.progress.get x = .drain d → d.phase = .collect → 0 < s.raw.used

/-- The configuration never changes (10_state R45), and the three logs only grow (R42). -/
def Obligations.ConfigurationFixedAndLogsGrow : Prop :=
  ∀ s t : State, step s = .next t →
    t.cfg = s.cfg ∧ s.played <+: t.played ∧ s.edges <+: t.edges ∧ s.diag <+: t.diag

/-- The counter is written only by a CLK_TICK of TICK_ISR (10_state R27, 60_exceptions R249). -/
def Obligations.OnlyTickMovesCounter : Prop :=
  ∀ s t : State, step s = .next t → t.cnt ≠ s.cnt →
    ∃ cmd, nextEvent s = .command cmd ∧ decode cmd.word = .ok .clkTick ∧ contextOfId cmd.ctx = some .tickIsr ∧
      t.cnt = (s.cnt + 1) % 2 ^ s.cfg.cw

/-- The only sources of a fatal halt (60_exceptions R233 to R235), and that it is precise (R240, R241): the state at the
halt is the state before the raising step but for the halt's own three writes (and the environment's events), and no
agent has a step from it. -/
def Obligations.FatalHaltSourcesAndPrecision : Prop :=
  ∀ s t : State, step s = .next t → t.halted = true →
    ((t.haltCode = .decOverflow ∧ s.raw.free = 0 ∧
        ∃ cmd, nextEvent s = .command cmd ∧ decode cmd.word = .ok .decPush) ∨
     (t.haltCode = .pbOverrun ∧
        (∃ p, s.pp = some p ∧ p.phase = .wait ∧ p.playing = p.expected ∧ p.idleCount = 0) ∧
        ∃ cmd, nextEvent s = .command cmd ∧ decode cmd.word = .ok .ppPoll) ∨
     (t.haltCode = .micOverflow ∧ s.cfg.micFullPolicy = .fatal ∧ s.mic.free < s.cfg.decOut ∧
        ∃ x d, nextEvent s = .resume x ∧ s.progress.get x = .drain d ∧ d.phase = .emit)) ∧
    t = { s with
      halted := true, haltCode := t.haltCode, diag := s.diag ++ [t.haltCode],
      cmd := t.cmd, events := t.events, draws := t.draws } ∧
    step t = .fault .halted ∧ ∀ e, stepOn e t = .fault .halted

/-- A model fault has no other effect on the state (60_exceptions R237): only SYS.fault is written (and the
environment's events move on), and from then on no agent has a step. -/
def Obligations.ModelFaultHasNoOtherEffect : Prop :=
  ∀ s t : State, step s = .next t → t.fault ≠ none →
    ∃ cmd code, nextEvent s = .command cmd ∧ t.fault = some (.command code cmd.ctx cmd.word) ∧
      t = { s with fault := t.fault, cmd := cmd, events := t.events, draws := t.draws } ∧
      step t = .fault .faulted ∧ ∀ e, stepOn e t = .fault .faulted

/-! ### Frames -/

/-- The operations that only drive result ports (20_memory R64, 41_clock R122, 45_system R220): all state but the
issuing context's ports, and SYS.fault where the operation faults, is as before; every element reads as before. -/
def Obligations.ReadingOperationsChangeNothing : Prop :=
  ∀ (s t : State) (inst : InstNo) (i : Instr),
    i ∈ [Instr.rbPeek inst, .rbUsed inst, .rbFree inst, .clkNow, .clkDelayFrom, .clkHasPassed, .dbState inst,
      .ppPlaying, .sysIdle, .sysStatus] →
    exec i s = .next t →
    t = { s with results := t.results, fault := t.fault } ∧
    (∀ y, contextOfId s.cmd.ctx ≠ some y → t.results.get y = s.results.get y) ∧
    (∀ k, memRead t.raw.store k = memRead s.raw.store k ∧ memRead t.mic.store k = memRead s.mic.store k ∧
      memRead t.buf0 k = memRead s.buf0 k ∧ memRead t.buf1 k = memRead s.buf1 k ∧
      ∀ j r, s.ring? j = some r → ∃ r', t.ring? j = some r' ∧ memRead r'.store k = memRead r.store k)

/-- RB_WRITE, RB_READ and RB_FLUSH (40_ringbuffer R103, R104, R108): no ring but the named one changes, a write moves no
tail and changes no element but the one at head, a read moves only the tail, a flush's step stores nothing. -/
def Obligations.RingOperationsFrame : Prop :=
  ∀ (s t : State) (inst : InstNo) (r : RingBuffer Nat), s.ring? inst.toNat = some r →
    (exec (.rbWrite inst) s = .next t →
      t = { s with rings := t.rings, results := t.results, fault := t.fault } ∧
      (∀ y, contextOfId s.cmd.ctx ≠ some y → t.results.get y = s.results.get y) ∧
      (∀ j, j ≠ inst.toNat → t.ring? j = s.ring? j) ∧
      ∃ r', t.ring? inst.toNat = some r' ∧ r'.tail = r.tail ∧ r'.size = r.size ∧
        ∀ k, k ≠ r.head → memRead r'.store k = memRead r.store k) ∧
    (exec (.rbRead inst) s = .next t →
      t = { s with rings := t.rings, results := t.results, fault := t.fault } ∧
      (∀ y, contextOfId s.cmd.ctx ≠ some y → t.results.get y = s.results.get y) ∧
      (∀ j, j ≠ inst.toNat → t.ring? j = s.ring? j) ∧
      ∃ r', t.ring? inst.toNat = some r' ∧ r'.head = r.head ∧
        ∀ k, memRead r'.store k = memRead r.store k) ∧
    (exec (.rbFlush inst) s = .next t →
      t = { s with rings := t.rings, progress := t.progress, flushDraws := t.flushDraws, draws := t.draws,
                   fault := t.fault } ∧
      (∀ y, contextOfId s.cmd.ctx ≠ some y → t.progress.get y = s.progress.get y) ∧
      (∀ j, j ≠ inst.toNat → t.ring? j = s.ring? j) ∧
      ∃ r', t.ring? inst.toNat = some r' ∧ ∀ k, memRead r'.store k = memRead r.store k)

/-- CLK_TICK, DB_INIT and DB_SAMPLE (41_clock R120, 42_debounce R140, R141): the counter, or the named filter and
OUT.edges, are all that changes besides the ports; DB_INIT emits no edge. They store to no element space. -/
def Obligations.ClockAndDebounceFrame : Prop :=
  ∀ (s t : State) (inst : InstNo),
    (exec .clkTick s = .next t →
      t = { s with cnt := t.cnt, results := t.results, fault := t.fault } ∧
      ∀ y, contextOfId s.cmd.ctx ≠ some y → t.results.get y = s.results.get y) ∧
    (exec (.dbInit inst) s = .next t →
      t = { s with db := t.db, results := t.results, fault := t.fault } ∧
      (∀ y, contextOfId s.cmd.ctx ≠ some y → t.results.get y = s.results.get y) ∧
      ∀ j, j ≠ inst.toNat → t.db[j]? = s.db[j]?) ∧
    (exec (.dbSample inst) s = .next t →
      t = { s with db := t.db, edges := t.edges, results := t.results, fault := t.fault } ∧
      (∀ y, contextOfId s.cmd.ctx ≠ some y → t.results.get y = s.results.get y) ∧
      ∀ j, j ≠ inst.toNat → t.db[j]? = s.db[j]?)

/-- DEC_PUSH, DEC_DRAIN's first step and MIC_FETCH (43_decimator R160, R161, R164): a push changes RAW alone, no element
of it but the one at head and never its tail; the first step of a drain changes only CTXST; a fetch moves only the tail
of MIC. -/
def Obligations.DecimatorFrame : Prop :=
  ∀ (s t : State),
    (exec .decPush s = .next t →
      t = { s with raw := t.raw, results := t.results, fault := t.fault,
                   halted := t.halted, haltCode := t.haltCode, diag := t.diag } ∧
      (∀ y, contextOfId s.cmd.ctx ≠ some y → t.results.get y = s.results.get y) ∧
      t.raw.tail = s.raw.tail ∧ t.raw.size = s.raw.size ∧
      ∀ k, k ≠ s.raw.head → memRead t.raw.store k = memRead s.raw.store k) ∧
    (exec .decDrain s = .next t →
      t = { s with progress := t.progress, results := t.results, fault := t.fault } ∧
      ∀ y, contextOfId s.cmd.ctx ≠ some y →
        t.results.get y = s.results.get y ∧ t.progress.get y = s.progress.get y) ∧
    (exec .micFetch s = .next t →
      t = { s with mic := t.mic, results := t.results, fault := t.fault } ∧
      (∀ y, contextOfId s.cmd.ctx ≠ some y → t.results.get y = s.results.get y) ∧
      t.mic.head = s.mic.head ∧ ∀ k, memRead t.mic.store k = memRead s.mic.store k)

/-- The scheduler's operations (44_pingpong R190 to R194): PP_START, PP_COMPLETE and PP_POLL store to no buffer and play
nothing; PP_FILL leaves the expected buffer, which the task may not write, and all of the DMA engine's state. -/
def Obligations.SchedulerFrame : Prop :=
  ∀ (s t : State),
    (∀ i, i ∈ [Instr.ppStart, .ppComplete, .ppPoll] → exec i s = .next t →
      t = { s with pp := t.pp, results := t.results, fault := t.fault,
                   halted := t.halted, haltCode := t.haltCode, diag := t.diag } ∧
      (∀ y, contextOfId s.cmd.ctx ≠ some y → t.results.get y = s.results.get y) ∧
      ∀ b k, memRead (t.buf b) k = memRead (s.buf b) k) ∧
    (exec .ppFill s = .next t →
      t = { s with pp := t.pp, buf0 := t.buf0, buf1 := t.buf1, results := t.results, fault := t.fault } ∧
      (∀ y, contextOfId s.cmd.ctx ≠ some y → t.results.get y = s.results.get y) ∧
      ∀ p, s.pp = some p → ∃ p', t.pp = some p' ∧ p'.playing = p.playing ∧ p'.dmaActive = p.dmaActive ∧
        p'.dmaPending = p.dmaPending ∧ p'.dmaBuf = p.dmaBuf ∧
        ∀ b k, b ≠ p.expected.other → memRead (t.buf b) k = memRead (s.buf b) k)

/-- The steps that are no command (40_ringbuffer R108, 43_decimator R161, 44_pingpong R191): a context in the middle of an
operation changes only what its step may, and the DMA engine writes no buffer and no ring. -/
def Obligations.LaterStepsFrame : Prop :=
  ∀ (s t : State),
    (∀ x, stepOn (.resume x) s = .next t →
      t = { s with raw := t.raw, mic := t.mic, rings := t.rings, fs := t.fs, progress := t.progress,
                   results := t.results, halted := t.halted, haltCode := t.haltCode, diag := t.diag } ∧
      (∀ y, y ≠ x → t.results.get y = s.results.get y ∧ t.progress.get y = s.progress.get y) ∧
      (∀ k, memRead t.raw.store k = memRead s.raw.store k) ∧
      t.raw.head = s.raw.head ∧ t.mic.tail = s.mic.tail ∧
      (∀ inst i, s.progress.get x = .flush inst i → t.raw = s.raw ∧ t.mic = s.mic ∧ t.fs = s.fs ∧
        (∀ j, j ≠ inst.toNat → t.ring? j = s.ring? j)) ∧
      (∀ d, s.progress.get x = .drain d → t.rings = s.rings)) ∧
    (stepOn .dma s = .next t →
      t = { s with played := t.played, pp := t.pp })
end

