-- ==== Sys2Proof/Laws/State.lean ====
section
/-! SUPPORT. What each update of the state does to each field of it. -/

namespace Sys2Proof.Machine

section
variable (s : State)

/-! ### State.setProgress -/

@[simp] theorem State.setProgress_cfg (c : Context) (p : Progress) : (s.setProgress c p).cfg = s.cfg := rfl
@[simp] theorem State.setProgress_halted (c : Context) (p : Progress) : (s.setProgress c p).halted = s.halted := rfl
@[simp] theorem State.setProgress_haltCode (c : Context) (p : Progress) : (s.setProgress c p).haltCode = s.haltCode := rfl
@[simp] theorem State.setProgress_fault (c : Context) (p : Progress) : (s.setProgress c p).fault = s.fault := rfl
@[simp] theorem State.setProgress_progress (c : Context) (p : Progress) : (s.setProgress c p).progress = s.progress.set c p := rfl
@[simp] theorem State.setProgress_raw (c : Context) (p : Progress) : (s.setProgress c p).raw = s.raw := rfl
@[simp] theorem State.setProgress_mic (c : Context) (p : Progress) : (s.setProgress c p).mic = s.mic := rfl
@[simp] theorem State.setProgress_rings (c : Context) (p : Progress) : (s.setProgress c p).rings = s.rings := rfl
@[simp] theorem State.setProgress_cnt (c : Context) (p : Progress) : (s.setProgress c p).cnt = s.cnt := rfl
@[simp] theorem State.setProgress_db (c : Context) (p : Progress) : (s.setProgress c p).db = s.db := rfl
@[simp] theorem State.setProgress_fs (c : Context) (p : Progress) : (s.setProgress c p).fs = s.fs := rfl
@[simp] theorem State.setProgress_buf0 (c : Context) (p : Progress) : (s.setProgress c p).buf0 = s.buf0 := rfl
@[simp] theorem State.setProgress_buf1 (c : Context) (p : Progress) : (s.setProgress c p).buf1 = s.buf1 := rfl
@[simp] theorem State.setProgress_pp (c : Context) (p : Progress) : (s.setProgress c p).pp = s.pp := rfl
@[simp] theorem State.setProgress_played (c : Context) (p : Progress) : (s.setProgress c p).played = s.played := rfl
@[simp] theorem State.setProgress_edges (c : Context) (p : Progress) : (s.setProgress c p).edges = s.edges := rfl
@[simp] theorem State.setProgress_diag (c : Context) (p : Progress) : (s.setProgress c p).diag = s.diag := rfl
@[simp] theorem State.setProgress_results (c : Context) (p : Progress) : (s.setProgress c p).results = s.results := rfl
@[simp] theorem State.setProgress_cmd (c : Context) (p : Progress) : (s.setProgress c p).cmd = s.cmd := rfl
@[simp] theorem State.setProgress_events (c : Context) (p : Progress) : (s.setProgress c p).events = s.events := rfl
@[simp] theorem State.setProgress_flushDraws (c : Context) (p : Progress) : (s.setProgress c p).flushDraws = s.flushDraws := rfl
@[simp] theorem State.setProgress_draws (c : Context) (p : Progress) : (s.setProgress c p).draws = s.draws := rfl

/-! ### State.setResults -/

@[simp] theorem State.setResults_cfg (c : Context) (r : Results) : (s.setResults c r).cfg = s.cfg := rfl
@[simp] theorem State.setResults_halted (c : Context) (r : Results) : (s.setResults c r).halted = s.halted := rfl
@[simp] theorem State.setResults_haltCode (c : Context) (r : Results) : (s.setResults c r).haltCode = s.haltCode := rfl
@[simp] theorem State.setResults_fault (c : Context) (r : Results) : (s.setResults c r).fault = s.fault := rfl
@[simp] theorem State.setResults_progress (c : Context) (r : Results) : (s.setResults c r).progress = s.progress := rfl
@[simp] theorem State.setResults_raw (c : Context) (r : Results) : (s.setResults c r).raw = s.raw := rfl
@[simp] theorem State.setResults_mic (c : Context) (r : Results) : (s.setResults c r).mic = s.mic := rfl
@[simp] theorem State.setResults_rings (c : Context) (r : Results) : (s.setResults c r).rings = s.rings := rfl
@[simp] theorem State.setResults_cnt (c : Context) (r : Results) : (s.setResults c r).cnt = s.cnt := rfl
@[simp] theorem State.setResults_db (c : Context) (r : Results) : (s.setResults c r).db = s.db := rfl
@[simp] theorem State.setResults_fs (c : Context) (r : Results) : (s.setResults c r).fs = s.fs := rfl
@[simp] theorem State.setResults_buf0 (c : Context) (r : Results) : (s.setResults c r).buf0 = s.buf0 := rfl
@[simp] theorem State.setResults_buf1 (c : Context) (r : Results) : (s.setResults c r).buf1 = s.buf1 := rfl
@[simp] theorem State.setResults_pp (c : Context) (r : Results) : (s.setResults c r).pp = s.pp := rfl
@[simp] theorem State.setResults_played (c : Context) (r : Results) : (s.setResults c r).played = s.played := rfl
@[simp] theorem State.setResults_edges (c : Context) (r : Results) : (s.setResults c r).edges = s.edges := rfl
@[simp] theorem State.setResults_diag (c : Context) (r : Results) : (s.setResults c r).diag = s.diag := rfl
@[simp] theorem State.setResults_results (c : Context) (r : Results) : (s.setResults c r).results = s.results.set c r := rfl
@[simp] theorem State.setResults_cmd (c : Context) (r : Results) : (s.setResults c r).cmd = s.cmd := rfl
@[simp] theorem State.setResults_events (c : Context) (r : Results) : (s.setResults c r).events = s.events := rfl
@[simp] theorem State.setResults_flushDraws (c : Context) (r : Results) : (s.setResults c r).flushDraws = s.flushDraws := rfl
@[simp] theorem State.setResults_draws (c : Context) (r : Results) : (s.setResults c r).draws = s.draws := rfl

/-! ### State.setRaw -/

@[simp] theorem State.setRaw_cfg (r : RingBuffer Byte) : (s.setRaw r).cfg = s.cfg := rfl
@[simp] theorem State.setRaw_halted (r : RingBuffer Byte) : (s.setRaw r).halted = s.halted := rfl
@[simp] theorem State.setRaw_haltCode (r : RingBuffer Byte) : (s.setRaw r).haltCode = s.haltCode := rfl
@[simp] theorem State.setRaw_fault (r : RingBuffer Byte) : (s.setRaw r).fault = s.fault := rfl
@[simp] theorem State.setRaw_progress (r : RingBuffer Byte) : (s.setRaw r).progress = s.progress := rfl
@[simp] theorem State.setRaw_raw (r : RingBuffer Byte) : (s.setRaw r).raw = r := rfl
@[simp] theorem State.setRaw_mic (r : RingBuffer Byte) : (s.setRaw r).mic = s.mic := rfl
@[simp] theorem State.setRaw_rings (r : RingBuffer Byte) : (s.setRaw r).rings = s.rings := rfl
@[simp] theorem State.setRaw_cnt (r : RingBuffer Byte) : (s.setRaw r).cnt = s.cnt := rfl
@[simp] theorem State.setRaw_db (r : RingBuffer Byte) : (s.setRaw r).db = s.db := rfl
@[simp] theorem State.setRaw_fs (r : RingBuffer Byte) : (s.setRaw r).fs = s.fs := rfl
@[simp] theorem State.setRaw_buf0 (r : RingBuffer Byte) : (s.setRaw r).buf0 = s.buf0 := rfl
@[simp] theorem State.setRaw_buf1 (r : RingBuffer Byte) : (s.setRaw r).buf1 = s.buf1 := rfl
@[simp] theorem State.setRaw_pp (r : RingBuffer Byte) : (s.setRaw r).pp = s.pp := rfl
@[simp] theorem State.setRaw_played (r : RingBuffer Byte) : (s.setRaw r).played = s.played := rfl
@[simp] theorem State.setRaw_edges (r : RingBuffer Byte) : (s.setRaw r).edges = s.edges := rfl
@[simp] theorem State.setRaw_diag (r : RingBuffer Byte) : (s.setRaw r).diag = s.diag := rfl
@[simp] theorem State.setRaw_results (r : RingBuffer Byte) : (s.setRaw r).results = s.results := rfl
@[simp] theorem State.setRaw_cmd (r : RingBuffer Byte) : (s.setRaw r).cmd = s.cmd := rfl
@[simp] theorem State.setRaw_events (r : RingBuffer Byte) : (s.setRaw r).events = s.events := rfl
@[simp] theorem State.setRaw_flushDraws (r : RingBuffer Byte) : (s.setRaw r).flushDraws = s.flushDraws := rfl
@[simp] theorem State.setRaw_draws (r : RingBuffer Byte) : (s.setRaw r).draws = s.draws := rfl

/-! ### State.setMic -/

@[simp] theorem State.setMic_cfg (r : RingBuffer Sample) : (s.setMic r).cfg = s.cfg := rfl
@[simp] theorem State.setMic_halted (r : RingBuffer Sample) : (s.setMic r).halted = s.halted := rfl
@[simp] theorem State.setMic_haltCode (r : RingBuffer Sample) : (s.setMic r).haltCode = s.haltCode := rfl
@[simp] theorem State.setMic_fault (r : RingBuffer Sample) : (s.setMic r).fault = s.fault := rfl
@[simp] theorem State.setMic_progress (r : RingBuffer Sample) : (s.setMic r).progress = s.progress := rfl
@[simp] theorem State.setMic_raw (r : RingBuffer Sample) : (s.setMic r).raw = s.raw := rfl
@[simp] theorem State.setMic_mic (r : RingBuffer Sample) : (s.setMic r).mic = r := rfl
@[simp] theorem State.setMic_rings (r : RingBuffer Sample) : (s.setMic r).rings = s.rings := rfl
@[simp] theorem State.setMic_cnt (r : RingBuffer Sample) : (s.setMic r).cnt = s.cnt := rfl
@[simp] theorem State.setMic_db (r : RingBuffer Sample) : (s.setMic r).db = s.db := rfl
@[simp] theorem State.setMic_fs (r : RingBuffer Sample) : (s.setMic r).fs = s.fs := rfl
@[simp] theorem State.setMic_buf0 (r : RingBuffer Sample) : (s.setMic r).buf0 = s.buf0 := rfl
@[simp] theorem State.setMic_buf1 (r : RingBuffer Sample) : (s.setMic r).buf1 = s.buf1 := rfl
@[simp] theorem State.setMic_pp (r : RingBuffer Sample) : (s.setMic r).pp = s.pp := rfl
@[simp] theorem State.setMic_played (r : RingBuffer Sample) : (s.setMic r).played = s.played := rfl
@[simp] theorem State.setMic_edges (r : RingBuffer Sample) : (s.setMic r).edges = s.edges := rfl
@[simp] theorem State.setMic_diag (r : RingBuffer Sample) : (s.setMic r).diag = s.diag := rfl
@[simp] theorem State.setMic_results (r : RingBuffer Sample) : (s.setMic r).results = s.results := rfl
@[simp] theorem State.setMic_cmd (r : RingBuffer Sample) : (s.setMic r).cmd = s.cmd := rfl
@[simp] theorem State.setMic_events (r : RingBuffer Sample) : (s.setMic r).events = s.events := rfl
@[simp] theorem State.setMic_flushDraws (r : RingBuffer Sample) : (s.setMic r).flushDraws = s.flushDraws := rfl
@[simp] theorem State.setMic_draws (r : RingBuffer Sample) : (s.setMic r).draws = s.draws := rfl

/-! ### State.setRing -/

@[simp] theorem State.setRing_cfg (i : Nat) (r : RingBuffer Nat) : (s.setRing i r).cfg = s.cfg := rfl
@[simp] theorem State.setRing_halted (i : Nat) (r : RingBuffer Nat) : (s.setRing i r).halted = s.halted := rfl
@[simp] theorem State.setRing_haltCode (i : Nat) (r : RingBuffer Nat) : (s.setRing i r).haltCode = s.haltCode := rfl
@[simp] theorem State.setRing_fault (i : Nat) (r : RingBuffer Nat) : (s.setRing i r).fault = s.fault := rfl
@[simp] theorem State.setRing_progress (i : Nat) (r : RingBuffer Nat) : (s.setRing i r).progress = s.progress := rfl
@[simp] theorem State.setRing_raw (i : Nat) (r : RingBuffer Nat) : (s.setRing i r).raw = s.raw := rfl
@[simp] theorem State.setRing_mic (i : Nat) (r : RingBuffer Nat) : (s.setRing i r).mic = s.mic := rfl
@[simp] theorem State.setRing_rings (i : Nat) (r : RingBuffer Nat) : (s.setRing i r).rings = s.rings.set (i - 2) r := rfl
@[simp] theorem State.setRing_cnt (i : Nat) (r : RingBuffer Nat) : (s.setRing i r).cnt = s.cnt := rfl
@[simp] theorem State.setRing_db (i : Nat) (r : RingBuffer Nat) : (s.setRing i r).db = s.db := rfl
@[simp] theorem State.setRing_fs (i : Nat) (r : RingBuffer Nat) : (s.setRing i r).fs = s.fs := rfl
@[simp] theorem State.setRing_buf0 (i : Nat) (r : RingBuffer Nat) : (s.setRing i r).buf0 = s.buf0 := rfl
@[simp] theorem State.setRing_buf1 (i : Nat) (r : RingBuffer Nat) : (s.setRing i r).buf1 = s.buf1 := rfl
@[simp] theorem State.setRing_pp (i : Nat) (r : RingBuffer Nat) : (s.setRing i r).pp = s.pp := rfl
@[simp] theorem State.setRing_played (i : Nat) (r : RingBuffer Nat) : (s.setRing i r).played = s.played := rfl
@[simp] theorem State.setRing_edges (i : Nat) (r : RingBuffer Nat) : (s.setRing i r).edges = s.edges := rfl
@[simp] theorem State.setRing_diag (i : Nat) (r : RingBuffer Nat) : (s.setRing i r).diag = s.diag := rfl
@[simp] theorem State.setRing_results (i : Nat) (r : RingBuffer Nat) : (s.setRing i r).results = s.results := rfl
@[simp] theorem State.setRing_cmd (i : Nat) (r : RingBuffer Nat) : (s.setRing i r).cmd = s.cmd := rfl
@[simp] theorem State.setRing_events (i : Nat) (r : RingBuffer Nat) : (s.setRing i r).events = s.events := rfl
@[simp] theorem State.setRing_flushDraws (i : Nat) (r : RingBuffer Nat) : (s.setRing i r).flushDraws = s.flushDraws := rfl
@[simp] theorem State.setRing_draws (i : Nat) (r : RingBuffer Nat) : (s.setRing i r).draws = s.draws := rfl

/-! ### State.setDebounce -/

@[simp] theorem State.setDebounce_cfg (j : Nat) (d : Debounce) : (s.setDebounce j d).cfg = s.cfg := rfl
@[simp] theorem State.setDebounce_halted (j : Nat) (d : Debounce) : (s.setDebounce j d).halted = s.halted := rfl
@[simp] theorem State.setDebounce_haltCode (j : Nat) (d : Debounce) : (s.setDebounce j d).haltCode = s.haltCode := rfl
@[simp] theorem State.setDebounce_fault (j : Nat) (d : Debounce) : (s.setDebounce j d).fault = s.fault := rfl
@[simp] theorem State.setDebounce_progress (j : Nat) (d : Debounce) : (s.setDebounce j d).progress = s.progress := rfl
@[simp] theorem State.setDebounce_raw (j : Nat) (d : Debounce) : (s.setDebounce j d).raw = s.raw := rfl
@[simp] theorem State.setDebounce_mic (j : Nat) (d : Debounce) : (s.setDebounce j d).mic = s.mic := rfl
@[simp] theorem State.setDebounce_rings (j : Nat) (d : Debounce) : (s.setDebounce j d).rings = s.rings := rfl
@[simp] theorem State.setDebounce_cnt (j : Nat) (d : Debounce) : (s.setDebounce j d).cnt = s.cnt := rfl
@[simp] theorem State.setDebounce_db (j : Nat) (d : Debounce) : (s.setDebounce j d).db = s.db.set j (some d) := rfl
@[simp] theorem State.setDebounce_fs (j : Nat) (d : Debounce) : (s.setDebounce j d).fs = s.fs := rfl
@[simp] theorem State.setDebounce_buf0 (j : Nat) (d : Debounce) : (s.setDebounce j d).buf0 = s.buf0 := rfl
@[simp] theorem State.setDebounce_buf1 (j : Nat) (d : Debounce) : (s.setDebounce j d).buf1 = s.buf1 := rfl
@[simp] theorem State.setDebounce_pp (j : Nat) (d : Debounce) : (s.setDebounce j d).pp = s.pp := rfl
@[simp] theorem State.setDebounce_played (j : Nat) (d : Debounce) : (s.setDebounce j d).played = s.played := rfl
@[simp] theorem State.setDebounce_edges (j : Nat) (d : Debounce) : (s.setDebounce j d).edges = s.edges := rfl
@[simp] theorem State.setDebounce_diag (j : Nat) (d : Debounce) : (s.setDebounce j d).diag = s.diag := rfl
@[simp] theorem State.setDebounce_results (j : Nat) (d : Debounce) : (s.setDebounce j d).results = s.results := rfl
@[simp] theorem State.setDebounce_cmd (j : Nat) (d : Debounce) : (s.setDebounce j d).cmd = s.cmd := rfl
@[simp] theorem State.setDebounce_events (j : Nat) (d : Debounce) : (s.setDebounce j d).events = s.events := rfl
@[simp] theorem State.setDebounce_flushDraws (j : Nat) (d : Debounce) : (s.setDebounce j d).flushDraws = s.flushDraws := rfl
@[simp] theorem State.setDebounce_draws (j : Nat) (d : Debounce) : (s.setDebounce j d).draws = s.draws := rfl

/-! ### State.setPlayback -/

@[simp] theorem State.setPlayback_cfg (p : Playback) : (s.setPlayback p).cfg = s.cfg := rfl
@[simp] theorem State.setPlayback_halted (p : Playback) : (s.setPlayback p).halted = s.halted := rfl
@[simp] theorem State.setPlayback_haltCode (p : Playback) : (s.setPlayback p).haltCode = s.haltCode := rfl
@[simp] theorem State.setPlayback_fault (p : Playback) : (s.setPlayback p).fault = s.fault := rfl
@[simp] theorem State.setPlayback_progress (p : Playback) : (s.setPlayback p).progress = s.progress := rfl
@[simp] theorem State.setPlayback_raw (p : Playback) : (s.setPlayback p).raw = s.raw := rfl
@[simp] theorem State.setPlayback_mic (p : Playback) : (s.setPlayback p).mic = s.mic := rfl
@[simp] theorem State.setPlayback_rings (p : Playback) : (s.setPlayback p).rings = s.rings := rfl
@[simp] theorem State.setPlayback_cnt (p : Playback) : (s.setPlayback p).cnt = s.cnt := rfl
@[simp] theorem State.setPlayback_db (p : Playback) : (s.setPlayback p).db = s.db := rfl
@[simp] theorem State.setPlayback_fs (p : Playback) : (s.setPlayback p).fs = s.fs := rfl
@[simp] theorem State.setPlayback_buf0 (p : Playback) : (s.setPlayback p).buf0 = s.buf0 := rfl
@[simp] theorem State.setPlayback_buf1 (p : Playback) : (s.setPlayback p).buf1 = s.buf1 := rfl
@[simp] theorem State.setPlayback_pp (p : Playback) : (s.setPlayback p).pp = some p := rfl
@[simp] theorem State.setPlayback_played (p : Playback) : (s.setPlayback p).played = s.played := rfl
@[simp] theorem State.setPlayback_edges (p : Playback) : (s.setPlayback p).edges = s.edges := rfl
@[simp] theorem State.setPlayback_diag (p : Playback) : (s.setPlayback p).diag = s.diag := rfl
@[simp] theorem State.setPlayback_results (p : Playback) : (s.setPlayback p).results = s.results := rfl
@[simp] theorem State.setPlayback_cmd (p : Playback) : (s.setPlayback p).cmd = s.cmd := rfl
@[simp] theorem State.setPlayback_events (p : Playback) : (s.setPlayback p).events = s.events := rfl
@[simp] theorem State.setPlayback_flushDraws (p : Playback) : (s.setPlayback p).flushDraws = s.flushDraws := rfl
@[simp] theorem State.setPlayback_draws (p : Playback) : (s.setPlayback p).draws = s.draws := rfl

/-! ### State.setBuf -/

@[simp] theorem State.setBuf_cfg (b : BufIx) (v : List Native) : (s.setBuf b v).cfg = s.cfg := by cases b <;> rfl
@[simp] theorem State.setBuf_halted (b : BufIx) (v : List Native) : (s.setBuf b v).halted = s.halted := by cases b <;> rfl
@[simp] theorem State.setBuf_haltCode (b : BufIx) (v : List Native) : (s.setBuf b v).haltCode = s.haltCode := by cases b <;> rfl
@[simp] theorem State.setBuf_fault (b : BufIx) (v : List Native) : (s.setBuf b v).fault = s.fault := by cases b <;> rfl
@[simp] theorem State.setBuf_progress (b : BufIx) (v : List Native) : (s.setBuf b v).progress = s.progress := by cases b <;> rfl
@[simp] theorem State.setBuf_raw (b : BufIx) (v : List Native) : (s.setBuf b v).raw = s.raw := by cases b <;> rfl
@[simp] theorem State.setBuf_mic (b : BufIx) (v : List Native) : (s.setBuf b v).mic = s.mic := by cases b <;> rfl
@[simp] theorem State.setBuf_rings (b : BufIx) (v : List Native) : (s.setBuf b v).rings = s.rings := by cases b <;> rfl
@[simp] theorem State.setBuf_cnt (b : BufIx) (v : List Native) : (s.setBuf b v).cnt = s.cnt := by cases b <;> rfl
@[simp] theorem State.setBuf_db (b : BufIx) (v : List Native) : (s.setBuf b v).db = s.db := by cases b <;> rfl
@[simp] theorem State.setBuf_fs (b : BufIx) (v : List Native) : (s.setBuf b v).fs = s.fs := by cases b <;> rfl
@[simp] theorem State.setBuf_pp (b : BufIx) (v : List Native) : (s.setBuf b v).pp = s.pp := by cases b <;> rfl
@[simp] theorem State.setBuf_played (b : BufIx) (v : List Native) : (s.setBuf b v).played = s.played := by cases b <;> rfl
@[simp] theorem State.setBuf_edges (b : BufIx) (v : List Native) : (s.setBuf b v).edges = s.edges := by cases b <;> rfl
@[simp] theorem State.setBuf_diag (b : BufIx) (v : List Native) : (s.setBuf b v).diag = s.diag := by cases b <;> rfl
@[simp] theorem State.setBuf_results (b : BufIx) (v : List Native) : (s.setBuf b v).results = s.results := by cases b <;> rfl
@[simp] theorem State.setBuf_cmd (b : BufIx) (v : List Native) : (s.setBuf b v).cmd = s.cmd := by cases b <;> rfl
@[simp] theorem State.setBuf_events (b : BufIx) (v : List Native) : (s.setBuf b v).events = s.events := by cases b <;> rfl
@[simp] theorem State.setBuf_flushDraws (b : BufIx) (v : List Native) : (s.setBuf b v).flushDraws = s.flushDraws := by cases b <;> rfl
@[simp] theorem State.setBuf_draws (b : BufIx) (v : List Native) : (s.setBuf b v).draws = s.draws := by cases b <;> rfl

/-! ### State.afterFlushDraw -/

@[simp] theorem State.afterFlushDraw_cfg : s.afterFlushDraw.cfg = s.cfg := by unfold State.afterFlushDraw; split <;> rfl
@[simp] theorem State.afterFlushDraw_halted : s.afterFlushDraw.halted = s.halted := by unfold State.afterFlushDraw; split <;> rfl
@[simp] theorem State.afterFlushDraw_haltCode : s.afterFlushDraw.haltCode = s.haltCode := by unfold State.afterFlushDraw; split <;> rfl
@[simp] theorem State.afterFlushDraw_fault : s.afterFlushDraw.fault = s.fault := by unfold State.afterFlushDraw; split <;> rfl
@[simp] theorem State.afterFlushDraw_progress : s.afterFlushDraw.progress = s.progress := by unfold State.afterFlushDraw; split <;> rfl
@[simp] theorem State.afterFlushDraw_raw : s.afterFlushDraw.raw = s.raw := by unfold State.afterFlushDraw; split <;> rfl
@[simp] theorem State.afterFlushDraw_mic : s.afterFlushDraw.mic = s.mic := by unfold State.afterFlushDraw; split <;> rfl
@[simp] theorem State.afterFlushDraw_rings : s.afterFlushDraw.rings = s.rings := by unfold State.afterFlushDraw; split <;> rfl
@[simp] theorem State.afterFlushDraw_cnt : s.afterFlushDraw.cnt = s.cnt := by unfold State.afterFlushDraw; split <;> rfl
@[simp] theorem State.afterFlushDraw_db : s.afterFlushDraw.db = s.db := by unfold State.afterFlushDraw; split <;> rfl
@[simp] theorem State.afterFlushDraw_fs : s.afterFlushDraw.fs = s.fs := by unfold State.afterFlushDraw; split <;> rfl
@[simp] theorem State.afterFlushDraw_buf0 : s.afterFlushDraw.buf0 = s.buf0 := by unfold State.afterFlushDraw; split <;> rfl
@[simp] theorem State.afterFlushDraw_buf1 : s.afterFlushDraw.buf1 = s.buf1 := by unfold State.afterFlushDraw; split <;> rfl
@[simp] theorem State.afterFlushDraw_pp : s.afterFlushDraw.pp = s.pp := by unfold State.afterFlushDraw; split <;> rfl
@[simp] theorem State.afterFlushDraw_played : s.afterFlushDraw.played = s.played := by unfold State.afterFlushDraw; split <;> rfl
@[simp] theorem State.afterFlushDraw_edges : s.afterFlushDraw.edges = s.edges := by unfold State.afterFlushDraw; split <;> rfl
@[simp] theorem State.afterFlushDraw_diag : s.afterFlushDraw.diag = s.diag := by unfold State.afterFlushDraw; split <;> rfl
@[simp] theorem State.afterFlushDraw_results : s.afterFlushDraw.results = s.results := by unfold State.afterFlushDraw; split <;> rfl
@[simp] theorem State.afterFlushDraw_cmd : s.afterFlushDraw.cmd = s.cmd := by unfold State.afterFlushDraw; split <;> rfl
@[simp] theorem State.afterFlushDraw_events : s.afterFlushDraw.events = s.events := by unfold State.afterFlushDraw; split <;> rfl

/-! ### State.afterEvent -/

@[simp] theorem State.afterEvent_cfg : s.afterEvent.cfg = s.cfg := by unfold State.afterEvent; split <;> rfl
@[simp] theorem State.afterEvent_halted : s.afterEvent.halted = s.halted := by unfold State.afterEvent; split <;> rfl
@[simp] theorem State.afterEvent_haltCode : s.afterEvent.haltCode = s.haltCode := by unfold State.afterEvent; split <;> rfl
@[simp] theorem State.afterEvent_fault : s.afterEvent.fault = s.fault := by unfold State.afterEvent; split <;> rfl
@[simp] theorem State.afterEvent_progress : s.afterEvent.progress = s.progress := by unfold State.afterEvent; split <;> rfl
@[simp] theorem State.afterEvent_raw : s.afterEvent.raw = s.raw := by unfold State.afterEvent; split <;> rfl
@[simp] theorem State.afterEvent_mic : s.afterEvent.mic = s.mic := by unfold State.afterEvent; split <;> rfl
@[simp] theorem State.afterEvent_rings : s.afterEvent.rings = s.rings := by unfold State.afterEvent; split <;> rfl
@[simp] theorem State.afterEvent_cnt : s.afterEvent.cnt = s.cnt := by unfold State.afterEvent; split <;> rfl
@[simp] theorem State.afterEvent_db : s.afterEvent.db = s.db := by unfold State.afterEvent; split <;> rfl
@[simp] theorem State.afterEvent_fs : s.afterEvent.fs = s.fs := by unfold State.afterEvent; split <;> rfl
@[simp] theorem State.afterEvent_buf0 : s.afterEvent.buf0 = s.buf0 := by unfold State.afterEvent; split <;> rfl
@[simp] theorem State.afterEvent_buf1 : s.afterEvent.buf1 = s.buf1 := by unfold State.afterEvent; split <;> rfl
@[simp] theorem State.afterEvent_pp : s.afterEvent.pp = s.pp := by unfold State.afterEvent; split <;> rfl
@[simp] theorem State.afterEvent_played : s.afterEvent.played = s.played := by unfold State.afterEvent; split <;> rfl
@[simp] theorem State.afterEvent_edges : s.afterEvent.edges = s.edges := by unfold State.afterEvent; split <;> rfl
@[simp] theorem State.afterEvent_diag : s.afterEvent.diag = s.diag := by unfold State.afterEvent; split <;> rfl
@[simp] theorem State.afterEvent_results : s.afterEvent.results = s.results := by unfold State.afterEvent; split <;> rfl
@[simp] theorem State.afterEvent_cmd : s.afterEvent.cmd = s.cmd := by unfold State.afterEvent; split <;> rfl
@[simp] theorem State.afterEvent_flushDraws : s.afterEvent.flushDraws = s.flushDraws := by unfold State.afterEvent; split <;> rfl

/-! ### Values read through an accessor -/

@[simp] theorem PerContext.get_set {α : Type} (p : PerContext α) (c d : Context) (v : α) :
    (p.set c v).get d = if d = c then v else p.get d := by
  cases c <;> cases d <;> rfl

@[simp] theorem State.buf_setBuf (b d : BufIx) (v : List Native) :
    (s.setBuf b v).buf d = if d = b then v else s.buf d := by
  cases b <;> cases d <;> rfl

@[simp] theorem State.buf_setPlayback (b : BufIx) (p : Playback) : (s.setPlayback p).buf b = s.buf b := by
  cases b <;> rfl

@[simp] theorem State.buf_setResults (b : BufIx) (c : Context) (r : Results) :
    (s.setResults c r).buf b = s.buf b := by
  cases b <;> rfl

@[simp] theorem BufIx.other_other (b : BufIx) : b.other.other = b := by cases b <;> rfl

@[simp] theorem BufIx.other_ne (b : BufIx) : b.other ≠ b := by cases b <;> decide

@[simp] theorem State.ring?_setProgress (c : Context) (p : Progress) (i : Nat) :
    (s.setProgress c p).ring? i = s.ring? i := rfl

@[simp] theorem State.ring?_setResults (c : Context) (r : Results) (i : Nat) :
    (s.setResults c r).ring? i = s.ring? i := rfl

@[simp] theorem State.ring?_afterFlushDraw (i : Nat) : s.afterFlushDraw.ring? i = s.ring? i := by
  unfold State.ring?; simp

@[simp] theorem contextOfId_contextId (x : Context) : contextOfId (contextId x) = some x := by
  cases x <;> decide

end

end Sys2Proof.Machine
end

