-- ==== Sys2Proof/Laws/Ops.lean ====
section
/-! SUPPORT. What each shared operation can do, said once: the checks of an issued operation, the lookup of a ring or
of a debounce filter, an agent's step, and runs along listed events. -/

namespace Sys2Proof.Machine

section
variable {s t : State} {i : Instr} {x : Context} {rule : Context → Result}

/-- An operation that passes its checks is its rule (30_encoding R88). -/
theorem issue_of_issuable (h : Issuable i x s) : issue i s rule = rule x := by
  have h1 := h.legal
  simp only [Instr.WellFormed] at h1
  simp [issue, h.notHalted, h.noFault, h1, h.context, h.allowed, h.operands]

/-- If an issued operation answers a next state, the core was running, and either a check of 30_encoding R88 failed and
its fault is all that changed, or the operation was issuable and its rule gave that state. -/
theorem issue_next (h : issue i s rule = .next t) :
    Running s ∧
    ((∃ code, t = { s with fault := some (.command code s.cmd.ctx s.cmd.word) }) ∨
     ∃ x, Issuable i x s ∧ rule x = .next t) := by
  unfold issue at h
  split at h
  · cases h
  next hh =>
  split at h
  · cases h
  next hf =>
  have hrun : Running s := ⟨by simpa using hh, by simpa using hf⟩
  refine ⟨hrun, ?_⟩
  split at h
  · cases h; exact .inl ⟨_, rfl⟩
  next hl =>
  split at h
  · cases h; exact .inl ⟨_, rfl⟩
  next x hx =>
  split at h
  · cases h; exact .inl ⟨_, rfl⟩
  next hp =>
  split at h
  · cases h; exact .inl ⟨_, rfl⟩
  next ho =>
  exact .inr ⟨x, ⟨hrun, by simpa using hl, hx, by simpa using hp, by simpa using ho⟩, h⟩

/-- The same for any outcome: a core that is not running stops, and a check that fails answers a next state. -/
theorem issue_cases (o : Result) (h : issue i s rule = o) :
    (s.halted = true ∧ o = .fault .halted) ∨ (s.fault ≠ none ∧ o = .fault .faulted) ∨
    (Running s ∧ ∃ code, o = raiseFault code s) ∨ ∃ x, Issuable i x s ∧ rule x = o := by
  unfold issue at h
  split at h
  next hh => exact .inl ⟨hh, h.symm⟩
  next hh =>
  split at h
  next hf => exact .inr (.inl ⟨by simpa [Option.isSome_iff_ne_none] using hf, h.symm⟩)
  next hf =>
  have hrun : Running s := ⟨by simpa using hh, by simpa using hf⟩
  split at h
  · exact .inr (.inr (.inl ⟨hrun, _, h.symm⟩))
  next hl =>
  split at h
  · exact .inr (.inr (.inl ⟨hrun, _, h.symm⟩))
  next x hx =>
  split at h
  · exact .inr (.inr (.inl ⟨hrun, _, h.symm⟩))
  next hp =>
  split at h
  · exact .inr (.inr (.inl ⟨hrun, _, h.symm⟩))
  next ho =>
  exact .inr (.inr (.inr ⟨x, ⟨hrun, by simpa using hl, hx, by simpa using hp, by simpa using ho⟩, h⟩))

/-- The checks of `Issuable`, as one test that evaluates. -/
def issuable (i : Instr) (x : Context) (s : State) : Bool :=
  !s.halted && s.fault.isNone && legalInst s.cfg i && decide (contextOfId s.cmd.ctx = some x) &&
    permitted s.cfg x i && operandsFit s.cfg s.cmd i

theorem Issuable.of_test (h : issuable i x s = true) : Issuable i x s := by
  simp only [issuable, Bool.and_eq_true, Bool.not_eq_true', Option.isNone_iff_eq_none, decide_eq_true_eq] at h
  obtain ⟨⟨⟨⟨⟨h1, h2⟩, h3⟩, h4⟩, h5⟩, h6⟩ := h
  exact ⟨⟨h1, h2⟩, h3, h4, h5, h6⟩

theorem withRing_of_some {inst : InstNo} {r : RingBuffer Nat} {k : RingBuffer Nat → Result}
    (h : s.ring? inst.toNat = some r) : withRing inst s k = k r := by
  simp [withRing, h]

theorem withRing_next {inst : InstNo} {k : RingBuffer Nat → Result} (h : withRing inst s k = .next t) :
    ∃ r, s.ring? inst.toNat = some r ∧ k r = .next t := by
  unfold withRing at h
  split at h
  next r hr => exact ⟨r, hr, h⟩
  next => cases h

theorem withDebounce_of_some {inst : InstNo} {d : Option Debounce} {k : Option Debounce → Result}
    (h : s.db[inst.toNat]? = some d) : withDebounce inst s k = k d := by
  simp [withDebounce, h]

theorem withDebounce_next {inst : InstNo} {k : Option Debounce → Result} (h : withDebounce inst s k = .next t) :
    ∃ d, s.db[inst.toNat]? = some d ∧ k d = .next t := by
  unfold withDebounce at h
  split at h
  next d hd => exact ⟨d, hd, h⟩
  next => cases h

theorem ring?_some {n : Nat} {r : RingBuffer Nat} (h : s.ring? n = some r) : 2 ≤ n ∧ s.rings[n - 2]? = some r := by
  unfold State.ring? at h
  split at h
  next hn => exact ⟨hn, h⟩
  next => cases h

theorem setRing_ring?_same {n : Nat} {r r' : RingBuffer Nat} (h : s.ring? n = some r) :
    (s.setRing n r').ring? n = some r' := by
  obtain ⟨h2, hg⟩ := ring?_some h
  have hlt := (List.getElem?_eq_some_iff.mp hg).1
  simp [State.ring?, h2, hlt]

theorem setRing_ring?_other {n j : Nat} {r' : RingBuffer Nat} (hn : 2 ≤ n) (hj : j ≠ n) :
    (s.setRing n r').ring? j = s.ring? j := by
  unfold State.ring?
  split
  · simp only [State.setRing_rings]; rw [List.getElem?_set_ne (by omega)]
  · rfl

/-- A configuration that passes the check meets every constraint (70_reset_and_hazards R272). -/
theorem constraintHolds_of_ok {c : Config} (h : brokenConstraints c = []) (k : Constraint) :
    constraintHolds c k = true := by
  by_contra hne
  have hk : k ∈ brokenConstraints c :=
    List.mem_filter.mpr ⟨by cases k <;> decide, by simpa using hne⟩
  rw [h] at hk
  cases hk

/-! ### Steps and runs -/

theorem nextEvent_cons {e : Event} {es : List Event} (h : s.events = e :: es) : nextEvent s = e := by
  simp [nextEvent, h]

theorem afterEvent_cons {e : Event} {es : List Event} (h : s.events = e :: es) :
    s.afterEvent = { s with events := es } := by
  simp [State.afterEvent, h]

/-- A step is the step of the agent that the next event names. -/
theorem step_eq_stepOn : step s = stepOn (nextEvent s) s.afterEvent := by
  simp [step, stepOn]

theorem stepOn_of_running (h : Running s) (e : Event) : stepOn e s = takeEvent e s := by
  simp [stepOn, h.notHalted, h.noFault]

/-- A running core with a listed event takes that event. -/
theorem step_of_event {e : Event} {es : List Event} (h : Running s) (he : s.events = e :: es) :
    step s = takeEvent e { s with events := es } := by
  simp [step, h.notHalted, h.noFault, nextEvent_cons he, afterEvent_cons he]

theorem stepOn_next {e : Event} (h : stepOn e s = .next t) : Running s ∧ takeEvent e s = .next t := by
  unfold stepOn at h
  split at h
  · cases h
  next hh =>
  split at h
  · cases h
  next hf => exact ⟨⟨by simpa using hh, by simpa using hf⟩, h⟩

@[simp] theorem runEvents_nil : runEvents [] s = .next s := rfl

theorem runEvents_cons {e : Event} {es : List Event} {u : State} (h : stepOn e s = .next u) :
    runEvents (e :: es) s = runEvents es u := by
  simp [runEvents, h]

theorem runEvents_append {es fs : List Event} {u : State} (h : runEvents es s = .next u) :
    runEvents (es ++ fs) s = runEvents fs u := by
  induction es generalizing s with
  | nil => cases h; rfl
  | cons e es ih =>
    simp only [List.cons_append, runEvents] at h ⊢
    cases he : stepOn e s with
    | next v => rw [he] at h; exact ih h
    | fault r => rw [he] at h; cases h
    | refused r => rw [he] at h; cases h

end

end Sys2Proof.Machine
end

