-- ==== Sys2Proof/Laws/Rings.lean ====
section
/-! SUPPORT. What the ring operations do (40_ringbuffer R101 to R108), and that every memory operation keeps the sizes of
the element spaces (`Memory.wf`) and the ranges of the indices. -/

namespace Sys2Proof.Machine

section
variable {α : Type} {r r' : RingBuffer α} {n : Nat} {e : α}

theorem memWrite_length {space space' : List α} {k : Nat} {v : α} (h : memWrite space k v = some space') :
    space'.length = space.length := by
  unfold memWrite at h
  split at h
  · cases h; simp
  · cases h

theorem memWrite_read_same {space space' : List α} {k : Nat} {v : α} (h : memWrite space k v = some space') :
    memRead space' k = some v := by
  unfold memWrite at h
  split at h
  next hk => cases h; simp [memRead, hk]
  next => cases h

theorem memWrite_read_other {space space' : List α} {k j : Nat} {v : α} (h : memWrite space k v = some space')
    (hj : j ≠ k) : memRead space' j = memRead space j := by
  unfold memWrite at h
  split at h
  · cases h; simp [memRead, List.getElem?_set_ne hj.symm]
  · cases h

theorem RingBuffer.push_eq (h : r.head < r.size) (e : α) :
    r.push e = some ⟨r.store.set r.head e, (r.head + 1) % r.size, r.tail⟩ := by
  simp only [RingBuffer.size] at h
  simp [RingBuffer.push, memWrite, h]

theorem RingBuffer.front_eq (h : r.tail < r.size) : r.front = some (r.store[r.tail]'h) :=
  List.getElem?_eq_getElem h

theorem RingBuffer.pop_eq (h : r.tail < r.size) : r.pop = some (r.store[r.tail]'h, r.dropFront) := by
  simp [RingBuffer.pop, RingBuffer.front_eq h]

theorem RingBuffer.pop_inv {e : α} (h : r.pop = some (e, r')) : r.store[r.tail]? = some e ∧ r' = r.dropFront := by
  simp only [RingBuffer.pop, RingBuffer.front, memRead, Option.map_eq_some_iff] at h
  obtain ⟨a, ha, hp⟩ := h
  cases hp
  exact ⟨ha, rfl⟩

theorem RingBuffer.push_inv {e : α} (h : r.push e = some r') :
    r.head < r.size ∧ r' = ⟨r.store.set r.head e, (r.head + 1) % r.size, r.tail⟩ := by
  by_cases hh : r.head < r.size
  · rw [RingBuffer.push_eq hh] at h
    exact ⟨hh, (Option.some.inj h).symm⟩
  · exfalso
    simp only [RingBuffer.size] at hh
    simp [RingBuffer.push, memWrite, hh] at h

@[simp] theorem RingBuffer.size_clearIndex (i : RingIndex) : (r.clearIndex i).size = r.size := by cases i <;> rfl

@[simp] theorem RingBuffer.store_clearIndex (i : RingIndex) : (r.clearIndex i).store = r.store := by cases i <;> rfl

@[simp] theorem RingBuffer.size_dropFront : r.dropFront.size = r.size := rfl

@[simp] theorem RingBuffer.store_dropFront : r.dropFront.store = r.store := rfl

theorem RingBuffer.used_lt (h : 0 < r.size) : r.used < r.size := Nat.mod_lt _ h

theorem RingBuffer.used_add_free (h : 0 < r.size) : r.used + r.free = r.size - 1 := by
  have := RingBuffer.used_lt h
  simp only [RingBuffer.free]
  omega

theorem RingBuffer.WellFormed.pos (h : r.WellFormed n) : 0 < n := Nat.lt_of_le_of_lt (Nat.zero_le _) h.head

/-- `used` without the modulo: head - tail, wrapped once. -/
theorem RingBuffer.WellFormed.used_eq (h : r.WellFormed n) :
    r.used = if r.tail ≤ r.head then r.head - r.tail else r.head + n - r.tail := by
  have h1 := h.head; have h2 := h.tail
  simp only [RingBuffer.used, h.size]
  split
  next ht =>
    rw [show r.head + n - r.tail = (r.head - r.tail) + n by omega, Nat.add_mod_right, Nat.mod_eq_of_lt (by omega)]
  next ht => exact Nat.mod_eq_of_lt (by omega)

/-- The successor of an index, modulo N. -/
theorem succ_mod {k n : Nat} (h : k < n) : (k + 1) % n = if k + 1 = n then 0 else k + 1 := by
  split
  next e => rw [e, Nat.mod_self]
  next => exact Nat.mod_eq_of_lt (by omega)

theorem RingBuffer.WellFormed.push (h : r.WellFormed n) (hp : r.push e = some r') : r'.WellFormed n := by
  obtain ⟨-, rfl⟩ := RingBuffer.push_inv hp
  exact ⟨by simpa [RingBuffer.size] using h.size, by simpa [h.size] using Nat.mod_lt _ h.pos, h.tail⟩

theorem RingBuffer.WellFormed.dropFront (h : r.WellFormed n) : r.dropFront.WellFormed n :=
  ⟨h.size, h.head, by simpa [RingBuffer.dropFront, h.size] using Nat.mod_lt _ h.pos⟩

theorem RingBuffer.WellFormed.clearIndex (h : r.WellFormed n) (i : RingIndex) : (r.clearIndex i).WellFormed n := by
  cases i
  · exact ⟨h.size, h.pos, h.tail⟩
  · exact ⟨h.size, h.head, h.pos⟩

theorem RingBuffer.WellFormed.free_eq (h : r.WellFormed n) : r.free = n - 1 - r.used := by
  simp only [RingBuffer.free, h.size]; omega

/-- A write into a ring that is not full makes it one element fuller. -/
theorem RingBuffer.WellFormed.used_push (h : r.WellFormed n) (hf : 0 < r.free) (hp : r.push e = some r') :
    r'.used = r.used + 1 := by
  have hw := h.push hp
  have hu := h.used_eq
  have hf' := h.free_eq
  rw [hw.used_eq]
  obtain ⟨-, rfl⟩ := RingBuffer.push_inv hp
  have h1 := h.head; have h2 := h.tail
  simp only [h.size, succ_mod h1]
  split at hu <;> split <;> (try split) <;> omega

/-- A read of a ring that is not empty makes it one element emptier. -/
theorem RingBuffer.WellFormed.used_dropFront (h : r.WellFormed n) (hu0 : 0 < r.used) :
    r.dropFront.used = r.used - 1 := by
  have hw := h.dropFront
  have hu := h.used_eq
  rw [hw.used_eq]
  have h1 := h.head; have h2 := h.tail
  simp only [RingBuffer.dropFront, h.size, succ_mod h2]
  split at hu <;> split <;> (try split) <;> omega

theorem RingBuffer.WellFormed.push_some (h : r.WellFormed n) (e : α) : ∃ r', r.push e = some r' :=
  ⟨_, RingBuffer.push_eq (h.size.symm ▸ h.head) e⟩

theorem RingBuffer.WellFormed.pop_some (h : r.WellFormed n) : ∃ e, r.pop = some (e, r.dropFront) :=
  ⟨_, RingBuffer.pop_eq (h.size.symm ▸ h.tail)⟩

/-- MicSinkWrite's loop answers, and keeps the ring well formed. -/
theorem RingBuffer.WellFormed.pushWhileFree (h : r.WellFormed n) (es : List α) :
    ∃ r', r.pushWhileFree es = some r' ∧ r'.WellFormed n := by
  induction es generalizing r with
  | nil => exact ⟨r, rfl, h⟩
  | cons e es ih =>
    simp only [RingBuffer.pushWhileFree]
    split
    · obtain ⟨r1, h1⟩ := h.push_some e
      obtain ⟨r2, h2, h3⟩ := ih (h.push h1)
      exact ⟨r2, by simp [h1, h2], h3⟩
    · exact ih h

/-- The loop of MIC_FETCH answers with as many elements as it reads, moves only the tail, and keeps the ring well
formed. -/
theorem RingBuffer.WellFormed.popMany (h : r.WellFormed n) (m : Nat) :
    ∃ es r', r.popMany m = some (es, r') ∧ es.length = m ∧ r'.WellFormed n ∧ r'.store = r.store ∧
      r'.head = r.head := by
  induction m generalizing r with
  | zero => exact ⟨[], r, rfl, rfl, h, rfl, rfl⟩
  | succ m ih =>
    obtain ⟨e, he⟩ := h.pop_some
    obtain ⟨es, r', h1, h2, h3, h4, h5⟩ := ih h.dropFront
    exact ⟨e :: es, r', by simp [RingBuffer.popMany, he, h1], by simp [h2], h3, h4, h5⟩

theorem RingBuffer.pushWhileFree_append (es fs : List α) :
    r.pushWhileFree (es ++ fs) = (r.pushWhileFree es).bind fun r' => r'.pushWhileFree fs := by
  induction es generalizing r with
  | nil => rfl
  | cons e es ih =>
    simp only [List.cons_append, RingBuffer.pushWhileFree]
    split
    · cases r.push e <;> simp [ih]
    · exact ih

/-! ### The elements held, oldest first (40_ringbuffer R110) -/

/-- An index a few places on, modulo N. -/
theorem add_mod_of_lt {a b n : Nat} (ha : a < n) (hb : b < n) :
    (a + b) % n = if a + b < n then a + b else a + b - n := by
  split
  next h => exact Nat.mod_eq_of_lt h
  next h => rw [Nat.mod_eq_sub_mod (by omega), Nat.mod_eq_of_lt (by omega)]

theorem RingBuffer.WellFormed.used_lt (h : r.WellFormed n) : r.used < n := by
  have := RingBuffer.used_lt (r := r) (by rw [h.size]; exact h.pos)
  rwa [h.size] at this

/-- The slot behind the newest element is the one at head. -/
theorem RingBuffer.WellFormed.slot_used (h : r.WellFormed n) : (r.tail + r.used) % n = r.head := by
  have h1 := h.head; have h2 := h.tail; have h3 := h.used_eq
  rw [add_mod_of_lt h2 h.used_lt]
  split at h3 <;> split <;> omega

/-- No occupied slot is the one at head. -/
theorem RingBuffer.WellFormed.slot_ne_head (h : r.WellFormed n) {k : Nat} (hk : k < r.used) :
    (r.tail + k) % n ≠ r.head := by
  have h1 := h.head; have h2 := h.tail; have h3 := h.used_eq; have h4 := h.used_lt
  rw [add_mod_of_lt h2 (by omega)]
  split at h3 <;> split <;> omega

/-- A slot of a well-formed ring holds an element. -/
theorem RingBuffer.WellFormed.slot_some (h : r.WellFormed n) (k : Nat) :
    ∃ e, r.store[(r.tail + k) % r.size]? = some e := by
  have : (r.tail + k) % r.size < r.store.length := Nat.mod_lt _ (by
    have := h.size; have := h.pos; simp only [RingBuffer.size] at *; omega)
  exact ⟨_, List.getElem?_eq_getElem this⟩

theorem RingBuffer.WellFormed.contents_length (h : r.WellFormed n) : r.contents.length = r.used := by
  unfold RingBuffer.contents
  generalize r.used = u
  induction u with
  | zero => rfl
  | succ u ih =>
    obtain ⟨e, he⟩ := h.slot_some u
    simp [List.range_succ, List.filterMap_append, ih, he]

theorem RingBuffer.WellFormed.contents_push (h : r.WellFormed n) (hf : 0 < r.free) (hp : r.push e = some r') :
    r'.contents = r.contents ++ [e] := by
  have hu := h.used_push hf hp
  obtain ⟨hh, hr'⟩ := RingBuffer.push_inv hp
  have hsize : r'.size = r.size := by rw [hr']; simp [RingBuffer.size]
  have htail : r'.tail = r.tail := by rw [hr']
  have hstore : r'.store = r.store.set r.head e := by rw [hr']
  unfold RingBuffer.contents
  rw [hu, hsize, htail, hstore, h.size, List.range_succ, List.filterMap_append]
  congr 1
  · apply List.filterMap_congr
    intro k hk
    rw [List.getElem?_set_ne]
    exact (h.slot_ne_head (List.mem_range.mp hk)).symm
  · have : r.head < r.store.length := hh
    simp [h.slot_used, this]

theorem RingBuffer.WellFormed.contents_pop (h : r.WellFormed n) (hu : 0 < r.used) (hp : r.pop = some (e, r')) :
    r.contents = e :: r'.contents := by
  obtain ⟨he, rfl⟩ := RingBuffer.pop_inv hp
  have hd := h.used_dropFront hu
  have hlt : r.tail < n := h.tail
  unfold RingBuffer.contents
  rw [hd, show r.used = (r.used - 1) + 1 by omega, List.range_succ_eq_map, List.filterMap_cons]
  simp only [Nat.add_zero, h.size, Nat.mod_eq_of_lt hlt, he, Nat.add_sub_cancel, List.filterMap_map]
  congr 1
  apply List.filterMap_congr
  intro k _
  have hs : r.dropFront.size = n := h.size
  rw [Function.comp_apply, hs, RingBuffer.store_dropFront]
  simp [RingBuffer.dropFront, h.size, Nat.add_comm k 1, Nat.add_assoc]

theorem RingBuffer.contents_of_used_zero (h : r.used = 0) : r.contents = [] := by
  simp [RingBuffer.contents, h]

/-- MicSinkWrite's loop keeps as many samples as there is room for, in order, and does not move the tail. -/
theorem RingBuffer.WellFormed.contents_pushWhileFree (h : r.WellFormed n) (es : List α)
    (hp : r.pushWhileFree es = some r') :
    r'.contents = r.contents ++ es.take r.free ∧ r'.tail = r.tail := by
  induction es generalizing r with
  | nil => cases hp; simp
  | cons e es ih =>
    simp only [RingBuffer.pushWhileFree] at hp
    split at hp
    next hf =>
      obtain ⟨r1, h1⟩ := h.push_some e
      rw [h1] at hp
      obtain ⟨h2, h3⟩ := ih (h.push h1) hp
      have hu := h.used_push hf h1
      have hfree : r1.free = r.free - 1 := by rw [(h.push h1).free_eq, h.free_eq, hu]; omega
      refine ⟨?_, ?_⟩
      · rw [h2, h.contents_push hf h1, hfree, show r.free = (r.free - 1) + 1 by omega]
        simp
      · rw [h3, (RingBuffer.push_inv h1).2]
    next hf =>
      obtain ⟨h2, h3⟩ := ih h hp
      have : r.free = 0 := by omega
      exact ⟨by simpa [this] using h2, h3⟩

/-- MicSinkWrite's loop stores to no slot but the next ones from head. -/
theorem RingBuffer.WellFormed.read_pushWhileFree (h : r.WellFormed n) (es : List α)
    (hp : r.pushWhileFree es = some r') {k : Nat} (hk : ∀ m, m < min es.length r.free → k ≠ (r.head + m) % n) :
    memRead r'.store k = memRead r.store k := by
  induction es generalizing r with
  | nil => cases hp; rfl
  | cons e es ih =>
    simp only [RingBuffer.pushWhileFree] at hp
    split at hp
    next hf =>
      obtain ⟨r1, h1⟩ := h.push_some e
      rw [h1] at hp
      have hw := h.push h1
      have hu := h.used_push hf h1
      have hfree : r1.free = r.free - 1 := by rw [hw.free_eq, h.free_eq, hu]; omega
      have h1' := (RingBuffer.push_inv h1).2
      have hhead : r1.head = (r.head + 1) % n := by rw [h1', h.size]
      rw [ih hw hp]
      · have hne := hk 0 (by simp; omega)
        rw [Nat.add_zero, Nat.mod_eq_of_lt h.head] at hne
        rw [h1']
        simp [memRead, List.getElem?_set_ne hne.symm]
      · intro m hm
        have := hk (m + 1) (by simp only [List.length_cons]; omega)
        rwa [hhead, Nat.mod_add_mod, Nat.add_assoc, Nat.add_comm 1 m]
    next hf => exact ih h hp fun m hm => absurd hm (by omega)

/-- The loop of MIC_FETCH returns the oldest elements and moves the tail past them. -/
theorem RingBuffer.WellFormed.popMany_eq (h : r.WellFormed n) {m : Nat} (hm : m ≤ r.used) :
    r.popMany m = some (r.contents.take m, ⟨r.store, r.head, (r.tail + m) % r.size⟩) := by
  induction m generalizing r with
  | zero =>
    have := h.tail
    simp [RingBuffer.popMany, h.size, Nat.mod_eq_of_lt this]
  | succ m ih =>
    obtain ⟨e, he⟩ := h.pop_some
    have hd := h.used_dropFront (by omega)
    have := ih h.dropFront (by omega)
    simp only [RingBuffer.popMany, he, Option.bind_some, this, Option.map_some]
    rw [h.contents_pop (by omega) he]
    rw [List.take_succ_cons]
    simp [RingBuffer.dropFront, RingBuffer.size, Nat.add_comm m 1, Nat.add_assoc]

end

/-! ### The form of the memory -/

variable {s : State}

theorem Memory.wf_reset : Memory.wf State.reset := by decide

theorem Memory.wf_setRaw (h : Memory.wf s) {r : RingBuffer Byte} (hr : r.size = s.raw.size) : Memory.wf (s.setRaw r) :=
  ⟨hr.trans h.1, h.2⟩

theorem Memory.wf_setMic (h : Memory.wf s) {r : RingBuffer Sample} (hr : r.size = s.mic.size) : Memory.wf (s.setMic r) :=
  ⟨h.1, hr.trans h.2.1, h.2.2⟩

theorem Memory.wf_setRing (h : Memory.wf s) {i : Nat} {r r' : RingBuffer Nat} (hi : s.ring? i = some r)
    (hr : r'.size = r.size) : Memory.wf (s.setRing i r') := by
  refine ⟨h.1, h.2.1, ?_, h.2.2.2⟩
  have hi' : s.rings[i - 2]? = some r := by
    unfold State.ring? at hi
    split at hi
    · exact hi
    · cases hi
  have hlt : i - 2 < s.rings.length := (List.getElem?_eq_some_iff.mp hi').1
  have hget : s.rings[i - 2] = r := (List.getElem?_eq_some_iff.mp hi').2
  refine Eq.trans ?_ h.2.2.1
  rw [State.setRing_rings, List.map_set]
  apply List.ext_getElem?
  intro k
  by_cases hk : i - 2 = k
  · subst hk
    simp only [RingBuffer.size] at hr
    simp [hlt, hget, hr]
  · simp [List.getElem?_set_ne hk]

theorem Memory.wf_setBuf (h : Memory.wf s) (b : BufIx) {v : List Native} (hv : v.length = s.cfg.blockLen) :
    Memory.wf (s.setBuf b v) := by
  cases b
  · exact ⟨h.1, h.2.1, h.2.2.1, hv, h.2.2.2.2⟩
  · exact ⟨h.1, h.2.1, h.2.2.1, h.2.2.2.1, hv⟩

end Sys2Proof.Machine
end

