-- ==== Sys2Proof/Laws/Effects.lean ====
section
/-! SUPPORT. Everything a step can do, said once: what each operation, each later step of an operation and the DMA
engine's step do when they answer a next state. Invariants and frames follow by cases on these. -/

namespace Sys2Proof.Machine

/-- The operations that only drive result ports. -/
def readsOnly : Instr → Bool
  | .rbPeek _ | .rbUsed _ | .rbFree _ => true
  | .clkNow | .clkDelayFrom | .clkHasPassed => true
  | .dbState _ | .ppPlaying | .sysIdle | .sysStatus => true
  | .rbWrite _ | .rbRead _ | .rbFlush _ | .clkTick | .dbInit _ | .dbSample _ => false
  | .decPush | .decDrain | .micFetch | .ppStart | .ppComplete | .ppPoll | .ppFill => false

/-- What an operation that passed its checks and raised no model fault does, for the issuing context `x`. -/
inductive CommandEffect (x : Context) (s : State) : Instr → State → Prop
  /-- only the result ports are driven -/
  | ports (i : Instr) (r : Results) (hi : readsOnly i = true) : CommandEffect x s i (s.setResults x r)
  | rbWriteFull (inst : InstNo) (r : RingBuffer Nat) (hr : s.ring? inst.toNat = some r) (hf : r.free = 0) :
      CommandEffect x s (.rbWrite inst) (s.setResults x (okResult false))
  | rbWrite (inst : InstNo) (r r' : RingBuffer Nat) (hr : s.ring? inst.toNat = some r) (hf : r.free ≠ 0)
      (hp : r.push s.cmd.arg0 = some r') :
      CommandEffect x s (.rbWrite inst) ((s.setRing inst.toNat r').setResults x (okResult true))
  | rbReadEmpty (inst : InstNo) (r : RingBuffer Nat) (hr : s.ring? inst.toNat = some r) (hu : r.used = 0) :
      CommandEffect x s (.rbRead inst) (s.setResults x (okResult false))
  | rbRead (inst : InstNo) (r r' : RingBuffer Nat) (e : Nat) (hr : s.ring? inst.toNat = some r) (hu : r.used ≠ 0)
      (hp : r.pop = some (e, r')) :
      CommandEffect x s (.rbRead inst) ((s.setRing inst.toNat r').setResults x (okResResult e))
  | rbFlush (inst : InstNo) (r : RingBuffer Nat) (hr : s.ring? inst.toNat = some r) :
      CommandEffect x s (.rbFlush inst)
        ((s.afterFlushDraw.setRing inst.toNat (r.clearIndex (flushFirst s))).setProgress x
          (.flush inst (otherIndex (flushFirst s))))
  | clkTick : CommandEffect x s .clkTick ({ s with cnt := (s.cnt + 1) % s.cfg.clockModulus }.setResults x .blank)
  | dbInit (inst : InstNo) (d : Option Debounce) (hd : s.db[inst.toNat]? = some d) :
      CommandEffect x s (.dbInit inst)
        ((s.setDebounce inst.toNat ⟨s.cfg.intTop inst.toNat / 2, .undefined⟩).setResults x .blank)
  | dbSample (inst : InstNo) (d : Debounce) (integ : Nat) (edge : Option Bool)
      (hd : s.db[inst.toNat]? = some (some d))
      (hi : integ = integrate (s.cfg.intTop inst.toNat) d.integ (decide (s.cmd.arg0 = 1)))
      (he : edge = edgeOf (s.cfg.intTop inst.toNat) integ d.dstate) :
      CommandEffect x s (.dbSample inst)
        ((emitEdge inst x edge (s.setDebounce inst.toNat ⟨integ, stateAfterEdge d.dstate edge⟩)).setResults x
          (edgeResult edge (s.cfg.dbId inst.toNat)))
  | decPush (r : RingBuffer Byte) (hf : s.raw.free ≠ 0) (hp : s.raw.push (BitVec.ofNat 8 s.cmd.arg0) = some r) :
      CommandEffect x s .decPush ((s.setRaw r).setResults x .blank)
  | decPushFull (hf : s.raw.free = 0) :
      CommandEffect x s .decPush { s with halted := true, haltCode := .decOverflow, diag := s.diag ++ [.decOverflow] }
  | decDrainEmpty (hu : s.raw.used < s.cfg.decIn) :
      CommandEffect x s .decDrain ((s.setProgress x .idle).setResults x (resResult 0))
  | decDrain (hu : s.cfg.decIn ≤ s.raw.used) :
      CommandEffect x s .decDrain (s.setProgress x (.drain ⟨.collect, 0, [], 0⟩))
  | micFetch (samples : List Sample) (r : RingBuffer Sample)
      (hp : s.mic.popMany (min s.mic.used s.cfg.micBlock) = some (samples, r)) :
      CommandEffect x s .micFetch ((s.setMic r).setResults x
        (blockResult (min s.mic.used s.cfg.micBlock) (micBlock s.cfg samples)))
  | ppStart (hp : s.pp = none) : CommandEffect x s .ppStart ((s.setPlayback playbackStart).setResults x .blank)
  | ppComplete (p : Playback) (hp : s.pp = some p) (hd : p.dmaPending = true) :
      CommandEffect x s .ppComplete ((s.setPlayback (completed p)).setResults x .blank)
  | ppPollOverrun (p : Playback) (hp : s.pp = some p) (hw : p.phase = .wait) (he : p.playing = p.expected)
      (hi : p.idleCount = 0) :
      CommandEffect x s .ppPoll { s with halted := true, haltCode := .pbOverrun, diag := s.diag ++ [.pbOverrun] }
  | ppPollReady (p : Playback) (hp : s.pp = some p) (hw : p.phase = .wait) (he : p.playing = p.expected)
      (hi : p.idleCount ≠ 0) :
      CommandEffect x s .ppPoll
        ((s.setPlayback { p with phase := .fill, idleCount := 0 }).setResults x (okResult true))
  | ppPollIdle (p : Playback) (hp : s.pp = some p) (hw : p.phase = .wait) (he : p.playing ≠ p.expected) :
      CommandEffect x s .ppPoll
        ((s.setPlayback { p with idleCount := p.idleCount + 1 }).setResults x (okResult false))
  | ppFill (p : Playback) (hp : s.pp = some p) (hf : p.phase = .fill)
      (ho : ¬ (p.dmaActive = true ∧ p.dmaBuf = p.expected.other)) :
      CommandEffect x s .ppFill
        (((s.setBuf p.expected.other (s.cmd.blkIn.map (sampleConvert s.cfg))).setPlayback
          { p with expected := p.expected.other, phase := .wait, idleCount := 0 }).setResults x .blank)

/-- What a later atomic step of an operation that context `x` has in progress does. -/
inductive ResumeEffect (x : Context) (s : State) : State → Prop
  /-- an idle context has no step -/
  | idle (hp : s.progress.get x = .idle) : ResumeEffect x s s
  | flush (inst : InstNo) (i : RingIndex) (r : RingBuffer Nat) (hp : s.progress.get x = .flush inst i)
      (hr : s.ring? inst.toNat = some r) :
      ResumeEffect x s (((s.setRing inst.toNat (r.clearIndex i)).setProgress x .idle).setResults x .blank)
  | drainDone (d : Drain) (hp : s.progress.get x = .drain d) (hd : d.phase = .check) (hu : s.raw.used < s.cfg.decIn) :
      ResumeEffect x s ((s.setProgress x .idle).setResults x (resResult d.blocks))
  | drainBlock (d : Drain) (hp : s.progress.get x = .drain d) (hd : d.phase = .check) (hu : s.cfg.decIn ≤ s.raw.used) :
      ResumeEffect x s (s.setProgress x (.drain ⟨.collect, 0, [], d.blocks⟩))
  | drainCollect (d : Drain) (e : Byte) (r : RingBuffer Byte) (hp : s.progress.get x = .drain d) (hd : d.phase = .collect)
      (he : s.raw.pop = some (e, r)) :
      ResumeEffect x s ((s.setRaw r).setProgress x
        (.drain ⟨if d.k + 1 < s.cfg.decIn then .collect else .emit, d.k + 1, d.acc ++ [e], d.blocks⟩))
  | drainOverflow (d : Drain) (hp : s.progress.get x = .drain d) (hd : d.phase = .emit)
      (hf : s.cfg.micFullPolicy = .fatal ∧ s.mic.free < s.cfg.decOut) :
      ResumeEffect x s { s with halted := true, haltCode := .micOverflow, diag := s.diag ++ [.micOverflow] }
  | drainEmit (d : Drain) (r : RingBuffer Sample) (hp : s.progress.get x = .drain d) (hd : d.phase = .emit)
      (hf : ¬ (s.cfg.micFullPolicy = .fatal ∧ s.mic.free < s.cfg.decOut))
      (hr : s.mic.pushWhileFree (filterBlock s.cfg s.fs d.acc) = some r) :
      ResumeEffect x s (({ s with fs := filterState s.cfg s.fs d.acc }.setMic r).setProgress x
        (.drain ⟨.check, d.k, d.acc, d.blocks + 1⟩))

/-- What the DMA engine's turn does. -/
inductive DmaEffect (s : State) : State → Prop
  /-- the engine has no step -/
  | idle : DmaEffect s s
  | done (p : Playback) (hp : s.pp = some p) (ha : p.dmaActive = true) (hd : p.dmaPending = false) :
      DmaEffect s ({ s with played := s.played ++ [(p.dmaBuf, s.buf p.dmaBuf)] }.setPlayback
        { p with dmaActive := false, dmaPending := true })

/-- An operation that answers a next state raised a model fault and changed nothing else, or had its effect. -/
theorem exec_effect {i : Instr} {s t : State} (h : exec i s = .next t) :
    Running s ∧
    ((∃ code, t = { s with fault := some (.command code s.cmd.ctx s.cmd.word) }) ∨
     ∃ x, Issuable i x s ∧ CommandEffect x s i t) := by
  have key : ∀ rule : Context → Result, exec i s = issue i s rule →
      (∀ x t, Issuable i x s → rule x = .next t →
        (∃ code, t = { s with fault := some (.command code s.cmd.ctx s.cmd.word) }) ∨ CommandEffect x s i t) →
      Running s ∧
      ((∃ code, t = { s with fault := some (.command code s.cmd.ctx s.cmd.word) }) ∨
       ∃ x, Issuable i x s ∧ CommandEffect x s i t) := by
    intro rule h1 h2
    rw [h1] at h
    obtain ⟨hr, hc | ⟨x, hi, hx⟩⟩ := issue_next h
    · exact ⟨hr, .inl hc⟩
    · obtain hc | he := h2 x t hi hx
      · exact ⟨hr, .inl hc⟩
      · exact ⟨hr, .inr ⟨x, hi, he⟩⟩
  cases i with
  | rbWrite inst =>
    refine key _ rfl fun x t _ hx => .inr ?_
    obtain ⟨r, hr, hx⟩ := withRing_next hx
    split at hx
    next hf => cases hx; exact .rbWriteFull inst r hr hf
    next hf =>
    split at hx
    next r' hp => cases hx; exact .rbWrite inst r r' hr hf hp
    next => cases hx
  | rbRead inst =>
    refine key _ rfl fun x t _ hx => .inr ?_
    obtain ⟨r, hr, hx⟩ := withRing_next hx
    split at hx
    next hu => cases hx; exact .rbReadEmpty inst r hr hu
    next hu =>
    split at hx
    next e r' hp => cases hx; exact .rbRead inst r r' e hr hu hp
    next => cases hx
  | rbPeek inst =>
    refine key _ rfl fun x t _ hx => .inr ?_
    obtain ⟨r, hr, hx⟩ := withRing_next hx
    split at hx
    · cases hx; exact .ports _ _ rfl
    split at hx
    · cases hx; exact .ports _ _ rfl
    · cases hx
  | rbUsed inst =>
    refine key _ rfl fun x t _ hx => .inr ?_
    simp only [ringCount] at hx
    split at hx
    · cases hx; exact .ports _ _ rfl
    · cases hx; exact .ports _ _ rfl
    · obtain ⟨r, hr, hx⟩ := withRing_next hx
      cases hx; exact .ports _ _ rfl
  | rbFree inst =>
    refine key _ rfl fun x t _ hx => .inr ?_
    simp only [ringCount] at hx
    split at hx
    · cases hx; exact .ports _ _ rfl
    · cases hx; exact .ports _ _ rfl
    · obtain ⟨r, hr, hx⟩ := withRing_next hx
      cases hx; exact .ports _ _ rfl
  | rbFlush inst =>
    refine key _ rfl fun x t _ hx => .inr ?_
    obtain ⟨r, hr, hx⟩ := withRing_next hx
    cases hx; exact .rbFlush inst r hr
  | clkTick => exact key _ rfl fun x t _ hx => .inr (by cases hx; exact .clkTick)
  | clkNow => exact key _ rfl fun x t _ hx => .inr (by cases hx; exact .ports _ _ rfl)
  | clkDelayFrom => exact key _ rfl fun x t _ hx => .inr (by cases hx; exact .ports _ _ rfl)
  | clkHasPassed => exact key _ rfl fun x t _ hx => .inr (by cases hx; exact .ports _ _ rfl)
  | dbInit inst =>
    refine key _ rfl fun x t _ hx => .inr ?_
    obtain ⟨d, hd, hx⟩ := withDebounce_next hx
    cases hx; exact .dbInit inst d hd
  | dbSample inst =>
    refine key _ rfl fun x t _ hx => ?_
    obtain ⟨d, hd, hx⟩ := withDebounce_next hx
    split at hx
    · cases hx; exact .inl ⟨_, rfl⟩
    next d => cases hx; exact .inr (.dbSample inst d _ _ hd rfl rfl)
  | dbState inst =>
    refine key _ rfl fun x t _ hx => ?_
    obtain ⟨d, hd, hx⟩ := withDebounce_next hx
    split at hx
    · cases hx; exact .inl ⟨_, rfl⟩
    · cases hx; exact .inr (.ports _ _ rfl)
  | decPush =>
    refine key _ rfl fun x t _ hx => .inr ?_
    split at hx
    next hf => cases hx; exact .decPushFull hf
    next hf =>
    split at hx
    next r hp => cases hx; exact .decPush r hf hp
    next => cases hx
  | decDrain =>
    refine key _ rfl fun x t _ hx => .inr ?_
    simp only [drainCheck] at hx
    split at hx
    next hu => cases hx; exact .decDrainEmpty hu
    next hu => cases hx; exact .decDrain (by omega)
  | micFetch =>
    refine key _ rfl fun x t _ hx => .inr ?_
    split at hx
    next samples r hp => cases hx; exact .micFetch samples r hp
    next => cases hx
  | ppStart =>
    refine key _ rfl fun x t _ hx => ?_
    split at hx
    · cases hx; exact .inl ⟨_, rfl⟩
    next hp => cases hx; exact .inr (.ppStart hp)
  | ppComplete =>
    refine key _ rfl fun x t _ hx => ?_
    split at hx
    · cases hx; exact .inl ⟨_, rfl⟩
    next p hp =>
    split at hx
    · cases hx; exact .inl ⟨_, rfl⟩
    next hd => cases hx; exact .inr (.ppComplete p hp (by simpa using hd))
  | ppPoll =>
    refine key _ rfl fun x t _ hx => ?_
    split at hx
    · cases hx; exact .inl ⟨_, rfl⟩
    next p hp =>
    split at hx
    · cases hx; exact .inl ⟨_, rfl⟩
    next hw =>
    have hw : p.phase = .wait := by simpa using hw
    split at hx
    next he =>
      split at hx
      next hi => cases hx; exact .inr (.ppPollOverrun p hp hw he hi)
      next hi => cases hx; exact .inr (.ppPollReady p hp hw he hi)
    next he => cases hx; exact .inr (.ppPollIdle p hp hw he)
  | ppFill =>
    refine key _ rfl fun x t _ hx => ?_
    split at hx
    · cases hx; exact .inl ⟨_, rfl⟩
    next p hp =>
    split at hx
    · cases hx; exact .inl ⟨_, rfl⟩
    next hf =>
    split at hx
    · cases hx; exact .inl ⟨_, rfl⟩
    next ho => cases hx; exact .inr (.ppFill p hp (by simpa using hf) ho)
  | ppPlaying =>
    refine key _ rfl fun x t _ hx => ?_
    split at hx
    · cases hx; exact .inl ⟨_, rfl⟩
    · cases hx; exact .inr (.ports _ _ rfl)
  | sysIdle => exact key _ rfl fun x t _ hx => .inr (by cases hx; exact .ports _ _ rfl)
  | sysStatus => exact key _ rfl fun x t _ hx => .inr (by cases hx; exact .ports _ _ rfl)

theorem resumeStep_effect {x : Context} {s t : State} (h : resumeStep x s = .next t) : ResumeEffect x s t := by
  unfold resumeStep at h
  split at h
  next hp => cases h; exact .idle hp
  next inst i hp =>
    obtain ⟨r, hr, h⟩ := withRing_next h
    cases h; exact .flush inst i r hp hr
  next d hp =>
    unfold drainStep at h
    split at h
    next hd =>
      unfold drainCheck at h
      split at h
      next hu => cases h; exact .drainDone d hp hd hu
      next hu => cases h; exact .drainBlock d hp hd (by omega)
    next hd =>
      unfold drainCollect at h
      split at h
      next e r he => cases h; exact .drainCollect d e r hp hd he
      next => cases h
    next hd =>
      unfold drainEmit at h
      split at h
      next hf => cases h; exact .drainOverflow d hp hd hf
      next hf =>
      split at h
      next r hr => cases h; exact .drainEmit d r hp hd hf hr
      next => cases h

theorem dmaStep_effect {s t : State} (h : dmaStep s = .next t) : DmaEffect s t := by
  unfold dmaStep at h
  split at h
  · cases h; exact .idle
  next p hp =>
  split at h
  next ha => cases h; exact .done p hp ha.1 ha.2
  next => cases h; exact .idle

/-- What an agent's turn does: nothing (a busy context, log 2), a model fault and nothing else, an operation's effect, a
later step's or the DMA engine's. -/
theorem takeEvent_effect {e : Event} {s t : State} (h : takeEvent e s = .next t) :
    (∃ cmd, e = .command cmd ∧
      (t = s ∨ (∃ code, t = { s with cmd := cmd, fault := some (.command code cmd.ctx cmd.word) }) ∨
        ∃ i x, decode cmd.word = .ok i ∧ Issuable i x { s with cmd := cmd } ∧ s.progress.get x = .idle ∧
          CommandEffect x { s with cmd := cmd } i t)) ∨
    (∃ x, e = .resume x ∧ ResumeEffect x s t) ∨
    (e = .dma ∧ DmaEffect s t) := by
  cases e with
  | command cmd =>
    refine .inl ⟨cmd, rfl, ?_⟩
    simp only [takeEvent] at h
    split at h
    · cases h; exact .inl rfl
    next hb =>
    unfold runCommand at h
    split at h
    next i hi =>
      obtain ⟨-, hc | ⟨x, his, he⟩⟩ := exec_effect h
      · exact .inr (.inl hc)
      · refine .inr (.inr ⟨i, x, hi, his, ?_, he⟩)
        have hx : contextOfId cmd.ctx = some x := his.context
        simpa [busy, hx] using hb
    · cases h; exact .inr (.inl ⟨_, rfl⟩)
  | resume x => exact .inr (.inl ⟨x, rfl, resumeStep_effect h⟩)
  | dma => exact .inr (.inr ⟨rfl, dmaStep_effect h⟩)

/-- The same of a step: it takes the next event, in the state without it. -/
theorem step_effect {s t : State} (h : step s = .next t) :
    Running s ∧ Running s.afterEvent ∧ takeEvent (nextEvent s) s.afterEvent = .next t := by
  rw [step_eq_stepOn] at h
  obtain ⟨hr, ht⟩ := stepOn_next h
  refine ⟨?_, hr, ht⟩
  have h1 : s.afterEvent.halted = s.halted := by unfold State.afterEvent; split <;> rfl
  have h2 : s.afterEvent.fault = s.fault := by unfold State.afterEvent; split <;> rfl
  exact ⟨h1 ▸ hr.1, h2 ▸ hr.2⟩

/-- An invariant that every effect keeps, and that the environment's fields and the fault record do not matter to, is
kept by every step. -/
theorem step_keeps (I : State → Prop)
    (henv : ∀ s cmd events draws, I s → I { s with cmd := cmd, events := events, draws := draws })
    (hfault : ∀ s fault, I s → I { s with fault := fault })
    (hcommand : ∀ s x i t, Running s → I s → s.progress.get x = .idle → Issuable i x s → CommandEffect x s i t → I t)
    (hresume : ∀ s x t, Running s → I s → ResumeEffect x s t → I t)
    (hdma : ∀ s t, Running s → I s → DmaEffect s t → I t) {s t : State} (hI : I s) (h : step s = .next t) : I t := by
  obtain ⟨-, hr, h⟩ := step_effect h
  have hI' : I s.afterEvent := by
    unfold State.afterEvent
    split
    · exact henv s s.cmd _ s.draws hI
    · exact henv s s.cmd s.events _ hI
  obtain ⟨cmd, -, h⟩ | ⟨x, -, h⟩ | ⟨-, h⟩ := takeEvent_effect h
  · obtain h | ⟨code, h⟩ | ⟨i, x, -, hi, hx, he⟩ := h
    · rw [h]; exact hI'
    · rw [h]; exact henv _ cmd _ _ (hfault _ (some (.command code cmd.ctx cmd.word)) hI')
    · exact hcommand { s.afterEvent with cmd := cmd } x i t ⟨hr.1, hr.2⟩
        (henv s.afterEvent cmd s.afterEvent.events s.afterEvent.draws hI') hx hi he
  · exact hresume _ x t hr hI' h
  · exact hdma _ t hr hI' h

end Sys2Proof.Machine
end

