-- ==== Sys2Proof/Laws/PerInstr.lean ====
section
/-! SUPPORT. The opcode table's match and mask of every operation (opcode_table.json, 30_encoding R85), and that the
encoder gives a word of the operation's own row. -/

namespace Sys2Proof.Laws.TableRow

/-- The row's mask. -/
def rowMask : Instr → CommandWord
  | .rbWrite _ => 0xFF00FFFF#32
  | .rbRead _ => 0xFF00FFFF#32
  | .rbPeek _ => 0xFF00FFFF#32
  | .rbUsed _ => 0xFF00FFFF#32
  | .rbFree _ => 0xFF00FFFF#32
  | .rbFlush _ => 0xFF00FFFF#32
  | .clkTick => 0xFFFFFFFF#32
  | .clkNow => 0xFFFFFFFF#32
  | .clkDelayFrom => 0xFFFFFFFF#32
  | .clkHasPassed => 0xFFFFFFFF#32
  | .dbInit _ => 0xFF00FFFF#32
  | .dbSample _ => 0xFF00FFFF#32
  | .dbState _ => 0xFF00FFFF#32
  | .decPush => 0xFFFFFFFF#32
  | .decDrain => 0xFFFFFFFF#32
  | .micFetch => 0xFFFFFFFF#32
  | .ppStart => 0xFFFFFFFF#32
  | .ppComplete => 0xFFFFFFFF#32
  | .ppPoll => 0xFFFFFFFF#32
  | .ppFill => 0xFFFFFFFF#32
  | .ppPlaying => 0xFFFFFFFF#32
  | .sysIdle => 0xFFFFFFFF#32
  | .sysStatus => 0xFFFFFFFF#32

/-- The row's match. -/
def rowMatch : Instr → CommandWord
  | .rbWrite _ => 0x00000000#32
  | .rbRead _ => 0x01000000#32
  | .rbPeek _ => 0x02000000#32
  | .rbUsed _ => 0x03000000#32
  | .rbFree _ => 0x04000000#32
  | .rbFlush _ => 0x05000000#32
  | .clkTick => 0x10000000#32
  | .clkNow => 0x11000000#32
  | .clkDelayFrom => 0x12000000#32
  | .clkHasPassed => 0x13000000#32
  | .dbInit _ => 0x20000000#32
  | .dbSample _ => 0x21000000#32
  | .dbState _ => 0x22000000#32
  | .decPush => 0x30000000#32
  | .decDrain => 0x31000000#32
  | .micFetch => 0x32000000#32
  | .ppStart => 0x40000000#32
  | .ppComplete => 0x41000000#32
  | .ppPoll => 0x42000000#32
  | .ppFill => 0x43000000#32
  | .ppPlaying => 0x44000000#32
  | .sysIdle => 0x50000000#32
  | .sysStatus => 0x51000000#32

/-- The operation's word is a word of its own row of the table. -/
def Statement (i : Instr) : Prop := encode i &&& rowMask i = rowMatch i

/-- The bits of a word outside INST do not depend on INST. -/
theorem commandWord_masked (unit op : BitVec 4) (inst : InstNo) :
    commandWord unit op inst &&& 0xFF00FFFF#32 = commandWord unit op 0 := by
  apply BitVec.eq_of_getLsbD_eq
  intro k hk
  simp only [commandWord, BitVec.getLsbD_and, BitVec.getLsbD_append]
  interval_cases k <;> simp

theorem rbWrite (inst : InstNo) : Statement (.rbWrite inst) :=
  (commandWord_masked _ _ inst).trans rfl

theorem rbRead (inst : InstNo) : Statement (.rbRead inst) :=
  (commandWord_masked _ _ inst).trans rfl

theorem rbPeek (inst : InstNo) : Statement (.rbPeek inst) :=
  (commandWord_masked _ _ inst).trans rfl

theorem rbUsed (inst : InstNo) : Statement (.rbUsed inst) :=
  (commandWord_masked _ _ inst).trans rfl

theorem rbFree (inst : InstNo) : Statement (.rbFree inst) :=
  (commandWord_masked _ _ inst).trans rfl

theorem rbFlush (inst : InstNo) : Statement (.rbFlush inst) :=
  (commandWord_masked _ _ inst).trans rfl

theorem clkTick : Statement .clkTick := by
  unfold Statement; decide

theorem clkNow : Statement .clkNow := by
  unfold Statement; decide

theorem clkDelayFrom : Statement .clkDelayFrom := by
  unfold Statement; decide

theorem clkHasPassed : Statement .clkHasPassed := by
  unfold Statement; decide

theorem dbInit (inst : InstNo) : Statement (.dbInit inst) :=
  (commandWord_masked _ _ inst).trans rfl

theorem dbSample (inst : InstNo) : Statement (.dbSample inst) :=
  (commandWord_masked _ _ inst).trans rfl

theorem dbState (inst : InstNo) : Statement (.dbState inst) :=
  (commandWord_masked _ _ inst).trans rfl

theorem decPush : Statement .decPush := by
  unfold Statement; decide

theorem decDrain : Statement .decDrain := by
  unfold Statement; decide

theorem micFetch : Statement .micFetch := by
  unfold Statement; decide

theorem ppStart : Statement .ppStart := by
  unfold Statement; decide

theorem ppComplete : Statement .ppComplete := by
  unfold Statement; decide

theorem ppPoll : Statement .ppPoll := by
  unfold Statement; decide

theorem ppFill : Statement .ppFill := by
  unfold Statement; decide

theorem ppPlaying : Statement .ppPlaying := by
  unfold Statement; decide

theorem sysIdle : Statement .sysIdle := by
  unfold Statement; decide

theorem sysStatus : Statement .sysStatus := by
  unfold Statement; decide

end Sys2Proof.Laws.TableRow
end

