-- ==== Sys2Proof/Machine/Assembly.lean ====
section
/-! DEFINITION. The textual form of an operation (30_encoding R91). `step` does not use this file. -/

namespace Sys2Proof.Machine

/-- The mnemonic of 30_encoding R85. -/
def mnemonic : Instr → String
  | .rbWrite _ => "RB_WRITE"
  | .rbRead _ => "RB_READ"
  | .rbPeek _ => "RB_PEEK"
  | .rbUsed _ => "RB_USED"
  | .rbFree _ => "RB_FREE"
  | .rbFlush _ => "RB_FLUSH"
  | .clkTick => "CLK_TICK"
  | .clkNow => "CLK_NOW"
  | .clkDelayFrom => "CLK_DELAY_FROM"
  | .clkHasPassed => "CLK_HAS_PASSED"
  | .dbInit _ => "DB_INIT"
  | .dbSample _ => "DB_SAMPLE"
  | .dbState _ => "DB_STATE"
  | .decPush => "DEC_PUSH"
  | .decDrain => "DEC_DRAIN"
  | .micFetch => "MIC_FETCH"
  | .ppStart => "PP_START"
  | .ppComplete => "PP_COMPLETE"
  | .ppPoll => "PP_POLL"
  | .ppFill => "PP_FILL"
  | .ppPlaying => "PP_PLAYING"
  | .sysIdle => "SYS_IDLE"
  | .sysStatus => "SYS_STATUS"

/-- The prefix of the issuing context. -/
def contextPrefix : Context → String
  | .task => "@TASK"
  | .tickIsr => "@TICK"
  | .bitstreamIsr => "@BITS"
  | .dmaIsr => "@DMAI"

/-- The instance of an RB or DB operation: rb<i> or db<j>. -/
def instText : Instr → List String
  | .rbWrite i | .rbRead i | .rbPeek i | .rbUsed i | .rbFree i | .rbFlush i => ["rb" ++ toString i.toNat]
  | .dbInit j | .dbSample j | .dbState j => ["db" ++ toString j.toNat]
  | .clkTick | .clkNow | .clkDelayFrom | .clkHasPassed | .decPush | .decDrain | .micFetch => []
  | .ppStart | .ppComplete | .ppPoll | .ppFill | .ppPlaying | .sysIdle | .sysStatus => []

/-- Texts with a comma between them. -/
def commaSeparated : List String → String
  | [] => ""
  | [t] => t
  | t :: ts => t ++ ", " ++ commaSeparated ts

/-- The operands of 30_encoding R89 in the order arg0, arg1; a block as a bracketed list. -/
def operandTexts (cmd : Command) : Instr → List String
  | .rbWrite _ | .clkHasPassed | .dbSample _ | .decPush => [toString cmd.arg0]
  | .clkDelayFrom => [toString cmd.arg0, toString cmd.arg1]
  | .ppFill => ["[" ++ commaSeparated (cmd.blkIn.map toString) ++ "]"]
  | .rbRead _ | .rbPeek _ | .rbUsed _ | .rbFree _ | .rbFlush _ | .clkTick | .clkNow => []
  | .dbInit _ | .dbState _ | .decDrain | .micFetch => []
  | .ppStart | .ppComplete | .ppPoll | .ppPlaying | .sysIdle | .sysStatus => []

/-- A line of the textual form (30_encoding R91). -/
def asmLine (x : Context) (i : Instr) (cmd : Command) : String :=
  match instText i ++ operandTexts cmd i with
  | [] => contextPrefix x ++ " " ++ mnemonic i
  | ts => contextPrefix x ++ " " ++ mnemonic i ++ " " ++ commaSeparated ts

end Sys2Proof.Machine
end

