-- ==== Sys2Proof/Machine/Pseudo.lean ====
section
/-! DEFINITION. The pseudo-operations (30_encoding R92), the task's block procedure (44_pingpong R196) and the boot order
(70_reset_and_hazards R275): code of the contexts, which drives the core and is no part of it (10_state R47). `step`
does not use this file. -/

namespace Sys2Proof.Machine

/-- The pseudo-operations of 30_encoding R92. `out` is what the application callback gives, a value of the
environment (44_pingpong R196). -/
inductive Pseudo where
  | rbWriteWait (inst : InstNo) (v : Nat)
  | ppWait
  | delayWait (us : Nat)
  | rbReadOr (inst : InstNo) (dflt : Nat)
  | ppCycle (out : List Sample)
  deriving DecidableEq, Repr

/-- Where a context stands in a pseudo-operation: the operation whose results it sees. -/
inductive PseudoPoint where
  /-- nothing issued yet -/
  | start
  /-- RB_WRITE, RB_READ or PP_POLL has finished -/
  | tried
  /-- SYS_IDLE has finished -/
  | idled
  /-- CLK_NOW has finished -/
  | timeRead
  /-- CLK_DELAY_FROM has finished -/
  | deadlineRead
  /-- CLK_HAS_PASSED of this deadline has finished -/
  | tested (d : Nat)
  /-- SYS_IDLE has finished while waiting for this deadline -/
  | waited (d : Nat)
  /-- DEC_DRAIN has finished -/
  | drained
  /-- MIC_FETCH has finished -/
  | fetched
  /-- PP_FILL has finished -/
  | filled
  deriving DecidableEq, Repr

/-- What the context does next. -/
inductive PseudoAct where
  /-- it issues an operation with these operands -/
  | issue (i : Instr) (arg0 arg1 : Nat) (blkIn : List Sample) (next : PseudoPoint)
  /-- the pseudo-operation is done, with the value it yields (RB_READ_OR) -/
  | done (value : Option Nat)
  deriving DecidableEq, Repr

/-- `PP_POLL ; if ok goto done ; SYS_IDLE`, the body of PP_WAIT. -/
def ppWaitAct (p : PseudoPoint) (r : Results) : PseudoAct :=
  if p = .tried then
    if r.ok = some true then .done none else .issue .sysIdle 0 0 [] .idled
  else .issue .ppPoll 0 0 [] .tried

/-- The next action of a context in a pseudo-operation that sees the result ports `r` (30_encoding R92). -/
def pseudoAct (o : Pseudo) (p : PseudoPoint) (r : Results) : PseudoAct :=
  match o, p with
  | .rbWriteWait _ _, .tried =>
    if r.ok = some true then .done none else .issue .sysIdle 0 0 [] .idled
  | .rbWriteWait inst v, _ => .issue (.rbWrite inst) v 0 [] .tried
  | .ppWait, p => ppWaitAct p r
  | .delayWait us, .timeRead => .issue .clkDelayFrom (r.res.getD 0) us [] .deadlineRead
  | .delayWait _, .deadlineRead => .issue .clkHasPassed (r.res.getD 0) 0 [] (.tested (r.res.getD 0))
  | .delayWait _, .tested d =>
    if r.ok = some true then .done none else .issue .sysIdle 0 0 [] (.waited d)
  | .delayWait _, .waited d => .issue .clkHasPassed d 0 [] (.tested d)
  | .delayWait _, _ => .issue .clkNow 0 0 [] .timeRead
  | .rbReadOr _ dflt, .tried => .done (if r.ok = some true then r.res else some dflt)
  | .rbReadOr inst _, _ => .issue (.rbRead inst) 0 0 [] .tried
  | .ppCycle _, .start => .issue .decDrain 0 0 [] .drained
  | .ppCycle _, .drained => .issue .micFetch 0 0 [] .fetched
  | .ppCycle out, .fetched => .issue .ppFill 0 0 out .filled
  | .ppCycle _, p => ppWaitAct p r

/-- The task's operations of the boot order before its block loop (70_reset_and_hazards R275). -/
def bootSequence (c : Config) : List Instr :=
  (List.range c.ndb).map (fun j => .dbInit (BitVec.ofNat 8 j)) ++ [.ppStart]

end Sys2Proof.Machine
end

