-- ==== Sys2Proof/Tests/Slice0.lean ====
section
/-! SUPPORT. The model's own tests. Expected results are those of 95_test_vectors (L1 to L3), or worked out by hand from
the rule a test names; the command words are written out from 30_encoding R83 to R86. -/

namespace Sys2Proof.Tests

open Sys2Proof.Machine

/-! ### Small states -/

/-- The configuration of the vectors: CW = 8, H = 127, TICK_US = 1000, T = 4, DEC_IN = 4, DEC_OUT = 2, RB_N = 9, 3, 4; the
values of the example filter and of the identity conversion that the vectors use. -/
def cfg : Config :=
  { Config.chosen with
    cw := 8
    passThreshold := 127
    clkReset := 250
    b := 1
    filter := [⟨0, [1, 2, 3, 4], 1, [3, 7]⟩, ⟨1, [5, 6, 7, 8], 2, [11, 15]⟩]
    convert := [⟨1, 1⟩, ⟨2, 2⟩, ⟨5, 5⟩, ⟨6, 6⟩] }

def start : State := .resetOf cfg ⟨[], [], [], [], []⟩

/-- The state in which context `x` is issuing the operation. -/
def issuing (x : Context) (i : Instr) (arg0 arg1 : Nat) (blk : List Sample) (s : State) : State :=
  { s with cmd := ⟨contextId x, encode i, arg0, arg1, blk⟩ }

def ring2 (head tail : Nat) (store : List Nat) (s : State) : State := { s with rings := [⟨store, head, tail⟩] }

def rawHolds (bytes : List Byte) (s : State) : State :=
  { s with raw := ⟨bytes ++ List.replicate (9 - bytes.length) 0, bytes.length, 0⟩ }

def micHolds (samples : List Sample) (s : State) : State :=
  { s with mic := ⟨samples ++ List.replicate (3 - samples.length) 0, samples.length, 0⟩ }

def filter0 (integ : Nat) (d : DebounceState) (s : State) : State := { s with db := [some ⟨integ, d⟩] }

/-- The scheduler's state, written as 95_test_vectors writes it. -/
def playback (playing expected : BufIx) (phase : TaskPhase) (idle : Nat) (active pending : Bool) (buf : BufIx)
    (s : State) : State :=
  { s with pp := some ⟨playing, expected, phase, idle, active, pending, buf⟩ }

def counter (n : Nat) (s : State) : State := { s with cnt := n }

/-- One step of context `x` issuing the operation. -/
def run (x : Context) (i : Instr) (arg0 arg1 : Nat) (blk : List Sample) (s : State) : Result :=
  stepOn (issueEvent x i arg0 arg1 blk) s

def after {α : Type} (r : Result) (f : State → α) : Option α :=
  match r with
  | .next t => some (f t)
  | .fault _ => none
  | .refused _ => none

def faultOf (s : State) : Option (FaultCode × ContextId) :=
  match s.fault with
  | some (.command code ctx _) => some (code, ctx)
  | _ => none

/-! ### Well-formedness (30_encoding R86): an ill-formed operation for each check -/

theorem test_wellFormed_rings : ∀ i ∈ [Instr.rbWrite 2, .rbRead 2, .rbPeek 2, .rbFlush 2, .rbUsed 0, .rbUsed 2,
    .rbFree 1, .rbFree 2], i.WellFormed cfg := by decide
theorem test_illFormed_data_raw_mic : ∀ i ∈ [Instr.rbWrite 0, .rbWrite 1, .rbRead 0, .rbRead 1, .rbPeek 0, .rbPeek 1,
    .rbFlush 0, .rbFlush 1], ¬ i.WellFormed cfg := by decide
theorem test_illFormed_no_such_ring : ∀ i ∈ [Instr.rbWrite 3, .rbRead 3, .rbPeek 3, .rbFlush 3, .rbUsed 3, .rbFree 255],
    ¬ i.WellFormed cfg := by decide
theorem test_wellFormed_debounce : ∀ i ∈ [Instr.dbInit 0, .dbSample 0, .dbState 0], i.WellFormed cfg := by decide
theorem test_illFormed_debounce : ∀ i ∈ [Instr.dbInit 1, .dbSample 1, .dbState 255], ¬ i.WellFormed cfg := by decide

/-! ### Decoding, word by word (30_encoding R83 to R86) -/

theorem test_decode_rb :
    [0x00020000#32, 0x01020000#32, 0x02020000#32, 0x03020000#32, 0x04020000#32, 0x05020000#32].map decode =
    [.ok (.rbWrite 2), .ok (.rbRead 2), .ok (.rbPeek 2), .ok (.rbUsed 2), .ok (.rbFree 2), .ok (.rbFlush 2)] := rfl
theorem test_decode_clk : [0x10000000#32, 0x11000000#32, 0x12000000#32, 0x13000000#32].map decode =
    [.ok .clkTick, .ok .clkNow, .ok .clkDelayFrom, .ok .clkHasPassed] := rfl
theorem test_decode_db : [0x20FF0000#32, 0x21000000#32, 0x22800000#32].map decode =
    [.ok (.dbInit 255), .ok (.dbSample 0), .ok (.dbState 128)] := rfl
theorem test_decode_dec : [0x30000000#32, 0x31000000#32, 0x32000000#32].map decode =
    [.ok .decPush, .ok .decDrain, .ok .micFetch] := rfl
theorem test_decode_pp : [0x40000000#32, 0x41000000#32, 0x42000000#32, 0x43000000#32, 0x44000000#32].map decode =
    [.ok .ppStart, .ok .ppComplete, .ok .ppPoll, .ok .ppFill, .ok .ppPlaying] := rfl
theorem test_decode_sys : [0x50000000#32, 0x51000000#32].map decode = [.ok .sysIdle, .ok .sysStatus] := rfl
theorem test_decode_refuses :
    [0x06020000#32, 0x14000000#32, 0x23000000#32, 0x33000000#32, 0x45000000#32, 0x52000000#32, 0x60000000#32,
      0xF0000000#32, 0x00028000#32, 0x10010000#32, 0x51800000#32].map decode =
    [.error .reservedOp, .error .reservedOp, .error .reservedOp, .error .reservedOp, .error .reservedOp,
      .error .reservedOp, .error .reservedUnit, .error .reservedUnit, .error .reservedBits, .error .instNotZero,
      .error .instNotZero] := rfl
theorem test_decodeTableWord : decodeTableWord 32 0x43000000 = some .ppFill ∧ decodeTableWord 32 0x45000000 = none := by
  decide

/-! ### The fetch, and the checks of 30_encoding R88 (95_test_vectors L2, decode and checks) -/

theorem test_fetch_sysStatus :
    after (step (State.reset.withFetchWord 32 0x51000000)) (fun t => (t.results.task.res, t.fault)) =
    some (some 0, none) := by decide
theorem test_fetch_clkTick : after (step (State.reset.withFetchWord 32 0x10000000)) State.cnt = some 1 := by decide
theorem test_context_tick_is_isr : after (run .task .clkTick 0 0 [] start) faultOf = some (some (.context, 0)) := by decide
theorem test_context_reserved : after (stepOn (.command ⟨5, 0x11000000, 0, 0, []⟩) start) faultOf =
    some (some (.context, 5)) := by decide
theorem test_encoding_before_context : after (stepOn (.command ⟨5, 0x06020000, 0, 0, []⟩) start) faultOf =
    some (some (.illegalCommand, 5)) := by decide
theorem test_context_before_sequence : after (run .tickIsr .ppFill 0 0 [1, 2] start) faultOf =
    some (some (.context, 1)) := by decide
theorem test_operand_sample : after (run .tickIsr (.dbSample 0) 2 0 [] (filter0 2 .undefined start)) faultOf =
    some (some (.operand, 1)) := by decide
theorem test_operand_ring : after (run .task (.rbWrite 2) 0x100 0 [] start) faultOf =
    some (some (.operand, 0)) := by decide
theorem test_operand_block : after (run .task .ppFill 0 0 [1] (playback .zero .zero .fill 0 true false .zero start)) faultOf =
    some (some (.operand, 0)) := by decide
theorem test_permission_producer : after (run .task (.rbRead 2) 0 0 [] start) faultOf =
    some (some (.context, 0)) := by decide
theorem test_faulted_no_step : step { start with fault := some (.config [.micBlock]) } = .fault .faulted := rfl
theorem test_halted_no_step : step { start with halted := true } = .fault .halted := rfl

/-! ### RB (95_test_vectors L2) -/

theorem test_rbWrite_wraps : after (run .task (.rbWrite 2) 0x44 0 [] (ring2 3 1 [0x41, 0x42, 0x43, 0xEE] start))
    (fun t => (t.rings, t.results.task)) =
    some ([⟨[0x41, 0x42, 0x43, 0x44], 0, 1⟩], { Results.blank with ok := some true }) := by decide
theorem test_rbWrite_full : after (run .task (.rbWrite 2) 0x44 0 [] (ring2 3 0 [1, 2, 3, 4] start))
    (fun t => (t.rings, t.results.task.ok)) = some ([⟨[1, 2, 3, 4], 3, 0⟩], some false) := by decide
theorem test_rbRead_wraps : after (run .tickIsr (.rbRead 2) 0 0 [] (ring2 2 3 [1, 2, 3, 4] start))
    (fun t => (t.rings, t.results.tick.ok, t.results.tick.res)) =
    some ([⟨[1, 2, 3, 4], 2, 0⟩], some true, some 4) := by decide
theorem test_rbRead_empty : after (run .tickIsr (.rbRead 2) 0 0 [] (ring2 1 1 [1, 2, 3, 4] start))
    (fun t => (t.rings, t.results.tick)) =
    some ([⟨[1, 2, 3, 4], 1, 1⟩], { Results.blank with ok := some false }) := by decide
theorem test_rbPeek : after (run .tickIsr (.rbPeek 2) 0 0 [] (ring2 2 0 [1, 2, 3, 4] start))
    (fun t => (t.rings, t.results.tick.res)) = some ([⟨[1, 2, 3, 4], 2, 0⟩], some 1) := by decide
theorem test_rbUsed_wrapped : after (run .task (.rbUsed 2) 0 0 [] (ring2 0 2 [1, 2, 3, 4] start))
    (·.results.task.res) = some (some 2) := by decide
theorem test_rbUsed_raw : after (run .task (.rbUsed 0) 0 0 [] (rawHolds [1, 2, 3, 4, 5] start))
    (·.results.task.res) = some (some 5) := by decide
theorem test_rbFree_wrapped : after (run .task (.rbFree 2) 0 0 [] (ring2 0 2 [1, 2, 3, 4] start))
    (·.results.task.res) = some (some 1) := by decide
/-- 40_ringbuffer R108, the head written first: tail and the store are not touched yet, and its write remains. -/
theorem test_rbFlush_head_first :
    after (run .task (.rbFlush 2) 0 0 [] { ring2 3 2 [10, 11, 12, 13] start with flushDraws := [.head] })
    (fun t => (t.rings, t.progress.task)) = some ([⟨[10, 11, 12, 13], 0, 2⟩], .flush 2 .tail) := by decide
/-- 40_ringbuffer R108, the tail written first and a read in between, which left it at 1: the ring then holds three stale
elements. -/
theorem test_rbFlush_second_step :
    after (stepOn (.resume .task) ((ring2 3 1 [10, 11, 12, 13] start).setProgress .task (.flush 2 .head)))
    (fun t => (t.rings, t.rings.map RingBuffer.used, t.progress.task)) =
    some ([⟨[10, 11, 12, 13], 0, 1⟩], [3], .idle) := by decide

/-! ### CLK (95_test_vectors L1, L2) -/

theorem test_clkTick_wraps : after (run .tickIsr .clkTick 0 0 [] (counter 255 start)) State.cnt = some 0 := by decide
theorem test_clkNow : after (run .dmaIsr .clkNow 0 0 [] (counter 37 start)) (·.results.dmai.res) = some (some 37) := by decide
theorem test_clkDelayFrom : after (run .task .clkDelayFrom 250 2500 [] start) (·.results.task.res) = some (some 254) := by
  decide
theorem test_clkDelayFrom_wraps : after (run .task .clkDelayFrom 254 3000 [] start) (·.results.task.res) =
    some (some 2) := by decide
theorem test_clkHasPassed_boundary : after (run .task .clkHasPassed 0 0 [] (counter 127 start)) (·.results.task.ok) =
    some (some false) := by decide
theorem test_clkHasPassed_last : after (run .task .clkHasPassed 0 0 [] (counter 126 start)) (·.results.task.ok) =
    some (some true) := by decide

/-! ### DB (95_test_vectors L2, P6) -/

theorem test_dbInit : after (run .task (.dbInit 0) 0 0 [] (filter0 4 .true start)) (fun t => (t.db, t.edges)) =
    some ([some ⟨2, .undefined⟩], []) := by decide
theorem test_dbSample_true_edge : after (run .tickIsr (.dbSample 0) 1 0 [] (filter0 3 .undefined start))
    (fun t => (t.db, t.edges, t.results.tick)) =
    some ([some ⟨4, .true⟩], [⟨0, true, 0, .tickIsr⟩], ⟨none, none, none, some true, some true, some 0⟩) := by decide
theorem test_dbSample_saturates : after (run .tickIsr (.dbSample 0) 1 0 [] (filter0 4 .true start))
    (fun t => (t.db, t.edges, t.results.tick.edgeValid)) = some ([some ⟨4, .true⟩], [], some false) := by decide
theorem test_dbState_false : after (run .task (.dbState 0) 0 0 [] (filter0 0 .false start)) (·.results.task.res) =
    some (some 1) := by decide
theorem test_dbState_uninit : after (run .task (.dbState 0) 0 0 [] start) faultOf = some (some (.sequence, 0)) := by decide

/-! ### DEC (95_test_vectors L2, P4) -/

theorem test_decPush : after (run .bitstreamIsr .decPush 0x10 0 [] (rawHolds [1, 2, 3, 4, 5, 6, 7] start))
    (fun t => (t.raw.used, t.raw.head, t.raw.store[7]?)) = some (8, 8, some 0x10) := by decide
theorem test_decPush_full : after (run .bitstreamIsr .decPush 0x10 0 [] (rawHolds [1, 2, 3, 4, 5, 6, 7, 8] start))
    (fun t => (t.halted, t.haltCode, t.diag, t.raw.used)) = some (true, .decOverflow, [.decOverflow], 8) := by decide
theorem test_decDrain_short : after (run .task .decDrain 0 0 [] (rawHolds [1, 2, 3] start))
    (fun t => (t.results.task.res, t.raw.used, t.progress.task)) = some (some 0, 3, .idle) := by decide
/-- The Emit step of the second block, with the MIC ring full: its samples are dropped, the filter moves on. -/
theorem test_drainEmit_drop :
    after (stepOn (.resume .task) ({ micHolds [3, 7] start with fs := 1 }.setProgress .task (.drain ⟨.emit, 4, [5, 6, 7, 8], 1⟩)))
    (fun t => (t.mic.contents, t.fs, t.progress.task, t.halted)) =
    some ([3, 7], 2, .drain ⟨.check, 4, [5, 6, 7, 8], 2⟩, false) := by decide
/-- The same under policy Fatal: the halt leaves the filter's state and MIC. -/
theorem test_drainEmit_fatal :
    after (stepOn (.resume .task) ({ micHolds [3, 7] start with fs := 1, cfg := { cfg with micFullPolicy := .fatal } }.setProgress
      .task (.drain ⟨.emit, 4, [5, 6, 7, 8], 1⟩)))
    (fun t => (t.haltCode, t.mic.contents, t.fs)) = some (.micOverflow, [3, 7], 1) := by decide
theorem test_micFetch_pads : after (run .task .micFetch 0 0 [] (micHolds [3] start))
    (fun t => (t.results.task.res, t.results.task.blkOut, t.mic.used)) = some (some 1, some [3, 0], 0) := by decide
theorem test_micFetch_full : after (run .task .micFetch 0 0 [] (micHolds [3, 7] start))
    (fun t => (t.results.task.res, t.results.task.blkOut, t.mic.used)) = some (some 2, some [3, 7], 0) := by decide

/-! ### PP and DMA (95_test_vectors L2, P5) -/

theorem test_ppStart : after (run .task .ppStart 0 0 [] start) (fun t => (t.pp, statusWord t)) =
    some (some ⟨.zero, .zero, .fill, 0, true, false, .zero⟩, 0x190) := by decide
theorem test_ppStart_twice : after (run .task .ppStart 0 0 [] (playback .zero .zero .fill 0 true false .zero start)) faultOf =
    some (some (.sequence, 0)) := by decide
theorem test_ppFill : after (run .task .ppFill 0 0 [1, 2] (playback .zero .zero .fill 0 true false .zero start))
    (fun t => (t.pp, t.buf0, t.buf1, statusWord t)) =
    some (some ⟨.zero, .one, .wait, 0, true, false, .zero⟩, [0, 0], [1, 2], 0x150) := by decide
theorem test_ppFill_ownership : after (run .task .ppFill 0 0 [1, 2] (playback .one .zero .fill 0 true false .one start))
    (fun t => (faultOf t, t.buf1)) = some (some (.ownership, 0), [0, 0]) := by decide
theorem test_ppPoll_ready : after (run .task .ppPoll 0 0 [] (playback .one .one .wait 1 true false .one start))
    (fun t => (t.pp, t.results.task.ok, statusWord t)) =
    some (some ⟨.one, .one, .fill, 0, true, false, .one⟩, some true, 0x5F0) := by decide
theorem test_ppPoll_overrun : after (run .task .ppPoll 0 0 [] (playback .one .one .wait 0 true false .one start))
    (fun t => (t.haltCode, t.diag, statusWord t)) = some (.pbOverrun, [.pbOverrun], 0x575) := by decide
theorem test_dma_finish : after (stepOn .dma (playback .zero .one .wait 1 true false .zero { start with buf0 := [7, 8] }))
    (fun t => (t.played, statusWord t)) = some ([(.zero, [7, 8])], 0x250) := by decide
theorem test_ppComplete : after (run .dmaIsr .ppComplete 0 0 [] (playback .zero .one .wait 1 false true .zero start))
    (fun t => (t.pp, statusWord t)) = some (some ⟨.one, .one, .wait, 1, true, false, .one⟩, 0x570) := by decide
theorem test_ppComplete_spurious :
    after (run .dmaIsr .ppComplete 0 0 [] (playback .zero .one .wait 1 true false .zero start)) faultOf =
    some (some (.spurious, 3)) := by decide
theorem test_ppPlaying : after (run .tickIsr .ppPlaying 0 0 [] (playback .one .zero .wait 1 true false .one start))
    (·.results.tick.res) = some (some 1) := by decide

/-! ### SYS (95_test_vectors L2) -/

theorem test_sysIdle : after (run .task .sysIdle 0 0 [] start) (fun t => (t.fault, t.results.task)) =
    some (none, Results.blank) := by decide
theorem test_sysIdle_context : after (run .tickIsr .sysIdle 0 0 [] start) faultOf = some (some (.context, 1)) := by decide
theorem test_sysStatus_started :
    after (run .tickIsr .sysStatus 0 0 [] (playback .zero .zero .fill 0 true false .zero start)) (·.results.tick.res) =
    some (some 0x190) := by decide

/-! ### The textual form and the pseudo-operations (30_encoding R91, R92) -/

theorem test_asmLine : asmLine .task (.rbWrite 2) ⟨0, 0x00020000, 65, 0, []⟩ = "@TASK RB_WRITE rb2, 65" := by decide
theorem test_delayWait_deadline : pseudoAct (.delayWait 2000) .timeRead (resResult 10) =
    .issue .clkDelayFrom 10 2000 [] .deadlineRead := rfl
theorem test_boot : bootSequence cfg = [.dbInit 0, .ppStart] := rfl

/-! ### Witnesses: for each obligation with hypotheses, states and operands that meet all of them together, and for a
statement of several clauses one for each, at the boundary of its range -/

theorem start_running : Running start := ⟨rfl, by decide⟩

theorem start_rings : RingsInv start where
  raw := ⟨by decide, by decide, by decide⟩
  mic := ⟨by decide, by decide, by decide⟩
  count := by decide
  general := by
    intro n r h
    match n, h with
    | 0, h => cases h; exact ⟨by decide, by decide, by decide⟩
    | n + 1, h => simp [start, State.resetOf, cfg, Config.chosen] at h
  widths := by
    intro n r h
    match n, h with
    | 0, h => cases h; decide
    | n + 1, h => simp [start, State.resetOf, cfg, Config.chosen] at h

theorem start_debounce : DebounceInv start where
  count := by decide
  filters := by intro j d h; match j, h with | 0, h => cases h | j + 1, h => cases h
  lastTrue := by intro j d h; match j, h with | 0, h => cases h | j + 1, h => cases h
  lastFalse := by intro j d h; match j, h with | 0, h => cases h | j + 1, h => cases h

theorem start_playback : PlaybackInv start where
  order := rfl
  notStarted := fun _ => rfl
  buffer := by intro p h; cases h
  one := by intro p h; cases h
  active := by intro p h; cases h
  pending := by intro p h; cases h

theorem start_inv : CoreInv start where
  config := by unfold ConfigOk; decide
  rings := start_rings
  clock := by unfold ClockInv; decide
  debounce := start_debounce
  buffers := ⟨by decide, by decide, by unfold nativeInRange; decide, by unfold nativeInRange; decide⟩
  playback := start_playback
  progress := {
    drains := by intro x d h; cases x <;> cases h
    flushes := by intro x i j h; cases x <;> cases h }
  halt := .inl ⟨rfl, rfl, rfl⟩

theorem witness_DecodedWordIsItsEncoding : decode 0x20FF0000#32 = .ok (.dbInit 255) := rfl

/-- Ring numbers at the edges of the table of R86, a word with INST 1 where there is no instance, and a context that
issues an operation on a ring it may not name. -/
theorem witness_IllegalCommandRecordsFault :
    (∀ n ∈ [(2 : InstNo)], (Instr.rbWrite n).WellFormed start.cfg) ∧
    (∀ n ∈ [(0 : InstNo), 1, 3, 255], ¬ (Instr.rbFlush n).WellFormed start.cfg) ∧
    (Instr.rbUsed 0).WellFormed start.cfg ∧ ¬ (Instr.rbFree 3).WellFormed start.cfg ∧
    (Instr.dbSample 0).WellFormed start.cfg ∧ ¬ (Instr.dbSample 1).WellFormed start.cfg ∧
    (decode 0x10000000#32 = .ok .clkTick ∧ (0x10000000#32).extractLsb' 28 4 ≠ 0 ∧
      (0x10000000#32).extractLsb' 28 4 ≠ 2) ∧
    (∃ cmd, Running start ∧ { start with events := [.command cmd] }.events = .command cmd :: [] ∧
      busy start cmd.ctx = false ∧ ∀ i, decode cmd.word = .ok i → ¬ i.WellFormed start.cfg) ∧
    Running start ∧ ¬ (Instr.rbWrite 1).WellFormed start.cfg :=
  ⟨by decide, by decide, by decide, by decide, by decide, by decide, by decide,
    ⟨⟨5, 0x05010000, 0, 0, []⟩, start_running, rfl, rfl, fun i h => by cases h; decide⟩, start_running, by decide⟩

theorem witness_StepPerformsDecodedInstr :
    (Running start ∧ busy start 0 = false ∧ decode 0x51000000#32 = .ok .sysStatus) ∧
    (Running (start.setProgress .task (.flush 2 .head)) ∧ busy (start.setProgress .task (.flush 2 .head)) 0 = true) ∧
    { start with events := [.resume .task] }.events = .resume .task :: [] ∧
    { start with events := [.dma] }.events = .dma :: [] :=
  ⟨⟨start_running, rfl, rfl⟩, ⟨⟨rfl, by decide⟩, by decide⟩, rfl, rfl⟩

theorem witness_StoppedCoreHasNoStep : { start with halted := true }.halted = true ∧
    { start with fault := some (.config [.micBlock]) }.halted = false ∧
    { start with fault := some (.config [.micBlock]) }.fault ≠ none := ⟨rfl, rfl, by decide⟩

theorem witness_UnpermittedContextFaults :
    (Running start ∧ Instr.clkTick.WellFormed start.cfg ∧
      ∀ x, contextOfId 0 = some x → permitted start.cfg x .clkTick = false) ∧
    (∀ x, contextOfId 4 = some x → permitted start.cfg x .clkNow = false) :=
  ⟨⟨start_running, rfl, fun x h => by cases h; rfl⟩, fun x h => by cases h⟩

theorem witness_OperandOutOfRangeFaults :
    Running start ∧ (Instr.rbWrite 2).WellFormed start.cfg ∧ contextOfId 0 = some .task ∧
    permitted start.cfg .task (.rbWrite 2) = true ∧
    operandsFit start.cfg ⟨0, 0x00020000, 255, 0, []⟩ (.rbWrite 2) = true ∧
    operandsFit start.cfg ⟨0, 0x00020000, 256, 0, []⟩ (.rbWrite 2) = false ∧
    operandsFit start.cfg ⟨0, 0x02020000, 256, 256, [0]⟩ (.rbPeek 2) = true :=
  ⟨start_running, by decide, rfl, by decide, by decide, by decide, by decide⟩

theorem witness_RbWriteStoresUnlessFull :
    (∃ r, Issuable (.rbWrite 2) .task (issuing .task (.rbWrite 2) 0x44 0 [] (ring2 3 0 [1, 2, 3, 4] start)) ∧
      (ring2 3 0 [1, 2, 3, 4] start).ring? 2 = some r ∧ r.head < r.size ∧ r.tail < r.size ∧ r.free = 0) ∧
    (∃ r, Issuable (.rbWrite 2) .task (issuing .task (.rbWrite 2) 0x44 0 [] (ring2 3 1 [1, 2, 3, 4] start)) ∧
      (ring2 3 1 [1, 2, 3, 4] start).ring? 2 = some r ∧ r.head < r.size ∧ r.tail < r.size ∧ r.free = 1) :=
  ⟨⟨_, .of_test (by decide), rfl, by decide, by decide, by decide⟩,
   ⟨_, .of_test (by decide), rfl, by decide, by decide, by decide⟩⟩

theorem witness_RbReadTakesOldest :
    (∃ r, Issuable (.rbRead 2) .tickIsr (issuing .tickIsr (.rbRead 2) 0 0 [] (ring2 1 1 [1, 2, 3, 4] start)) ∧
      (ring2 1 1 [1, 2, 3, 4] start).ring? 2 = some r ∧ r.store[r.tail]? = some 2 ∧ r.used = 0) ∧
    (∃ r, Issuable (.rbRead 2) .tickIsr (issuing .tickIsr (.rbRead 2) 0 0 [] (ring2 0 3 [1, 2, 3, 4] start)) ∧
      (ring2 0 3 [1, 2, 3, 4] start).ring? 2 = some r ∧ r.store[r.tail]? = some 4 ∧ r.used = 1) :=
  ⟨⟨_, .of_test (by decide), rfl, rfl, by decide⟩, ⟨_, .of_test (by decide), rfl, rfl, by decide⟩⟩

theorem witness_RbPeekShowsOldest :
    (∃ r, Issuable (.rbPeek 2) .tickIsr (issuing .tickIsr (.rbPeek 2) 0 0 [] (ring2 1 1 [1, 2, 3, 4] start)) ∧
      (ring2 1 1 [1, 2, 3, 4] start).ring? 2 = some r ∧ r.store[r.tail]? = some 2 ∧ r.used = 0) ∧
    (∃ r, Issuable (.rbPeek 2) .tickIsr (issuing .tickIsr (.rbPeek 2) 0 0 [] (ring2 2 1 [1, 2, 3, 4] start)) ∧
      (ring2 2 1 [1, 2, 3, 4] start).ring? 2 = some r ∧ r.store[r.tail]? = some 2 ∧ r.used = 1) :=
  ⟨⟨_, .of_test (by decide), rfl, rfl, by decide⟩, ⟨_, .of_test (by decide), rfl, rfl, by decide⟩⟩

theorem witness_RbCountsAreSnapshots :
    start.indices? 0 = some (0, 0, 9) ∧ start.indices? 1 = some (0, 0, 3) ∧
    (ring2 0 2 [1, 2, 3, 4] start).indices? 2 = some (0, 2, 4) ∧
    (∀ inst ∈ [0, 1, 2], Issuable (.rbUsed inst) .task (issuing .task (.rbUsed inst) 0 0 [] start) ∧
      Issuable (.rbFree inst) .task (issuing .task (.rbFree inst) 0 0 [] start)) := by
  refine ⟨rfl, rfl, rfl, fun inst h => ⟨.of_test ?_, .of_test ?_⟩⟩ <;> revert inst <;> decide

theorem witness_RbFlushClearsDrawnIndexFirst :
    ∀ draws ∈ [[], [RingIndex.head], [RingIndex.tail]], ∃ r,
      Issuable (.rbFlush 2) .task { issuing .task (.rbFlush 2) 0 0 [] start with flushDraws := draws } ∧
      start.ring? 2 = some r := by
  intro draws h
  exact ⟨_, .of_test (by revert draws; decide), rfl⟩

theorem witness_FlushSecondStepClearsOtherIndex : ∀ i : RingIndex, ∃ r,
    Running (start.setProgress .task (.flush 2 i)) ∧
    (start.setProgress .task (.flush 2 i)).progress.get .task = .flush 2 i ∧
    (start.setProgress .task (.flush 2 i)).ring? (2 : InstNo).toNat = some r :=
  fun _ => ⟨_, ⟨rfl, start_running.noFault⟩, rfl, rfl⟩

theorem witness_UndisturbedFlushEmpties : ∃ r, Running (ring2 3 1 [1, 2, 3, 4] start) ∧
    (ring2 3 1 [1, 2, 3, 4] start).progress.get .task = .idle ∧ (Instr.rbFlush 2).WellFormed start.cfg ∧
    permitted start.cfg .task (.rbFlush 2) = true ∧
    (ring2 3 1 [1, 2, 3, 4] start).ring? (2 : InstNo).toNat = some r :=
  ⟨_, ⟨rfl, by decide⟩, rfl, by decide, by decide, rfl⟩

theorem witness_RingCountsAddUp : ∃ r, RingsInv start ∧ start.ring? (2 : InstNo).toNat = some r ∧
    Issuable (.rbWrite 2) .task (issuing .task (.rbWrite 2) 0 0 [] start) ∧
    Issuable (.rbRead 2) .tickIsr (issuing .tickIsr (.rbRead 2) 0 0 [] start) ∧
    Issuable (.rbPeek 2) .tickIsr (issuing .tickIsr (.rbPeek 2) 0 0 [] start) :=
  ⟨_, start_rings, rfl, .of_test (by decide), .of_test (by decide), .of_test (by decide)⟩

/-- A ring with one element in it, and one more place. -/
def holding : State := ring2 0 3 [1, 2, 3, 4] start

theorem holding_rings : RingsInv holding where
  raw := start_rings.raw
  mic := start_rings.mic
  count := by decide
  general := by
    intro n r h
    match n, h with
    | 0, h => cases h; exact ⟨by decide, by decide, by decide⟩
    | n + 1, h => simp [holding, ring2] at h
  widths := by
    intro n r h
    match n, h with
    | 0, h => cases h; decide
    | n + 1, h => simp [holding, ring2] at h

theorem witness_RingIsFirstInFirstOut : ∃ r, RingsInv holding ∧ holding.ring? (2 : InstNo).toNat = some r ∧
    Issuable (.rbWrite 2) .task (issuing .task (.rbWrite 2) 0 0 [] holding) ∧ r.free ≠ 0 ∧ r.contents = [4] ∧
    Issuable (.rbRead 2) .tickIsr (issuing .tickIsr (.rbRead 2) 0 0 [] holding) ∧
    Issuable (.rbPeek 2) .tickIsr (issuing .tickIsr (.rbPeek 2) 0 0 [] holding) :=
  ⟨_, holding_rings, rfl, .of_test (by decide), by decide, by decide, .of_test (by decide), .of_test (by decide)⟩

theorem witness_ClkTickAdvancesCounter :
    Issuable .clkTick .tickIsr (issuing .tickIsr .clkTick 0 0 [] (counter 255 start)) := .of_test (by decide)

theorem witness_ClkNowAndDelayFromCompute :
    Issuable .clkNow .dmaIsr (issuing .dmaIsr .clkNow 0 0 [] start) ∧
    (Issuable .clkDelayFrom .task (issuing .task .clkDelayFrom 255 1000 [] start) ∧
      1000 ≤ 1 * start.cfg.tickUs ∧ (∀ q', 1000 ≤ q' * start.cfg.tickUs → 1 ≤ q') ∧ 1 ≤ start.cfg.tickUs) :=
  ⟨.of_test (by decide), .of_test (by decide), by decide,
    fun q' (h : 1000 ≤ q' * 1000) => by omega, by decide⟩

theorem witness_ClkHasPassedTestsDifference :
    ∀ n ∈ [0, 126, 127, 255], Issuable .clkHasPassed .task (issuing .task .clkHasPassed 0 0 [] (counter n start)) :=
  fun n h => .of_test (by revert n; decide)

/-- M - H is 129 here: 129 is the longest delay judged right, 130 the shortest misjudged. -/
theorem witness_DeadlineHorizon : brokenConstraints cfg = [] ∧ cfg.clockModulus - cfg.passThreshold = 129 ∧
    hasPassed cfg 0 129 = false ∧ hasPassed cfg 0 130 = true ∧ hasPassed cfg 2 2 = true ∧ hasPassed cfg 128 2 = true ∧
    hasPassed cfg 129 2 = false ∧ hasPassed cfg 1 2 = false := by decide

theorem witness_DelayPassesAfterItsTicks : ConfigOk start ∧ Running start ∧ ClockInv start ∧
    start.progress.get .task = .idle ∧ start.progress.get .tickIsr = .idle ∧ 2500 < 2 ^ start.cfg.usW ∧
    delayTicks start.cfg 2500 ≤ start.cfg.clockModulus - start.cfg.passThreshold ∧
    ∀ m ∈ [0, 3, 4], m ≤ delayTicks start.cfg 2500 :=
  ⟨start_inv.config, start_running, start_inv.clock, rfl, rfl, by decide, by decide, by decide⟩

theorem witness_DbInitHalvesTop : Issuable (.dbInit 0) .task (issuing .task (.dbInit 0) 0 0 [] start) ∧
    (0 : InstNo).toNat < start.db.length := ⟨.of_test (by decide), by decide⟩

theorem witness_DbSampleIntegratesAndReportsEdge :
    (Issuable (.dbSample 0) .task (issuing .task (.dbSample 0) 1 0 [] start) ∧
      start.db[(0 : InstNo).toNat]? = some none) ∧
    (∀ a ∈ [0, 1], Issuable (.dbSample 0) .tickIsr (issuing .tickIsr (.dbSample 0) a 0 [] (filter0 3 .undefined start))) ∧
    (filter0 3 .undefined start).db[(0 : InstNo).toNat]? = some (some ⟨3, .undefined⟩) ∧
    edgeOf 4 4 .undefined = some true ∧ edgeOf 4 0 .true = some false ∧ edgeOf 4 4 .true = none ∧
    edgeOf 4 2 .undefined = none :=
  ⟨⟨.of_test (by decide), rfl⟩, fun a h => .of_test (by revert a; decide), rfl, rfl, rfl, rfl, rfl⟩

theorem witness_DbStateReportsOnlyInitialised :
    (Issuable (.dbState 0) .task (issuing .task (.dbState 0) 0 0 [] (filter0 4 .true start)) ∧
      (filter0 4 .true start).db[(0 : InstNo).toNat]? = some (some ⟨4, .true⟩)) ∧
    (Issuable (.dbState 0) .task (issuing .task (.dbState 0) 0 0 [] start) ∧
      start.db[(0 : InstNo).toNat]? = some none) :=
  ⟨⟨.of_test (by decide), rfl⟩, .of_test (by decide), rfl⟩

/-- A filter of top 1 that DB_INIT has just run on. -/
def top1 : State := filter0 0 .undefined { start with cfg := { cfg with db := [⟨1, 0⟩] } }

theorem witness_TrueSamplesFireOneEdge : ConfigOk (filter0 0 .false start) ∧ Running (filter0 0 .false start) ∧
    (filter0 0 .false start).progress.get .tickIsr = .idle ∧
    (filter0 0 .false start).db[(0 : InstNo).toNat]? = some (some ⟨0, .false⟩) ∧ (0 : InstNo).toNat < start.cfg.ndb ∧
    DebounceState.false ≠ .true ∧ Debounce.WellFormed ⟨0, .false⟩ (start.cfg.intTop (0 : InstNo).toNat) :=
  ⟨start_inv.config, ⟨rfl, by decide⟩, rfl, rfl, by decide, by decide,
    ⟨by decide, fun _ => by decide, fun h => absurd rfl h⟩⟩

/-- From True at the top, and fresh from DB_INIT with T = 1, where the integrator is 0. -/
theorem witness_FalseSamplesFireOneEdge : (ConfigOk top1 ∧ Running top1 ∧ top1.progress.get .tickIsr = .idle ∧
      top1.db[(0 : InstNo).toNat]? = some (some ⟨0, .undefined⟩) ∧ (0 : InstNo).toNat < top1.cfg.ndb ∧
      DebounceState.undefined ≠ .false ∧ Debounce.WellFormed ⟨0, .undefined⟩ (top1.cfg.intTop (0 : InstNo).toNat)) ∧
    ConfigOk (filter0 4 .true start) ∧ Running (filter0 4 .true start) ∧
    (filter0 4 .true start).progress.get .tickIsr = .idle ∧
    (filter0 4 .true start).db[(0 : InstNo).toNat]? = some (some ⟨4, .true⟩) ∧ (0 : InstNo).toNat < start.cfg.ndb ∧
    DebounceState.true ≠ .false ∧ Debounce.WellFormed ⟨4, .true⟩ (start.cfg.intTop (0 : InstNo).toNat) :=
  ⟨⟨by unfold ConfigOk; decide, ⟨rfl, by decide⟩, rfl, rfl, by decide, by decide,
      ⟨by decide, fun _ => by decide, fun _ => .inr ⟨rfl, by decide⟩⟩⟩,
    start_inv.config, ⟨rfl, by decide⟩, rfl, rfl, by decide, by decide,
    ⟨by decide, fun h => absurd rfl h, fun _ => .inl (by decide)⟩⟩

theorem witness_DecPushStoresOrHalts : ∀ bytes ∈ [[1, 2, 3, 4, 5, 6, 7], [1, 2, 3, 4, 5, 6, 7, (8 : Byte)]],
    Issuable .decPush .bitstreamIsr (issuing .bitstreamIsr .decPush 255 0 [] (rawHolds bytes start)) ∧
    (rawHolds bytes start).raw.head < (rawHolds bytes start).raw.size ∧
    (rawHolds bytes start).raw.tail < (rawHolds bytes start).raw.size :=
  fun bytes h => ⟨.of_test (by revert bytes; decide), by revert bytes; decide, by revert bytes; decide⟩

/-- Three bytes are one short of a block, four are one block. -/
theorem witness_DrainCheckFinishesOrCollects :
    (∀ bytes ∈ [[1, 2, 3], [1, 2, 3, (4 : Byte)]],
      Issuable .decDrain .task (issuing .task .decDrain 0 0 [] (rawHolds bytes start))) ∧
    (rawHolds [1, 2, 3] start).raw.used < start.cfg.decIn ∧ ¬ (rawHolds [1, 2, 3, 4] start).raw.used < start.cfg.decIn ∧
    (Running (start.setProgress .task (.drain ⟨.check, 4, [1, 2, 3, 4], 1⟩)) ∧
      (start.setProgress .task (.drain ⟨.check, 4, [1, 2, 3, 4], 1⟩)).progress.get .task =
        .drain ⟨.check, 4, [1, 2, 3, 4], 1⟩) :=
  ⟨fun bytes h => .of_test (by revert bytes; decide), by decide, by decide, ⟨rfl, by decide⟩, rfl⟩

theorem witness_DrainCollectTakesOneByte : ∀ k ∈ [0, 3],
    Running ((rawHolds [9] start).setProgress .task (.drain ⟨.collect, k, List.replicate k 0, 0⟩)) ∧
    ((rawHolds [9] start).setProgress .task (.drain ⟨.collect, k, List.replicate k 0, 0⟩)).progress.get .task =
      .drain ⟨.collect, k, List.replicate k 0, 0⟩ ∧
    k < start.cfg.decIn ∧ (rawHolds [9] start).raw.store[(rawHolds [9] start).raw.tail]? = some 9 :=
  fun k h => ⟨⟨rfl, rfl⟩, rfl, by revert k; decide, rfl⟩

/-- Room for a whole block, and for none under either policy. -/
theorem witness_DrainEmitForwardsOrHalts : ∀ samples ∈ [[], [3, (7 : Sample)]], ∀ policy ∈ [MicFullPolicy.drop, .fatal],
    ∃ s : State, ∃ d : Drain, Running s ∧ s.progress.get .task = .drain d ∧ d.phase = .emit ∧
      s.mic.WellFormed s.mic.size ∧ s.mic.used = samples.length ∧ s.cfg.micFullPolicy = policy := by
  have key : ∀ samples ∈ [[], [3, (7 : Sample)]],
      (micHolds samples start).mic.head < (micHolds samples start).mic.size ∧
      (micHolds samples start).mic.tail < (micHolds samples start).mic.size ∧
      (micHolds samples start).mic.used = samples.length := by decide
  intro samples h policy _
  obtain ⟨h1, h2, h3⟩ := key samples h
  exact ⟨{ (micHolds samples start).setProgress .task (.drain ⟨.emit, 4, [1, 2, 3, 4], 0⟩) with
    cfg := { cfg with micFullPolicy := policy } }, _, ⟨rfl, start_running.noFault⟩, rfl, rfl, ⟨rfl, h1, h2⟩, h3, rfl⟩

theorem witness_MicFetchReadsOldestAndPads : ∀ samples ∈ [[], [3], [3, (7 : Sample)]],
    Issuable .micFetch .task (issuing .task .micFetch 0 0 [] (micHolds samples start)) ∧
    (micHolds samples start).mic.WellFormed (micHolds samples start).mic.size :=
  fun samples h => ⟨.of_test (by revert samples; decide), rfl, by revert samples; decide, by revert samples; decide⟩

theorem witness_BlocksInBlocksOut : ∃ bytes : List Byte, ConfigOk start ∧ RingsInv start ∧ Running start ∧
    start.progress.get .task = .idle ∧ start.progress.get .bitstreamIsr = .idle ∧ start.cfg.micFullPolicy = .drop ∧
    start.raw.used = 0 ∧ bytes.length = 2 * start.cfg.decIn ∧ bytes.length ≤ start.cfg.ringN 0 - 1 :=
  ⟨[1, 2, 3, 4, 5, 6, 7, 8], start_inv.config, start_rings, start_running, rfl, rfl, rfl, by decide, by decide, by decide⟩

theorem witness_OverflowHaltsExactlyOnce : ∃ bytes : List Byte, RingsInv start ∧ Running start ∧
    start.progress.get .bitstreamIsr = .idle ∧ bytes.length = start.raw.free :=
  ⟨[1, 2, 3, 4, 5, 6, 7, 8], start_rings, start_running, rfl, by decide⟩

theorem witness_PpStartStartsOnce :
    (Issuable .ppStart .task (issuing .task .ppStart 0 0 [] start) ∧ start.ppStarted = false) ∧
    (Issuable .ppStart .task (issuing .task .ppStart 0 0 [] (playback .zero .one .wait 1 true false .zero start)) ∧
      (playback .zero .one .wait 1 true false .zero start).ppStarted = true) :=
  ⟨⟨.of_test (by decide), by decide⟩, .of_test (by decide), by decide⟩

theorem witness_PpCompleteRestartsOtherBuffer :
    (Issuable .ppComplete .dmaIsr (issuing .dmaIsr .ppComplete 0 0 [] start) ∧ start.pp = none) ∧ ∀ pending : Bool,
    Issuable .ppComplete .dmaIsr
      (issuing .dmaIsr .ppComplete 0 0 [] (playback .zero .one .wait 1 (!pending) pending .zero start)) ∧
    (playback .zero .one .wait 1 (!pending) pending .zero start).pp =
      some ⟨.zero, .one, .wait, 1, !pending, pending, .zero⟩ :=
  ⟨⟨.of_test (by decide), rfl⟩, fun pending => ⟨.of_test (by revert pending; decide), rfl⟩⟩

theorem witness_PpPollWaitsOrHalts :
    (Issuable .ppPoll .task (issuing .task .ppPoll 0 0 [] start) ∧ start.pp = none) ∧
    ∀ phase ∈ [TaskPhase.wait, .fill], ∀ playing ∈ [BufIx.zero, .one], ∀ idle ∈ [0, 1],
    Issuable .ppPoll .task (issuing .task .ppPoll 0 0 [] (playback playing .one phase idle true false playing start)) ∧
    (playback playing .one phase idle true false playing start).pp =
      some ⟨playing, .one, phase, idle, true, false, playing⟩ :=
  ⟨⟨.of_test (by decide), rfl⟩, fun phase h playing h' idle h'' =>
    ⟨.of_test (by revert idle playing phase; decide), rfl⟩⟩

theorem witness_PpFillWritesFreedBuffer :
    (Issuable .ppFill .task (issuing .task .ppFill 0 0 [1, 2] start) ∧ start.pp = none) ∧
    ∀ phase ∈ [TaskPhase.wait, .fill], ∀ playing ∈ [BufIx.zero, .one],
    Issuable .ppFill .task (issuing .task .ppFill 0 0 [1, 2] (playback playing .zero phase 1 true false playing start)) ∧
    (playback playing .zero phase 1 true false playing start).pp =
      some ⟨playing, .zero, phase, 1, true, false, playing⟩ :=
  ⟨⟨.of_test (by decide), rfl⟩, fun phase h playing h' => ⟨.of_test (by revert playing phase; decide), rfl⟩⟩

theorem witness_SchedulerNeedsStart : start.pp = none ∧
    Issuable .ppComplete .dmaIsr (issuing .dmaIsr .ppComplete 0 0 [] start) ∧
    Issuable .ppPoll .task (issuing .task .ppPoll 0 0 [] start) ∧
    Issuable .ppFill .task (issuing .task .ppFill 0 0 [1, 2] start) ∧
    Issuable .ppPlaying .bitstreamIsr (issuing .bitstreamIsr .ppPlaying 0 0 [] start) ∧ Running start :=
  ⟨rfl, .of_test (by decide), .of_test (by decide), .of_test (by decide), .of_test (by decide), start_running⟩

theorem witness_DmaFinishRecordsPlayback : ∀ pending : Bool,
    Running (playback .zero .one .wait 1 (!pending) pending .zero start) ∧
    (playback .zero .one .wait 1 (!pending) pending .zero start).pp =
      some ⟨.zero, .one, .wait, 1, !pending, pending, .zero⟩ :=
  fun _ => ⟨⟨rfl, rfl⟩, rfl⟩

/-- For each clause the smallest counts: one completion before the fill; none before and one after; none at all. -/
theorem witness_OverrunIsSeenOnlyWhenOdd : Running (playback .zero .zero .fill 0 true false .zero start) ∧
    start.progress.get .task = .idle ∧ start.progress.get .dmaIsr = .idle ∧ [1, (2 : Sample)].length = start.cfg.blockLen ∧
    (playback .zero .zero .fill 0 true false .zero start).pp = some ⟨.zero, .zero, .fill, 0, true, false, .zero⟩ ∧
    1 % 2 = 1 ∧ (0 % 2 = 0 ∧ (0 + 1) % 2 = 1) ∧ (0 % 2 = 0 ∧ (0 + 0) % 2 = 0) :=
  ⟨⟨rfl, by decide⟩, rfl, rfl, by decide, rfl, by decide, by decide, by decide⟩

theorem witness_PlayingIdleAndStatus :
    (Issuable .ppPlaying .dmaIsr (issuing .dmaIsr .ppPlaying 0 0 [] start) ∧ start.pp = none) ∧
    (∃ p, Issuable .ppPlaying .tickIsr
        (issuing .tickIsr .ppPlaying 0 0 [] (playback .one .zero .fill 0 true false .one start)) ∧
      (playback .one .zero .fill 0 true false .one start).pp = some p) ∧
    Issuable .sysIdle .task (issuing .task .sysIdle 0 0 [] start) ∧
    Issuable .sysStatus .dmaIsr (issuing .dmaIsr .sysStatus 0 0 [] start) :=
  ⟨⟨.of_test (by decide), rfl⟩, ⟨_, .of_test (by decide), rfl⟩, .of_test (by decide), .of_test (by decide)⟩

theorem witness_ResetValues : brokenConstraints cfg = [] ∧ 2 < cfg.nrb ∧
    (List.replicate 9 (7 : Byte)).length = cfg.ringN 0 ∧ [1, 2, (3 : Sample)].length = cfg.ringN 1 ∧
    (∃ store, [[7, 255, 0, 1]][2 - 2]? = some store ∧ store.length = cfg.ringN 2 ∧ ∀ e ∈ store, e < 2 ^ cfg.ringW 2) ∧
    [32767, (-32768 : Native)].length = cfg.blockLen ∧ (∀ v ∈ [32767, -32768], nativeInRange cfg.nativeW v) := by
  refine ⟨by decide, by decide, by decide, by decide, ⟨_, rfl, by decide, by decide⟩, by decide, ?_⟩
  unfold nativeInRange
  decide

theorem witness_BrokenConfigurationIsRefused :
    brokenConstraints { cfg with micBlock := 0 } = [.micBlock] ∧ brokenConstraints { cfg with cw := 1 } ≠ [] := by decide

theorem witness_ResetIsWellFormed : brokenConstraints cfg = [] := by decide

/-- A state whose next event is this one. -/
def next (e : Event) (s : State) : State := { s with events := [e] }

theorem witness_StepKeepsRings : RingsInv holding ∧
    ∃ t, step (next (issueEvent .task (.rbWrite 2) 7 0 []) holding) = .next t ∧ t.rings ≠ holding.rings :=
  ⟨holding_rings, _, rfl, by decide⟩

theorem witness_StepKeepsDebounce : ConfigOk start ∧ DebounceInv start ∧
    ∃ t, step (next (issueEvent .task (.dbInit 0) 0 0 []) start) = .next t ∧ t.db ≠ start.db :=
  ⟨start_inv.config, start_debounce, _, rfl, by decide⟩

theorem witness_StepKeepsPlaybackAlternation : PlaybackInv start ∧
    ∃ t, step (next (issueEvent .task .ppStart 0 0 []) start) = .next t ∧ t.pp ≠ none :=
  ⟨start_playback, _, rfl, by decide⟩

theorem witness_StepKeepsWellFormed : CoreInv start ∧
    ∃ t, step (next (issueEvent .bitstreamIsr .decPush 1 0 []) start) = .next t ∧ t.raw ≠ start.raw :=
  ⟨start_inv, _, rfl, by decide⟩

/-- A drain that has collected three of its four bytes, the last one alone in the raw ring. -/
def collecting : State := { start.setProgress .task (.drain ⟨.collect, 3, [5, 6, 7], 0⟩) with raw := (rawHolds [9] start).raw }

theorem collecting_inv : CoreInv collecting where
  config := start_inv.config
  rings := { start_rings with raw := ⟨by decide, by decide, by decide⟩ }
  clock := start_inv.clock
  debounce := ⟨start_debounce.count, start_debounce.filters, start_debounce.lastTrue, start_debounce.lastFalse⟩
  buffers := ⟨start_inv.buffers.length0, start_inv.buffers.length1, start_inv.buffers.range0, start_inv.buffers.range1⟩
  playback := ⟨start_playback.order, start_playback.notStarted, start_playback.buffer, start_playback.one,
    start_playback.active, start_playback.pending⟩
  progress := {
    drains := by
      intro x d h
      cases x <;> cases h
      exact ⟨rfl, fun _ => rfl, by decide, fun _ => by decide, fun h => by cases h⟩
    flushes := by intro x i j h; cases x <;> cases h }
  halt := .inl ⟨rfl, rfl, rfl⟩

theorem witness_WellFormedCoreNeverStops : CoreInv collecting ∧ Running collecting ∧
    ∃ d, collecting.progress.get .task = .drain d ∧ d.phase = .collect ∧ d.k + 1 = collecting.cfg.decIn ∧
      collecting.raw.used = 1 :=
  ⟨collecting_inv, ⟨rfl, by decide⟩, _, rfl, rfl, by decide, by decide⟩

theorem witness_ConfigurationFixedAndLogsGrow :
    ∃ t, step (next .dma (playback .zero .one .wait 1 true false .zero start)) = .next t ∧ t.played.length = 1 :=
  ⟨_, rfl, by decide⟩

theorem witness_OnlyTickMovesCounter :
    ∃ t, step (next (issueEvent .tickIsr .clkTick 0 0 []) start) = .next t ∧ t.cnt ≠ start.cnt :=
  ⟨_, rfl, by decide⟩

theorem witness_FatalHaltSourcesAndPrecision :
    (∃ t, step (next (issueEvent .bitstreamIsr .decPush 1 0 []) (rawHolds [1, 2, 3, 4, 5, 6, 7, 8] start)) = .next t ∧
      t.halted = true) ∧
    (∃ t, step (next (issueEvent .task .ppPoll 0 0 []) (playback .one .one .wait 0 true false .one start)) = .next t ∧
      t.halted = true) ∧
    (∃ t, step (next (.resume .task) { (micHolds [3] start).setProgress .task (.drain ⟨.emit, 4, [1, 2, 3, 4], 0⟩) with
        cfg := { cfg with micFullPolicy := .fatal } }) = .next t ∧ t.halted = true) :=
  ⟨⟨_, rfl, by decide⟩, ⟨_, rfl, by decide⟩, ⟨_, rfl, by decide⟩⟩

theorem witness_ModelFaultHasNoOtherEffect :
    ∃ t, step (next (issueEvent .task .clkTick 0 0 []) start) = .next t ∧ t.fault ≠ none := ⟨_, rfl, by decide⟩

theorem witness_ReadingOperationsChangeNothing :
    (∃ t, exec (.rbPeek 2) (issuing .tickIsr (.rbPeek 2) 0 0 [] holding) = .next t ∧ t.results.tick.res = some 4) ∧
    (∃ t, exec .clkNow (issuing .task .clkNow 0 0 [] start) = .next t ∧ t.results.task.res = some 250) :=
  ⟨⟨_, rfl, by decide⟩, ⟨_, rfl, by decide⟩⟩

theorem witness_RingOperationsFrame : ∃ r, holding.ring? (2 : InstNo).toNat = some r ∧
    (∃ t, exec (.rbWrite 2) (issuing .task (.rbWrite 2) 7 0 [] holding) = .next t ∧ t.rings ≠ holding.rings) ∧
    (∃ t, exec (.rbRead 2) (issuing .tickIsr (.rbRead 2) 0 0 [] holding) = .next t ∧ t.rings ≠ holding.rings) ∧
    (∃ t, exec (.rbFlush 2) { issuing .task (.rbFlush 2) 0 0 [] holding with flushDraws := [.tail] } = .next t ∧
      t.rings ≠ holding.rings) :=
  ⟨_, rfl, ⟨_, rfl, by decide⟩, ⟨_, rfl, by decide⟩, ⟨_, rfl, by decide⟩⟩

theorem witness_ClockAndDebounceFrame :
    (∃ t, exec .clkTick (issuing .tickIsr .clkTick 0 0 [] start) = .next t ∧ t.fault = none) ∧
    (∃ t, exec (.dbInit 0) (issuing .task (.dbInit 0) 0 0 [] start) = .next t ∧ t.fault = none) ∧
    (∃ t, exec (.dbSample 0) (issuing .tickIsr (.dbSample 0) 1 0 [] (filter0 3 .undefined start)) = .next t ∧
      t.edges.length = 1) :=
  ⟨⟨_, rfl, by decide⟩, ⟨_, rfl, by decide⟩, ⟨_, rfl, by decide⟩⟩

theorem witness_DecimatorFrame :
    (∃ t, exec .decPush (issuing .bitstreamIsr .decPush 1 0 [] start) = .next t ∧ t.raw.used = 1) ∧
    (∃ t, exec .decDrain (issuing .task .decDrain 0 0 [] (rawHolds [1, 2, 3, 4] start)) = .next t ∧
      t.progress.task ≠ .idle) ∧
    (∃ t, exec .micFetch (issuing .task .micFetch 0 0 [] (micHolds [3] start)) = .next t ∧ t.mic.used = 0) :=
  ⟨⟨_, rfl, by decide⟩, ⟨_, rfl, by decide⟩, ⟨_, rfl, by decide⟩⟩

theorem witness_SchedulerFrame :
    (∃ t, exec .ppStart (issuing .task .ppStart 0 0 [] start) = .next t ∧ t.pp ≠ none) ∧
    (∃ t, exec .ppComplete (issuing .dmaIsr .ppComplete 0 0 [] (playback .zero .one .wait 1 false true .zero start)) =
      .next t ∧ t.fault = none) ∧
    (∃ t, exec .ppPoll (issuing .task .ppPoll 0 0 [] (playback .zero .one .wait 0 true false .zero start)) = .next t ∧
      t.fault = none) ∧
    (∃ t, exec .ppFill (issuing .task .ppFill 0 0 [1, 2] (playback .zero .zero .fill 0 true false .zero start)) = .next t ∧
      t.buf1 = [1, 2]) :=
  ⟨⟨_, rfl, by decide⟩, ⟨_, rfl, by decide⟩, ⟨_, rfl, by decide⟩, ⟨_, rfl, by decide⟩⟩

theorem witness_LaterStepsFrame :
    (∃ t, stepOn (.resume .task) (holding.setProgress .task (.flush 2 .tail)) = .next t ∧ t.rings ≠ holding.rings) ∧
    (∃ t, stepOn (.resume .task) ((rawHolds [9] start).setProgress .task (.drain ⟨.collect, 3, [0, 0, 0], 0⟩)) = .next t ∧
      t.raw.used = 0) ∧
    (∃ t, stepOn .dma (playback .zero .one .wait 1 true false .zero start) = .next t ∧ t.played ≠ []) :=
  ⟨⟨_, rfl, by decide⟩, ⟨_, rfl, by decide⟩, ⟨_, rfl, by decide⟩⟩

end Sys2Proof.Tests
end

section
/-! PROOF. What a step keeps (10_state): the rings (R23 to R25), the counter (R27), the filters (R28, R29), the playback
buffers and the alternation (R33 to R42), the progress of operations (R26), the halt's fields (R21) and all of them. One
lemma for each invariant and each kind of effect, by cases on the effect; `step_keeps` makes a step of them. -/

namespace Sys2Proof.Machine

section
variable {s t : State} {x : Context} {i : Instr}

/-- An edge, if there is one, is appended to OUT.edges, and nothing else changes (42_debounce R141). -/
@[simp] theorem emitEdge_eq (inst : InstNo) (x : Context) (edge : Option Bool) (s : State) :
    emitEdge inst x edge s =
      { s with edges := s.edges ++ edge.toList.map fun b => ⟨inst, b, s.cfg.dbId inst.toNat, x⟩ } := by
  cases edge <;> simp [emitEdge]

/-! ### The configuration and the logs (10_state R42, R45) -/

/-- `t` has the configuration of `s`, and its logs continue those of `s`. -/
structure Continues (s t : State) : Prop where
  cfg : t.cfg = s.cfg
  played : s.played <+: t.played
  edges : s.edges <+: t.edges
  diag : s.diag <+: t.diag

theorem Continues.refl (s : State) : Continues s s :=
  ⟨rfl, List.prefix_rfl, List.prefix_rfl, List.prefix_rfl⟩

theorem Continues.trans {u : State} (h : Continues s t) (h' : Continues t u) : Continues s u :=
  ⟨h'.cfg.trans h.cfg, h.played.trans h'.played, h.edges.trans h'.edges, h.diag.trans h'.diag⟩

theorem CommandEffect.continues (he : CommandEffect x s i t) : Continues s t := by
  cases he with
  | decPushFull | ppPollOverrun => exact { Continues.refl s with diag := List.prefix_append _ _ }
  | _ => constructor <;> simp

theorem ResumeEffect.continues (he : ResumeEffect x s t) : Continues s t := by
  cases he with
  | drainOverflow => exact { Continues.refl s with diag := List.prefix_append _ _ }
  | _ => constructor <;> simp

theorem DmaEffect.continues (he : DmaEffect s t) : Continues s t := by
  cases he <;> constructor <;> simp

theorem ConfigOk.of_continues (h : ConfigOk s) (hc : Continues s t) : ConfigOk t := by
  unfold ConfigOk at *
  rwa [hc.cfg]

/-! ### The counter (10_state R27) -/

theorem CommandEffect.cnt (he : CommandEffect x s i t) :
    t.cnt = s.cnt ∨ i = .clkTick ∧ t.cnt = (s.cnt + 1) % s.cfg.clockModulus := by
  cases he with
  | clkTick => exact .inr ⟨rfl, rfl⟩
  | _ => exact .inl (by simp)

theorem ResumeEffect.cnt (he : ResumeEffect x s t) : t.cnt = s.cnt := by cases he <;> rfl

theorem DmaEffect.cnt (he : DmaEffect s t) : t.cnt = s.cnt := by cases he <;> rfl

theorem ClockInv.congr (h : ClockInv s) (hcfg : t.cfg = s.cfg := by simp) (hcnt : t.cnt = s.cnt := by simp) :
    ClockInv t := by
  unfold ClockInv at *
  rwa [hcfg, hcnt]

theorem ClockInv.command (h : ClockInv s) (he : CommandEffect x s i t) : ClockInv t := by
  obtain hc | ⟨-, hc⟩ := he.cnt
  · exact h.congr he.continues.cfg hc
  · unfold ClockInv
    rw [hc, he.continues.cfg]
    exact Nat.mod_lt _ (Nat.two_pow_pos s.cfg.cw)

/-! ### The rings (10_state R23 to R25) -/

/-- RB_N and RB_W of a ring of the configuration (00_scope R8). -/
theorem ring_of_getElem? {c : Config} {n : Nat} {r : RingConfig} (h : c.rb[n]? = some r) :
    c.ringN n = r.n ∧ c.ringW n = r.w := by
  simp [Config.ringN, Config.ringW, h]

theorem RingsInv.congr (h : RingsInv s) (hcfg : t.cfg = s.cfg := by simp) (hraw : t.raw = s.raw := by simp)
    (hmic : t.mic = s.mic := by simp) (hrings : t.rings = s.rings := by simp) : RingsInv t := by
  constructor
  · rw [hraw, hcfg]; exact h.raw
  · rw [hmic, hcfg]; exact h.mic
  · rw [hrings, hcfg]; exact h.count
  · rw [hrings, hcfg]; exact h.general
  · rw [hrings, hcfg]; exact h.widths

theorem RingsInv.ring (h : RingsInv s) {n : Nat} {r : RingBuffer Nat} (hr : s.ring? n = some r) :
    r.WellFormed (s.cfg.ringN n) ∧ ∀ e ∈ r.store, e < 2 ^ s.cfg.ringW n := by
  obtain ⟨hn, hr⟩ := ring?_some hr
  have hw := h.general _ r hr
  have hb := h.widths _ r hr
  rw [Nat.sub_add_cancel hn] at hw hb
  exact ⟨hw, hb⟩

theorem RingsInv.setRaw (h : RingsInv s) {r : RingBuffer Byte} (hr : r.WellFormed (s.cfg.ringN 0)) :
    RingsInv (s.setRaw r) :=
  ⟨hr, h.mic, h.count, h.general, h.widths⟩

theorem RingsInv.setMic (h : RingsInv s) {r : RingBuffer Sample} (hr : r.WellFormed (s.cfg.ringN 1)) :
    RingsInv (s.setMic r) :=
  ⟨h.raw, hr, h.count, h.general, h.widths⟩

/-- A general ring of the state after one was replaced is the new one, or one from before. -/
theorem setRing_getElem? {n k : Nat} {r r' : RingBuffer Nat} (hn : 2 ≤ n) (hr : (s.setRing n r').rings[k]? = some r) :
    k + 2 = n ∧ r = r' ∨ s.rings[k]? = some r := by
  rw [State.setRing_rings, List.getElem?_set] at hr
  split at hr
  next hk =>
    split at hr
    · exact .inl ⟨by omega, (Option.some.inj hr).symm⟩
    · cases hr
  next => exact .inr hr

theorem RingsInv.setRing (h : RingsInv s) {n : Nat} {r r' : RingBuffer Nat} (hr : s.ring? n = some r)
    (hw : r'.WellFormed (s.cfg.ringN n)) (hb : ∀ e ∈ r'.store, e < 2 ^ s.cfg.ringW n) : RingsInv (s.setRing n r') where
  raw := h.raw
  mic := h.mic
  count := by simpa using h.count
  general := by
    intro k q hq
    obtain ⟨rfl, rfl⟩ | hq := setRing_getElem? (ring?_some hr).1 hq
    · exact hw
    · exact h.general k q hq
  widths := by
    intro k q hq
    obtain ⟨rfl, rfl⟩ | hq := setRing_getElem? (ring?_some hr).1 hq
    · exact hb
    · exact h.widths k q hq

/-- A ring's elements after a write are the element written and elements from before. -/
theorem RingBuffer.forall_store_push {α : Type} {P : α → Prop} {r r' : RingBuffer α} {e : α} (hp : r.push e = some r')
    (hr : ∀ a ∈ r.store, P a) (he : P e) : ∀ a ∈ r'.store, P a := by
  obtain ⟨-, rfl⟩ := RingBuffer.push_inv hp
  intro a ha
  obtain ha | rfl := List.mem_or_eq_of_mem_set ha
  · exact hr a ha
  · exact he

theorem RingsInv.command (h : RingsInv s) (hi : Issuable i x s) (he : CommandEffect x s i t) : RingsInv t := by
  cases he with
  | rbWrite inst r r' hr hf hp =>
    obtain ⟨hw, hb⟩ := h.ring hr
    have harg : s.cmd.arg0 < 2 ^ s.cfg.ringW inst.toNat := by simpa [operandsFit, fits] using hi.operands
    exact (h.setRing hr (hw.push hp) (RingBuffer.forall_store_push hp hb harg)).congr
  | rbRead inst r r' e hr hu hp =>
    obtain ⟨hw, hb⟩ := h.ring hr
    obtain ⟨-, rfl⟩ := RingBuffer.pop_inv hp
    exact (h.setRing hr hw.dropFront hb).congr
  | rbFlush inst r hr =>
    obtain ⟨hw, hb⟩ := h.ring hr
    exact (h.setRing hr (hw.clearIndex (flushFirst s)) (by simpa using hb)).congr
  | decPush r hf hp => exact (h.setRaw (h.raw.push hp)).congr
  | micFetch samples r hp =>
    obtain ⟨samples', r', hp', -, hw, -⟩ := h.mic.popMany (min s.mic.used s.cfg.micBlock)
    cases hp.symm.trans hp'
    exact (h.setMic hw).congr
  | _ => exact h.congr

theorem RingsInv.resume (h : RingsInv s) (he : ResumeEffect x s t) : RingsInv t := by
  cases he with
  | flush inst j r hp hr =>
    obtain ⟨hw, hb⟩ := h.ring hr
    exact (h.setRing hr (hw.clearIndex j) (by simpa using hb)).congr
  | drainCollect d e r hp hd he =>
    obtain ⟨-, rfl⟩ := RingBuffer.pop_inv he
    exact (h.setRaw h.raw.dropFront).congr
  | drainEmit d r hp hd hf hr =>
    obtain ⟨r', hr', hw⟩ := h.mic.pushWhileFree (filterBlock s.cfg s.fs d.acc)
    cases hr.symm.trans hr'
    exact (h.setMic hw).congr
  | _ => exact h.congr

theorem RingsInv.dma (h : RingsInv s) (he : DmaEffect s t) : RingsInv t := by
  cases he <;> exact h.congr

/-! ### The debounce filters (42_debounce R144, R146) -/

theorem DebounceInv.congr (h : DebounceInv s) (hcfg : t.cfg = s.cfg := by simp) (hdb : t.db = s.db := by simp)
    (hedges : t.edges = s.edges := by simp) : DebounceInv t := by
  have hstates : ∀ j, edgeStates t j = edgeStates s j := fun j => by simp [edgeStates, hedges]
  constructor
  · rw [hdb, hcfg]; exact h.count
  · rw [hdb, hcfg]; exact h.filters
  · simp only [hdb, hstates]; exact h.lastTrue
  · simp only [hdb, hstates]; exact h.lastFalse

/-- A configuration that passes the check gives every filter an integrator top of at least 1 (00_scope R8). -/
theorem one_le_intTop {c : Config} (hc : brokenConstraints c = []) {j : Nat} (hj : j < c.ndb) : 1 ≤ c.intTop j := by
  have hall : ∀ d ∈ c.db, 1 ≤ d.intTop := by simpa [constraintHolds] using constraintHolds_of_ok hc .integratorTop
  have hget : c.db[j]? = some (c.db[j]'hj) := List.getElem?_eq_getElem hj
  simpa [Config.intTop, hget] using hall _ (List.getElem_mem hj)

theorem DebounceInv.one_le_intTop (h : DebounceInv s) (hc : ConfigOk s) {j : Nat} {d : Option Debounce}
    (hd : s.db[j]? = some d) : 1 ≤ s.cfg.intTop j :=
  Machine.one_le_intTop hc (h.count ▸ (List.getElem?_eq_some_iff.mp hd).1)

/-- A filter fresh from DB_INIT (R140). -/
theorem Debounce.wellFormed_init {top : Nat} (ht : 1 ≤ top) : Debounce.WellFormed ⟨top / 2, .undefined⟩ top where
  bound := Nat.div_le_self top 2
  belowTop := fun _ => Nat.div_lt_self ht (by decide)
  aboveZero := fun _ => by
    obtain rfl | ht2 := Nat.eq_or_lt_of_le ht
    · exact .inr ⟨rfl, rfl⟩
    · exact .inl (by show 1 ≤ top / 2; omega)

theorem integrate_le {top v : Nat} (hv : v ≤ top) (raw : Bool) : integrate top v raw ≤ top := by
  cases raw with
  | false => exact (Nat.sub_le v 1).trans hv
  | true => exact min_le_right _ _

/-- The filter after a sample (R141): at T it is True, at 0 it is False. -/
theorem Debounce.wellFormed_sample {top v : Nat} (ht : 1 ≤ top) (hv : v ≤ top) (d : DebounceState) :
    Debounce.WellFormed ⟨v, stateAfterEdge d (edgeOf top v d)⟩ top := by
  unfold edgeOf
  split
  next h => exact ⟨hv, fun hne => absurd rfl hne, fun _ => .inl (by show 1 ≤ v; omega)⟩
  next htop =>
  split
  next h => exact ⟨hv, fun _ => by show v < top; omega, fun hne => absurd rfl hne⟩
  next hzero =>
  refine ⟨hv, fun hne => ?_, fun hne => .inl ?_⟩
  · exact Nat.lt_of_le_of_ne hv fun heq => htop ⟨heq, hne⟩
  · exact Nat.one_le_iff_ne_zero.mpr fun heq => hzero ⟨heq, hne⟩

/-- The edges of filter `j` after an edge, if there is one, of filter `inst`. -/
theorem edgeStates_append {inst : InstNo} {edge : Option Bool} {id : Nat} {x : Context}
    (h : t.edges = s.edges ++ edge.toList.map fun b => ⟨inst, b, id, x⟩) (j : Nat) :
    edgeStates t j = edgeStates s j ++ if inst.toNat = j then edge.toList else [] := by
  cases edge <;> by_cases hj : inst.toNat = j <;> simp [edgeStates, h, hj]

/-- A filter becomes a well-formed one whose state is that of its last edge, the one emitted with it if there is one. -/
theorem DebounceInv.replace (h : DebounceInv s) {inst : InstNo} {d : Debounce} {edge : Option Bool} {id : Nat}
    (hcfg : t.cfg = s.cfg) (hdb : t.db = s.db.set inst.toNat (some d))
    (hedges : t.edges = s.edges ++ edge.toList.map fun b => ⟨inst, b, id, x⟩)
    (hw : d.WellFormed (s.cfg.intTop inst.toNat))
    (htrue : d.dstate = .true → (edgeStates s inst.toNat ++ edge.toList).getLast? = some true)
    (hfalse : d.dstate = .false → (edgeStates s inst.toNat ++ edge.toList).getLast? = some false) : DebounceInv t := by
  have hget : ∀ k (f : Debounce), t.db[k]? = some (some f) →
      inst.toNat = k ∧ f = d ∨ inst.toNat ≠ k ∧ s.db[k]? = some (some f) := by
    intro k f hf
    rw [hdb, List.getElem?_set] at hf
    split at hf
    next hk =>
      split at hf
      · exact .inl ⟨hk, by simpa using hf.symm⟩
      · cases hf
    next hk => exact .inr ⟨hk, hf⟩
  refine ⟨by simpa [hdb, hcfg] using h.count, fun k f hf => ?_, fun k f hf hs => ?_, fun k f hf hs => ?_⟩
  · rw [hcfg]
    obtain ⟨rfl, rfl⟩ | ⟨-, hf⟩ := hget k f hf
    · exact hw
    · exact h.filters k f hf
  · rw [edgeStates_append hedges]
    obtain ⟨rfl, rfl⟩ | ⟨hk, hf⟩ := hget k f hf
    · simpa using htrue hs
    · simpa [hk] using h.lastTrue k f hf hs
  · rw [edgeStates_append hedges]
    obtain ⟨rfl, rfl⟩ | ⟨hk, hf⟩ := hget k f hf
    · simpa using hfalse hs
    · simpa [hk] using h.lastFalse k f hf hs

/-- The filter's state after a sample is that of its last edge. -/
theorem getLast?_of_stateAfterEdge {d v : DebounceState} {b : Bool} {l : List Bool} {edge : Option Bool}
    (hb : ∀ e, stateAfterEdge d (some e) = v → e = b) (hl : d = v → l.getLast? = some b)
    (hs : stateAfterEdge d edge = v) : (l ++ edge.toList).getLast? = some b := by
  cases edge with
  | none => simpa using hl hs
  | some e => simp [hb e hs]

theorem DebounceInv.command (hc : ConfigOk s) (h : DebounceInv s) (he : CommandEffect x s i t) : DebounceInv t := by
  cases he with
  | dbInit inst d hd =>
    have hw := Debounce.wellFormed_init (h.one_le_intTop hc hd)
    exact h.replace (x := x) (edge := none) (id := 0) rfl rfl (by simp) hw nofun nofun
  | dbSample inst d integ edge hd hi he =>
    have hv : integ ≤ s.cfg.intTop inst.toNat := hi ▸ integrate_le (h.filters _ d hd).bound _
    have hw := Debounce.wellFormed_sample (h.one_le_intTop hc hd) hv d.dstate
    rw [← he] at hw
    exact h.replace (x := x) (id := s.cfg.dbId inst.toNat) (by simp) (by simp) (by simp) hw
      (getLast?_of_stateAfterEdge (by simp [stateAfterEdge]) (h.lastTrue _ d hd))
      (getLast?_of_stateAfterEdge (by simp [stateAfterEdge]) (h.lastFalse _ d hd))
  | _ => exact h.congr

theorem DebounceInv.resume (h : DebounceInv s) (he : ResumeEffect x s t) : DebounceInv t := by
  cases he <;> exact h.congr

theorem DebounceInv.dma (h : DebounceInv s) (he : DmaEffect s t) : DebounceInv t := by
  cases he <;> exact h.congr

/-! ### The playback buffers (10_state R33) -/

theorem BuffersInv.congr (h : BuffersInv s) (hcfg : t.cfg = s.cfg := by simp) (h0 : t.buf0 = s.buf0 := by simp)
    (h1 : t.buf1 = s.buf1 := by simp) : BuffersInv t := by
  constructor
  · rw [h0, hcfg]; exact h.length0
  · rw [h1, hcfg]; exact h.length1
  · rw [h0, hcfg]; exact h.range0
  · rw [h1, hcfg]; exact h.range1

/-- A value cut to `w` bits is in their range. -/
theorem nativeInRange_bmod (w : Nat) (v : Int) : nativeInRange w (v.bmod (2 ^ w)) := by
  have hpos : 0 < 2 ^ w := Nat.two_pow_pos w
  constructor
  · simpa using Int.le_bmod (x := v) hpos
  · simpa using Int.bmod_lt (x := v) hpos

theorem BuffersInv.setBuf (h : BuffersInv s) (b : BufIx) {v : List Native} (hlen : v.length = s.cfg.blockLen)
    (hv : ∀ a ∈ v, nativeInRange s.cfg.nativeW a) : BuffersInv (s.setBuf b v) := by
  cases b with
  | zero => exact ⟨hlen, h.length1, hv, h.range1⟩
  | one => exact ⟨h.length0, hlen, h.range0, hv⟩

theorem BuffersInv.command (h : BuffersInv s) (hi : Issuable i x s) (he : CommandEffect x s i t) : BuffersInv t := by
  cases he with
  | ppFill p hp hf ho =>
    have hlen : s.cmd.blkIn.length = s.cfg.blockLen := by simpa [operandsFit] using hi.operands
    have hrange : ∀ a ∈ s.cmd.blkIn.map (sampleConvert s.cfg), nativeInRange s.cfg.nativeW a := by
      intro a ha
      obtain ⟨v, -, rfl⟩ := List.mem_map.mp ha
      exact nativeInRange_bmod _ _
    exact (h.setBuf p.expected.other (by simpa using hlen) hrange).congr
  | _ => exact h.congr

theorem BuffersInv.resume (h : BuffersInv s) (he : ResumeEffect x s t) : BuffersInv t := by
  cases he <;> exact h.congr

theorem BuffersInv.dma (h : BuffersInv s) (he : DmaEffect s t) : BuffersInv t := by
  cases he <;> exact h.congr

/-! ### The alternation of the buffers played (44_pingpong R197, R199) -/

theorem PlaybackInv.congr (h : PlaybackInv s) (hpp : t.pp = s.pp := by simp)
    (hplayed : t.played = s.played := by simp) :
    PlaybackInv t := by
  constructor
  · rw [hplayed]; exact h.order
  · rw [hpp, hplayed]; exact h.notStarted
  · rw [hpp]; exact h.buffer
  · rw [hpp]; exact h.one
  · rw [hpp, hplayed]; exact h.active
  · rw [hpp, hplayed]; exact h.pending

/-- The scheduler's own fields do not matter to the invariant, only those it shares with the DMA engine. -/
theorem PlaybackInv.setScheduler (h : PlaybackInv s) {p q : Playback} (hp : s.pp = some p)
    (hq : t.pp = some q) (hplayed : t.played = s.played := by simp) (hplaying : q.playing = p.playing := by rfl)
    (hactive : q.dmaActive = p.dmaActive := by rfl) (hpending : q.dmaPending = p.dmaPending := by rfl)
    (hbuf : q.dmaBuf = p.dmaBuf := by rfl) : PlaybackInv t where
  order := hplayed ▸ h.order
  notStarted := fun hn => by simp [hq] at hn
  buffer := fun r hr => by
    cases hq.symm.trans hr
    rw [hbuf, hplaying]; exact h.buffer p hp
  one := fun r hr => by
    cases hq.symm.trans hr
    rw [hpending, hactive]; exact h.one p hp
  active := fun r hr => by
    cases hq.symm.trans hr
    rw [hactive, hplaying, hplayed]; exact h.active p hp
  pending := fun r hr => by
    cases hq.symm.trans hr
    rw [hpending, hplaying, hplayed]; exact h.pending p hp

theorem bufferAt_succ (n : Nat) : bufferAt (n + 1) = (bufferAt n).other := by
  obtain h | h := Nat.mod_two_eq_zero_or_one n <;> simp [bufferAt, Nat.succ_mod_two_eq_zero_iff, h, BufIx.other]

theorem PlaybackInv.start (h : PlaybackInv s) (hp : s.pp = none) : PlaybackInv (s.setPlayback playbackStart) where
  order := h.order
  notStarted := fun hn => by cases hn
  buffer := fun p hq => by cases hq; rfl
  one := fun p hq => by cases hq; rfl
  active := fun p hq _ => by cases hq; simp [h.notStarted hp, playbackStart, bufferAt]
  pending := fun p hq hd => by cases hq; cases hd

/-- PP_COMPLETE restarts playback with the buffer that follows the last one played (R192). -/
theorem PlaybackInv.complete (h : PlaybackInv s) {p : Playback} (hp : s.pp = some p) (hd : p.dmaPending = true) :
    PlaybackInv (s.setPlayback (completed p)) where
  order := h.order
  notStarted := fun hn => by cases hn
  buffer := fun q hq => by cases hq; rfl
  one := fun q hq => by cases hq; rfl
  active := fun q hq _ => by
    cases hq
    obtain ⟨hne, hlast⟩ := h.pending p hp hd
    have hpos : 0 < s.played.length := List.length_pos_of_ne_nil hne
    show p.playing.other = bufferAt s.played.length
    rw [hlast, ← bufferAt_succ, Nat.sub_add_cancel hpos]
  pending := fun q hq hd' => by cases hq; cases hd'

/-- The DMA engine's finish step plays the buffer whose turn it is (R191). -/
theorem PlaybackInv.done (h : PlaybackInv s) {p : Playback} (hp : s.pp = some p) (ha : p.dmaActive = true)
    (block : List Native) :
    PlaybackInv ({ s with played := s.played ++ [(p.dmaBuf, block)] }.setPlayback
      { p with dmaActive := false, dmaPending := true }) where
  order := by
    have hbuf : p.dmaBuf = bufferAt s.played.length := (h.buffer p hp).trans (h.active p hp ha)
    simp [List.range_succ, h.order, hbuf]
  notStarted := fun hn => by cases hn
  buffer := fun q hq => by cases hq; exact h.buffer p hp
  one := fun q hq => by cases hq; rfl
  active := fun q hq ha' => by cases hq; cases ha'
  pending := fun q hq _ => by cases hq; exact ⟨by simp, by simpa using h.active p hp ha⟩

theorem PlaybackInv.command (h : PlaybackInv s) (he : CommandEffect x s i t) : PlaybackInv t := by
  cases he with
  | ppStart hp => exact (h.start hp).congr
  | ppComplete p hp hd => exact (h.complete hp hd).congr
  | ppPollReady p hp | ppPollIdle p hp | ppFill p hp => exact h.setScheduler hp rfl
  | _ => exact h.congr

theorem PlaybackInv.resume (h : PlaybackInv s) (he : ResumeEffect x s t) : PlaybackInv t := by
  cases he <;> exact h.congr

theorem PlaybackInv.dma (h : PlaybackInv s) (he : DmaEffect s t) : PlaybackInv t := by
  cases he with
  | idle => exact h
  | done p hp ha hd => exact h.done hp ha _

/-! ### The progress of operations (10_state R26) -/

/-- More bytes in the raw ring hurt no drain. -/
theorem Drain.WellFormed.mono {d : Drain} (h : d.WellFormed s) (hcfg : t.cfg = s.cfg) (hraw : s.raw.used ≤ t.raw.used) :
    d.WellFormed t where
  collected := h.collected
  range := hcfg ▸ h.range
  collect := fun hd => by
    obtain ⟨hk, hu⟩ := h.collect hd
    rw [hcfg]
    exact ⟨hk, hu.trans (by omega)⟩
  emit := hcfg ▸ h.emit

theorem ProgressInv.mono (h : ProgressInv s) (hcfg : t.cfg = s.cfg := by simp)
    (hraw : s.raw.used ≤ t.raw.used := by simp) (hprogress : t.progress = s.progress := by simp) : ProgressInv t where
  drains := fun y d hy => by
    obtain ⟨hx, hd⟩ := h.drains y d (hprogress ▸ hy)
    exact ⟨hx, hd.mono hcfg hraw⟩
  flushes := fun y inst j hy => hcfg ▸ h.flushes y inst j (hprogress ▸ hy)

/-- A context's progress is replaced by one that is no drain. -/
theorem ProgressInv.setProgress (h : ProgressInv s) (x : Context) {p : Progress} (hd : ∀ d, p ≠ .drain d)
    (hf : ∀ inst j, p = .flush inst j → legalDataRing s.cfg inst = true) : ProgressInv (s.setProgress x p) where
  drains := fun y d hy => by
    rw [State.setProgress_progress, PerContext.get_set] at hy
    split at hy
    · exact absurd hy (hd d)
    · obtain ⟨hx, hw⟩ := h.drains y d hy
      exact ⟨hx, hw.mono rfl le_rfl⟩
  flushes := fun y inst j hy => by
    rw [State.setProgress_progress, PerContext.get_set] at hy
    split at hy
    · exact hf inst j hy
    · exact h.flushes y inst j hy

theorem ProgressInv.setIdle (h : ProgressInv s) (x : Context) : ProgressInv (s.setProgress x .idle) :=
  h.setProgress x nofun nofun

/-- The one drain there can be, that of TASK, goes on in a state `t`; the raw ring of `t` need not be that of before. -/
theorem ProgressInv.setDrain (h : ProgressInv s) {d : Drain} (hx : x = .task) (hw : d.WellFormed t)
    (hcfg : t.cfg = s.cfg := by simp) (hprogress : t.progress = s.progress := by simp) :
    ProgressInv (t.setProgress x (.drain d)) where
  drains := fun y d' hy => by
    rw [State.setProgress_progress, PerContext.get_set] at hy
    split at hy
    next hyx => cases hy; exact ⟨hyx.trans hx, hw.mono rfl le_rfl⟩
    next hyx => exact absurd ((h.drains y d' (hprogress ▸ hy)).1.trans hx.symm) hyx
  flushes := fun y inst j hy => by
    rw [State.setProgress_progress, PerContext.get_set] at hy
    split at hy
    · cases hy
    · rw [State.setProgress_cfg, hcfg]
      exact h.flushes y inst j (hprogress ▸ hy)

/-- A block's collection begins with enough bytes in the raw ring (43_decimator R161). -/
theorem Drain.wellFormed_collect {blocks : Nat} (hc : 1 ≤ s.cfg.decIn) (hu : s.cfg.decIn ≤ s.raw.used) :
    Drain.WellFormed ⟨.collect, 0, [], blocks⟩ s where
  collected := fun _ => rfl
  range := Nat.zero_le _
  collect := fun _ => ⟨hc, by simpa using hu⟩
  emit := nofun

theorem ConfigOk.one_le_decIn (h : ConfigOk s) : 1 ≤ s.cfg.decIn ∧ s.cfg.decIn ≤ s.cfg.ringN 0 - 1 := by
  simpa [constraintHolds] using constraintHolds_of_ok h .decimationIn

theorem ProgressInv.command (hc : ConfigOk s) (hr : RingsInv s) (h : ProgressInv s) (hi : Issuable i x s)
    (he : CommandEffect x s i t) : ProgressInv t := by
  cases he with
  | rbFlush inst r =>
    have hl : legalDataRing s.cfg inst = true := hi.legal
    exact (h.setProgress x (p := .flush inst (otherIndex (flushFirst s))) nofun
      fun _ _ hf => by cases hf; exact hl).mono
  | decPush r hf hp =>
    exact h.mono rfl (Nat.le_of_succ_le (hr.raw.used_push (Nat.pos_of_ne_zero hf) hp).ge)
  | decDrainEmpty => exact (h.setIdle x).mono
  | decDrain hu =>
    have hx : x = .task := by simpa [permitted] using hi.allowed
    exact h.setDrain hx (Drain.wellFormed_collect hc.one_le_decIn.1 hu)
  | _ => exact h.mono

/-- A Collect step moves one byte from the raw ring, which is not empty, to the drain. -/
theorem Drain.WellFormed.collectStep {d : Drain} {e : Byte} {r : RingBuffer Byte} (h : d.WellFormed s)
    (hr : RingsInv s) (hd : d.phase = .collect) (he : s.raw.pop = some (e, r)) :
    Drain.WellFormed ⟨if d.k + 1 < s.cfg.decIn then .collect else .emit, d.k + 1, d.acc ++ [e], d.blocks⟩
      (s.setRaw r) := by
  obtain ⟨hk, hu⟩ := h.collect hd
  obtain ⟨-, rfl⟩ := RingBuffer.pop_inv he
  have hlen : d.acc.length = d.k := h.collected (by simp [hd])
  have hused : s.raw.dropFront.used = s.raw.used - 1 := hr.raw.used_dropFront (by omega)
  refine ⟨fun _ => by simp [hlen], hk, fun hphase => ?_, fun hphase => ?_⟩
  · have hlt : d.k + 1 < s.cfg.decIn := by by_contra hge; simp [hge] at hphase
    exact ⟨hlt, by simp only [State.setRaw_cfg, State.setRaw_raw, hused]; omega⟩
  · have hge : ¬ d.k + 1 < s.cfg.decIn := fun hlt => by simp [hlt] at hphase
    exact Nat.le_antisymm hk (Nat.le_of_not_lt hge)

theorem ProgressInv.resume (hc : ConfigOk s) (hr : RingsInv s) (h : ProgressInv s) (he : ResumeEffect x s t) :
    ProgressInv t := by
  cases he with
  | flush | drainDone => exact (h.setIdle x).mono
  | drainBlock d hp hd hu =>
    exact h.setDrain (h.drains x d hp).1 (Drain.wellFormed_collect hc.one_le_decIn.1 hu)
  | drainCollect d e r hp hd he =>
    obtain ⟨hx, hw⟩ := h.drains x d hp
    exact h.setDrain hx (hw.collectStep hr hd he)
  | drainEmit d r hp hd =>
    obtain ⟨hx, hw⟩ := h.drains x d hp
    exact h.setDrain hx ⟨fun hne => absurd rfl hne, hw.range, nofun, nofun⟩
  | _ => exact h.mono

theorem ProgressInv.dma (h : ProgressInv s) (he : DmaEffect s t) : ProgressInv t := by
  cases he <;> exact h.mono

/-! ### The halt (60_exceptions R232, R240) -/

theorem HaltInv.congr (h : HaltInv s) (hhalted : t.halted = s.halted := by simp)
    (hcode : t.haltCode = s.haltCode := by simp) (hdiag : t.diag = s.diag := by simp) : HaltInv t := by
  unfold HaltInv at *
  rwa [hhalted, hcode, hdiag]

/-- A running core that enters the halt names its cause. -/
theorem HaltInv.raise (h : HaltInv s) (hr : Running s) {code : HaltCode} (hcode : code ≠ .none) :
    HaltInv { s with halted := true, haltCode := code, diag := s.diag ++ [code] } := by
  obtain ⟨-, -, hdiag⟩ | ⟨hhalted, -, -⟩ := h
  · exact .inr ⟨rfl, hcode, by simp [hdiag]⟩
  · simp [hr.notHalted] at hhalted

theorem HaltInv.command (h : HaltInv s) (hr : Running s) (he : CommandEffect x s i t) : HaltInv t := by
  cases he with
  | decPushFull | ppPollOverrun => exact h.raise hr (by decide)
  | _ => exact h.congr

theorem HaltInv.resume (h : HaltInv s) (hr : Running s) (he : ResumeEffect x s t) : HaltInv t := by
  cases he with
  | drainOverflow => exact h.raise hr (by decide)
  | _ => exact h.congr

theorem HaltInv.dma (h : HaltInv s) (he : DmaEffect s t) : HaltInv t := by
  cases he <;> exact h.congr

/-! ### All of them -/

/-- The environment's fields and the fault record do not matter to the invariants. -/
theorem CoreInv.setEnvironment (h : CoreInv s) (cmd : Command) (events : List Event) (draws : Nat)
    (fault : Option FaultRecord) :
    CoreInv { s with cmd := cmd, events := events, draws := draws, fault := fault } :=
  ⟨h.config, h.rings.congr, h.clock, h.debounce.congr, h.buffers.congr, h.playback.congr, h.progress.mono, h.halt⟩

theorem CoreInv.command (h : CoreInv s) (hr : Running s) (hi : Issuable i x s) (he : CommandEffect x s i t) :
    CoreInv t where
  config := h.config.of_continues he.continues
  rings := h.rings.command hi he
  clock := h.clock.command he
  debounce := h.debounce.command h.config he
  buffers := h.buffers.command hi he
  playback := h.playback.command he
  progress := h.progress.command h.config h.rings hi he
  halt := h.halt.command hr he

theorem CoreInv.resume (h : CoreInv s) (hr : Running s) (he : ResumeEffect x s t) : CoreInv t where
  config := h.config.of_continues he.continues
  rings := h.rings.resume he
  clock := h.clock.congr he.continues.cfg he.cnt
  debounce := h.debounce.resume he
  buffers := h.buffers.resume he
  playback := h.playback.resume he
  progress := h.progress.resume h.config h.rings he
  halt := h.halt.resume hr he

theorem CoreInv.dma (h : CoreInv s) (he : DmaEffect s t) : CoreInv t where
  config := h.config.of_continues he.continues
  rings := h.rings.dma he
  clock := h.clock.congr he.continues.cfg he.cnt
  debounce := h.debounce.dma he
  buffers := h.buffers.dma he
  playback := h.playback.dma he
  progress := h.progress.dma he
  halt := h.halt.dma he

theorem CoreInv.step (h : CoreInv s) (hs : step s = .next t) : CoreInv t :=
  step_keeps CoreInv (fun s cmd events draws h => h.setEnvironment cmd events draws s.fault)
    (fun s fault h => h.setEnvironment s.cmd s.events s.draws fault)
    (fun _ _ _ _ hr h _ hi he => h.command hr hi he) (fun _ _ _ hr h he => h.resume hr he)
    (fun _ _ _ h he => h.dma he) h hs

/-- Rings and buffers that are well formed have their configured sizes. -/
theorem CoreInv.memory_wf (h : CoreInv s) : Memory.wf s := by
  refine ⟨h.rings.raw.size, h.rings.mic.size, ?_, h.buffers.length0, h.buffers.length1⟩
  refine List.ext_getElem (by simpa [Config.nrb] using h.rings.count) fun n hn hn' => ?_
  rw [List.length_map] at hn hn'
  have hw := h.rings.general n _ (List.getElem?_eq_getElem hn)
  have hcfg : s.cfg.rb[n + 2]? = some (s.cfg.rb.drop 2)[n] := by
    rw [← List.getElem?_eq_getElem hn', List.getElem?_drop, Nat.add_comm]
  rw [List.getElem_map, List.getElem_map, ← (ring_of_getElem? hcfg).1]
  exact hw.size

end

end Sys2Proof.Machine
end

section
/-! PROOF. The state at reset (10_state R48): its fields, that every content of the drawn spaces is some draw's, and
that it is well formed. -/

namespace Sys2Proof.Machine

/-! ### Drawn spaces (10_state R48) -/

section
variable {α : Type}

@[simp] theorem length_drawnSpace (draw : List α) (dflt : α) (n : Nat) : (drawnSpace draw dflt n).length = n := by
  simp [drawnSpace]

/-- A draw of the space's length is the space's content. -/
theorem drawnSpace_eq {draw : List α} (dflt : α) {n : Nat} (h : draw.length = n) : drawnSpace draw dflt n = draw := by
  subst h
  refine List.ext_getElem (by simp) fun k hk hk' => ?_
  simp [drawnSpace, hk']

end

theorem length_bufferAtReset (c : Config) (draw : List Native) : (bufferAtReset c draw).length = c.blockLen := by
  simp [bufferAtReset]

theorem bufferAtReset_inRange (c : Config) (draw : List Native) :
    ∀ v ∈ bufferAtReset c draw, nativeInRange c.nativeW v := by
  intro v hv
  obtain ⟨a, -, rfl⟩ := List.mem_map.mp hv
  exact nativeInRange_bmod _ a

/-- Cutting a value to a width it fits leaves it. -/
theorem bmod_of_nativeInRange {w : Nat} {v : Int} (h : nativeInRange w v) : v.bmod (2 ^ w) = v := by
  obtain ⟨hlo, hhi⟩ := h
  exact Int.bmod_eq_of_le (by simpa using hlo) (by simpa using hhi)

theorem bufferAtReset_eq {c : Config} {draw : List Native} (hlen : draw.length = c.blockLen)
    (hv : ∀ v ∈ draw, nativeInRange c.nativeW v) : bufferAtReset c draw = draw := by
  rw [bufferAtReset, drawnSpace_eq 0 hlen, List.map_congr_left fun v h => bmod_of_nativeInRange (hv v h), List.map_id']

/-- A general ring at reset is empty, has its size, and holds elements of its width. -/
theorem generalRingAtReset_spec (r : RingConfig) (draw : List Nat) :
    (generalRingAtReset r draw).head = 0 ∧ (generalRingAtReset r draw).tail = 0 ∧
    (generalRingAtReset r draw).size = r.n ∧ ∀ e ∈ (generalRingAtReset r draw).store, e < 2 ^ r.w := by
  refine ⟨rfl, rfl, by simp [generalRingAtReset, RingBuffer.atReset, RingBuffer.size], fun e he => ?_⟩
  obtain ⟨a, -, rfl⟩ := List.mem_map.mp he
  exact Nat.mod_lt _ (Nat.two_pow_pos r.w)

theorem generalRingAtReset_eq {r : RingConfig} {draw : List Nat} (hlen : draw.length = r.n)
    (hw : ∀ e ∈ draw, e < 2 ^ r.w) : generalRingAtReset r draw = ⟨draw, 0, 0⟩ := by
  rw [generalRingAtReset, drawnSpace_eq 0 hlen, List.map_congr_left fun e h => Nat.mod_eq_of_lt (hw e h), List.map_id']
  rfl

/-! ### The general rings at reset -/

/-- General ring number `n` of the state is ring number `n + 2` of the configuration. -/
theorem resetOf_rings_getElem? (c : Config) (d : Draws) (n : Nat) :
    (State.resetOf c d).rings[n]? = (c.rb[n + 2]?).map fun r => generalRingAtReset r (d.rings.getD n []) := by
  simp [State.resetOf, Nat.add_comm]

theorem resetOf_ring? {c : Config} {i : Nat} (h2 : 2 ≤ i) (hi : i < c.nrb) (d : Draws) :
    ∃ r, r.n = c.ringN i ∧ r.w = c.ringW i ∧
      (State.resetOf c d).ring? i = some (generalRingAtReset r (d.rings.getD (i - 2) [])) := by
  have hget : c.rb[i]? = some (c.rb[i]'hi) := List.getElem?_eq_getElem hi
  obtain ⟨hn, hw⟩ := ring_of_getElem? hget
  refine ⟨_, hn.symm, hw.symm, ?_⟩
  rw [State.ring?, if_pos h2, resetOf_rings_getElem?, Nat.sub_add_cancel h2, hget]
  rfl

/-! ### The state at reset is well formed -/

section
variable {c : Config}

/-- A ring at reset is well formed if it has a slot. -/
theorem RingBuffer.WellFormed.atReset {α : Type} {store : List α} {n : Nat} (hlen : store.length = n) (hn : 0 < n) :
    (RingBuffer.atReset store).WellFormed n :=
  ⟨hlen, hn, hn⟩

theorem resetOf_rings (hc : brokenConstraints c = []) (d : Draws) : RingsInv (State.resetOf c d) := by
  have hraw : 1 ≤ c.decIn ∧ c.decIn ≤ c.ringN 0 - 1 := ConfigOk.one_le_decIn (s := State.resetOf c d) hc
  have hmic : 2 ≤ c.ringN 1 := by simpa [constraintHolds] using constraintHolds_of_ok hc .micSize
  have hsize : ∀ r ∈ c.rb, 1 ≤ r.n := by simpa [constraintHolds] using constraintHolds_of_ok hc .ringSize
  have hring : ∀ n (q : RingBuffer Nat), (State.resetOf c d).rings[n]? = some q →
      q.WellFormed (c.ringN (n + 2)) ∧ ∀ e ∈ q.store, e < 2 ^ c.ringW (n + 2) := by
    intro n q hq
    rw [resetOf_rings_getElem?, Option.map_eq_some_iff] at hq
    obtain ⟨r, hr, rfl⟩ := hq
    obtain ⟨hn, hw⟩ := ring_of_getElem? hr
    have hpos : 0 < r.n := hsize r (List.mem_of_getElem? hr)
    obtain ⟨hhead, htail, hlen, hfit⟩ := generalRingAtReset_spec r (d.rings.getD n [])
    rw [hn, hw]
    exact ⟨⟨hlen, by rwa [hhead], by rwa [htail]⟩, hfit⟩
  exact {
    raw := .atReset (length_drawnSpace _ _ _) (by show 0 < c.ringN 0; omega)
    mic := .atReset (length_drawnSpace _ _ _) (by show 0 < c.ringN 1; omega)
    count := by simp [State.resetOf, Config.nrb]
    general := fun n q hq => (hring n q hq).1
    widths := fun n q hq => (hring n q hq).2 }

/-- At reset every filter is Uninit. -/
theorem resetOf_db_ne {d : Draws} {j : Nat} {f : Debounce} : (State.resetOf c d).db[j]? ≠ some (some f) := by
  intro hf
  cases List.eq_of_mem_replicate (List.mem_of_getElem? hf)

theorem resetOf_core (hc : brokenConstraints c = []) (d : Draws) : CoreInv (State.resetOf c d) where
  config := hc
  rings := resetOf_rings hc d
  clock := by
    show c.clkReset < c.clockModulus
    simpa [constraintHolds] using constraintHolds_of_ok hc .clockReset
  debounce :=
    { count := List.length_replicate
      filters := fun _ _ hf => absurd hf resetOf_db_ne
      lastTrue := fun _ _ hf => absurd hf resetOf_db_ne
      lastFalse := fun _ _ hf => absurd hf resetOf_db_ne }
  buffers := ⟨length_bufferAtReset c d.buf0, length_bufferAtReset c d.buf1, bufferAtReset_inRange c d.buf0,
    bufferAtReset_inRange c d.buf1⟩
  playback := ⟨rfl, fun _ => rfl, nofun, nofun, nofun, nofun⟩
  progress := ⟨fun x _ h => (by cases x <;> cases h), fun x _ _ h => (by cases x <;> cases h)⟩
  halt := .inl ⟨rfl, rfl, rfl⟩

end

end Sys2Proof.Machine
end

section
/-! PROOF. The statements of 10_state: what every step keeps, and the state at reset. -/

namespace Sys2Proof.Machine

/-- Settles O49: every kind of effect keeps each invariant, and they give the memory its form. -/
theorem stepKeepsWellFormed : Obligations.StepKeepsWellFormed := fun _ _ h hs =>
  ⟨h.step hs, (h.step hs).memory_wf⟩

/-- Settles O46: by cases on what the step can do. -/
theorem stepKeepsRings : Obligations.StepKeepsRings := fun _ _ =>
  step_keeps RingsInv (fun _ _ _ _ h => h.congr) (fun _ _ h => h.congr) (fun _ _ _ _ _ h _ hi he => h.command hi he)
    (fun _ _ _ _ h he => h.resume he) (fun _ _ _ h he => h.dma he)

/-- Settles O51: what a step answers continues the state before it, by cases on what it can do. -/
theorem configurationFixedAndLogsGrow : Obligations.ConfigurationFixedAndLogsGrow := by
  intro s t h
  obtain ⟨hcfg, hplayed, hedges, hdiag⟩ := step_keeps (Continues s)
    (fun _ _ _ _ h => ⟨h.cfg, h.played, h.edges, h.diag⟩) (fun _ _ h => ⟨h.cfg, h.played, h.edges, h.diag⟩)
    (fun _ _ _ _ _ h _ _ he => h.trans he.continues)
    (fun _ _ _ _ h he => h.trans he.continues) (fun _ _ _ h he => h.trans he.continues) (Continues.refl s) h
  exact ⟨hcfg, hplayed, hedges, hdiag⟩

/-- Settles O52: of everything a step can do, only the effect of CLK_TICK writes the counter. -/
theorem onlyTickMovesCounter : Obligations.OnlyTickMovesCounter := by
  intro s t h hne
  obtain ⟨-, -, h⟩ := step_effect h
  obtain ⟨cmd, hev, rfl | ⟨code, rfl⟩ | ⟨i, x, hi, hx, -, he⟩⟩ | ⟨x, -, he⟩ | ⟨-, he⟩ := takeEvent_effect h
  · exact absurd (State.afterEvent_cnt s) hne
  · exact absurd (State.afterEvent_cnt s) hne
  · obtain hc | ⟨rfl, hc⟩ := he.cnt
    · exact absurd (hc.trans (State.afterEvent_cnt s)) hne
    · have hxt : x = .tickIsr := by simpa [permitted] using hx.allowed
      exact ⟨cmd, hev, hi, hxt ▸ hx.context, by simpa [Config.clockModulus] using hc⟩
  · exact absurd (he.cnt.trans (State.afterEvent_cnt s)) hne
  · exact absurd (he.cnt.trans (State.afterEvent_cnt s)) hne

/-- Settles O43: a drawn space keeps every content of its length and width, so each is its own draw. -/
theorem resetValues : Obligations.ResetValues := by
  intro c hc
  refine ⟨?_, ?_⟩
  · rintro d s rfl
    refine ⟨rfl, rfl, rfl, by simp [State.resetOf, hc], fun x => by cases x <;> rfl,
      rfl, rfl, length_drawnSpace _ _ _, rfl, rfl, length_drawnSpace _ _ _, fun i h2 hi => ?_,
      rfl, List.length_replicate, fun _ => List.eq_of_mem_replicate, rfl,
      length_bufferAtReset c d.buf0, length_bufferAtReset c d.buf1, rfl, rfl, rfl, rfl, rfl, rfl, rfl⟩
    obtain ⟨r, hn, hw, hr⟩ := resetOf_ring? h2 hi d
    rw [← hn, ← hw]
    exact ⟨_, hr, generalRingAtReset_spec r _⟩
  · intro raw mic rings buf0 buf1 hraw hmic hrings hlen0 hv0 hlen1 hv1
    refine ⟨⟨raw, mic, rings, buf0, buf1⟩, drawnSpace_eq 0 hraw, drawnSpace_eq 0 hmic, fun i store h2 hi hstore => ?_,
      bufferAtReset_eq hlen0 hv0, bufferAtReset_eq hlen1 hv1⟩
    obtain ⟨r, hn, hw, hr⟩ := resetOf_ring? h2 hi ⟨raw, mic, rings, buf0, buf1⟩
    obtain ⟨hlen, hfit⟩ := hrings i store h2 hi hstore
    rw [hr, List.getD_eq_getElem?_getD, hstore]
    exact congrArg some (generalRingAtReset_eq (hlen.trans hn.symm) (hw ▸ hfit))

/-- Settles O45: the fields at reset meet each invariant. -/
theorem resetIsWellFormed : Obligations.ResetIsWellFormed := by
  refine ⟨fun c d hc => ?_, by decide⟩
  have h := resetOf_core hc d
  exact ⟨h, ⟨rfl, if_pos hc⟩, h.memory_wf⟩

end Sys2Proof.Machine
end

section
/-! PROOF. The statements of 20_memory: a well-formed running core always has a next state, since every access stays in
its element space (R62), and the operations that only read change no element of one (R64). -/

namespace Sys2Proof.Machine

/-- The outcome is a next state: the step neither stops nor is refused. -/
abbrev Answers (o : Result) : Prop := ∃ t, o = .next t

section
variable {s : State} {i : Instr} {x : Context}

/-! ### The shared operations answer -/

theorem Answers.ite {p : Prop} [Decidable p] {o o' : Result} (h : Answers o) (h' : Answers o') :
    Answers (if p then o else o') := by
  split
  · exact h
  · exact h'

/-- A check of 30_encoding R88 that fails answers too, so only the rule of an issuable operation matters. -/
theorem issue_answers {rule : Context → Result} (hr : Running s) (h : ∀ x, Issuable i x s → Answers (rule x)) :
    Answers (issue i s rule) := by
  obtain ⟨hh, -⟩ | ⟨hf, -⟩ | ⟨-, code, ho⟩ | ⟨x, hi, ho⟩ := issue_cases (s := s) (i := i) (rule := rule) _ rfl
  · simp [hr.notHalted] at hh
  · exact absurd hr.noFault hf
  · exact ⟨_, ho⟩
  · exact ho ▸ h x hi

/-- The state has every general ring of the configuration (10_state R23). -/
theorem RingsInv.ring?_of_lt (h : RingsInv s) {n : Nat} (h2 : 2 ≤ n) (hn : n < s.cfg.nrb) :
    ∃ r, s.ring? n = some r := by
  have hlt : n - 2 < s.rings.length := by rw [h.count]; omega
  exact ⟨s.rings[n - 2], by simp [State.ring?, h2, hlt]⟩

theorem RingsInv.withRing_answers (h : RingsInv s) {inst : InstNo} (hl : legalDataRing s.cfg inst = true)
    {k : RingBuffer Nat → Result} (hk : ∀ r, r.WellFormed (s.cfg.ringN inst.toNat) → Answers (k r)) :
    Answers (withRing inst s k) := by
  simp only [legalDataRing, Bool.and_eq_true, decide_eq_true_eq] at hl
  obtain ⟨h2, hn⟩ := hl
  obtain ⟨r, hr⟩ := h.ring?_of_lt h2 hn
  rw [withRing_of_some hr]
  exact hk r (h.ring hr).1

/-- RB_USED and RB_FREE may also name RAW and MIC, which the state always has (30_encoding R86). -/
theorem RingsInv.ringCount_answers (h : RingsInv s) {inst : InstNo} (hl : legalRing s.cfg inst = true)
    {ofRaw : RingBuffer Byte → Nat} {ofMic : RingBuffer Sample → Nat} {ofRing : RingBuffer Nat → Nat}
    {k : Nat → Result} (hk : ∀ n, Answers (k n)) : Answers (ringCount inst s ofRaw ofMic ofRing k) := by
  unfold ringCount
  split
  · exact hk _
  · exact hk _
  next h0 h1 =>
    have hd : legalDataRing s.cfg inst = true := by
      simp only [legalRing, legalDataRing, Bool.and_eq_true, decide_eq_true_eq] at hl ⊢
      exact ⟨(Nat.two_le_iff _).mpr ⟨h0, h1⟩, hl⟩
    exact h.withRing_answers hd fun r _ => hk _

/-- The state has every debounce filter of the configuration (10_state R28). -/
theorem DebounceInv.withDebounce_answers (h : DebounceInv s) {inst : InstNo} (hl : legalDebounce s.cfg inst = true)
    {k : Option Debounce → Result} (hk : ∀ d, Answers (k d)) : Answers (withDebounce inst s k) := by
  simp only [legalDebounce, decide_eq_true_eq, ← h.count] at hl
  rw [withDebounce_of_some (List.getElem?_eq_getElem hl)]
  exact hk _

/-! ### Every agent's step answers -/

theorem drainCheck_answers (x : Context) (d : Drain) (s : State) : Answers (drainCheck x d s) :=
  .ite ⟨_, rfl⟩ ⟨_, rfl⟩

/-- A legal operation finds the ring or the filter it names, and an access of a well-formed ring is inside its store. -/
theorem exec_answers (hrings : RingsInv s) (hdb : DebounceInv s) (hr : Running s) (i : Instr) :
    Answers (exec i s) := by
  cases i with
  | rbWrite inst =>
    refine issue_answers hr fun x hi => hrings.withRing_answers hi.legal fun r hw => .ite ⟨_, rfl⟩ ?_
    obtain ⟨r', hp⟩ := hw.push_some s.cmd.arg0
    rw [hp]
    exact ⟨_, rfl⟩
  | rbRead inst =>
    refine issue_answers hr fun x hi => hrings.withRing_answers hi.legal fun r hw => .ite ⟨_, rfl⟩ ?_
    obtain ⟨e, hp⟩ := hw.pop_some
    rw [hp]
    exact ⟨_, rfl⟩
  | rbPeek inst =>
    refine issue_answers hr fun x hi => hrings.withRing_answers hi.legal fun r hw => .ite ⟨_, rfl⟩ ?_
    rw [RingBuffer.front_eq (hw.size.symm ▸ hw.tail)]
    exact ⟨_, rfl⟩
  | rbUsed inst | rbFree inst =>
    exact issue_answers hr fun x hi => hrings.ringCount_answers hi.legal fun n => ⟨_, rfl⟩
  | rbFlush inst => exact issue_answers hr fun x hi => hrings.withRing_answers hi.legal fun r _ => ⟨_, rfl⟩
  | clkTick | clkNow | clkDelayFrom | clkHasPassed | sysIdle | sysStatus =>
    exact issue_answers hr fun x _ => ⟨_, rfl⟩
  | dbInit inst => exact issue_answers hr fun x hi => hdb.withDebounce_answers hi.legal fun _ => ⟨_, rfl⟩
  | dbSample inst | dbState inst =>
    refine issue_answers hr fun x hi => hdb.withDebounce_answers hi.legal fun d => ?_
    cases d <;> exact ⟨_, rfl⟩
  | decPush =>
    refine issue_answers hr fun x _ => .ite ⟨_, rfl⟩ ?_
    obtain ⟨r, hp⟩ := hrings.raw.push_some (BitVec.ofNat 8 s.cmd.arg0)
    rw [hp]
    exact ⟨_, rfl⟩
  | decDrain => exact issue_answers hr fun x _ => drainCheck_answers x _ s
  | micFetch =>
    refine issue_answers hr fun x _ => ?_
    obtain ⟨samples, r, hp, -⟩ := hrings.mic.popMany (min s.mic.used s.cfg.micBlock)
    rw [hp]
    exact ⟨_, rfl⟩
  | ppStart | ppPlaying =>
    refine issue_answers hr fun x _ => ?_
    cases s.pp <;> exact ⟨_, rfl⟩
  | ppComplete =>
    refine issue_answers hr fun x _ => ?_
    cases s.pp with
    | none => exact ⟨_, rfl⟩
    | some p => exact .ite ⟨_, rfl⟩ ⟨_, rfl⟩
  | ppPoll =>
    refine issue_answers hr fun x _ => ?_
    cases s.pp with
    | none => exact ⟨_, rfl⟩
    | some p => exact .ite ⟨_, rfl⟩ (.ite (.ite ⟨_, rfl⟩ ⟨_, rfl⟩) ⟨_, rfl⟩)
  | ppFill =>
    refine issue_answers hr fun x _ => ?_
    cases s.pp with
    | none => exact ⟨_, rfl⟩
    | some p => exact .ite ⟨_, rfl⟩ (.ite ⟨_, rfl⟩ ⟨_, rfl⟩)

theorem drainStep_answers (hrings : RingsInv s) (x : Context) (d : Drain) : Answers (drainStep x d s) := by
  obtain ⟨phase, k, acc, blocks⟩ := d
  cases phase with
  | check => exact drainCheck_answers x _ s
  | collect =>
    obtain ⟨e, hp⟩ := hrings.raw.pop_some
    simp [drainStep, drainCollect, hp]
  | emit =>
    obtain ⟨r, hp, -⟩ := hrings.mic.pushWhileFree (filterBlock s.cfg s.fs acc)
    simp only [drainStep, drainEmit, hp]
    exact .ite ⟨_, rfl⟩ ⟨_, rfl⟩

theorem resumeStep_answers (hrings : RingsInv s) (hprogress : ProgressInv s) (x : Context) :
    Answers (resumeStep x s) := by
  unfold resumeStep
  split
  next => exact ⟨_, rfl⟩
  next inst j hp => exact hrings.withRing_answers (hprogress.flushes x inst j hp) fun r _ => ⟨_, rfl⟩
  next d hp => exact drainStep_answers hrings x d

theorem dmaStep_answers (s : State) : Answers (dmaStep s) := by
  unfold dmaStep
  split
  · exact ⟨_, rfl⟩
  · exact .ite ⟨_, rfl⟩ ⟨_, rfl⟩

theorem CoreInv.takeEvent_answers (h : CoreInv s) (hr : Running s) (e : Event) : Answers (takeEvent e s) := by
  cases e with
  | command cmd =>
    have hc : CoreInv { s with cmd := cmd } := h.setEnvironment cmd s.events s.draws s.fault
    refine .ite ⟨_, rfl⟩ ?_
    unfold runCommand
    split
    next i _ => exact exec_answers hc.rings hc.debounce ⟨hr.notHalted, hr.noFault⟩ i
    next => exact ⟨_, rfl⟩
  | resume x => exact resumeStep_answers h.rings h.progress x
  | dma => exact dmaStep_answers s

theorem CoreInv.afterEvent (h : CoreInv s) : CoreInv s.afterEvent := by
  unfold State.afterEvent
  split
  · exact h.setEnvironment s.cmd _ s.draws s.fault
  · exact h.setEnvironment s.cmd s.events _ s.fault

theorem CoreInv.step_answers (h : CoreInv s) (hr : Running s) : Answers (Machine.step s) := by
  have hr' : Running s.afterEvent := ⟨by simp [hr.notHalted], by simp [hr.noFault]⟩
  rw [step_eq_stepOn, stepOn_of_running hr']
  exact h.afterEvent.takeEvent_answers hr' (nextEvent s)

/-! ### Operations that only read (20_memory R64) -/

theorem CommandEffect.eq_setResults {t : State} (he : CommandEffect x s i t) (hi : readsOnly i = true) :
    ∃ r, t = s.setResults x r := by
  cases he with
  | ports i r => exact ⟨r, rfl⟩
  | _ => cases hi

end

/-! ### The statements -/

/-- Settles O50: each agent's step answers, and the bytes a collection still lacks are in the raw ring. -/
theorem wellFormedCoreNeverStops : Obligations.WellFormedCoreNeverStops := by
  intro s h hr
  refine ⟨h.step_answers hr, fun x d hd hphase => ?_⟩
  obtain ⟨hk, hu⟩ := (h.progress.drains x d hd).2.collect hphase
  omega

/-- Settles O55: a reading operation writes SYS.fault alone, or the ports of the context that issued it. -/
theorem readingOperationsChangeNothing : Obligations.ReadingOperationsChangeNothing := by
  intro s t inst i hi h
  have hreads : readsOnly i = true := by
    simp only [List.mem_cons, List.not_mem_nil, or_false] at hi
    obtain rfl | rfl | rfl | rfl | rfl | rfl | rfl | rfl | rfl | rfl := hi <;> rfl
  obtain ⟨-, ⟨code, rfl⟩ | ⟨x, hx, he⟩⟩ := exec_effect h
  · exact ⟨rfl, fun _ _ => rfl, fun _ => ⟨rfl, rfl, rfl, rfl, fun _ r hr => ⟨r, hr, rfl⟩⟩⟩
  · obtain ⟨res, rfl⟩ := he.eq_setResults hreads
    refine ⟨rfl, fun y hy => ?_, fun _ => ⟨rfl, rfl, rfl, rfl, fun _ r hr => ⟨r, hr, rfl⟩⟩⟩
    have hne : y ≠ x := fun hyx => hy (hyx ▸ hx.context)
    simp [hne]

end Sys2Proof.Machine
end

section
/-! PROOF. The decoder and the encoder (30_encoding R83 to R87): the fields of a word, that the four fields are the whole
word, and that each inverts the other. -/

namespace Sys2Proof

section
variable {i j : Instr} {inst : InstNo} {w : CommandWord}

/-! ### The fields of a word (R83) -/

@[simp] theorem unitField_commandWord (unit op : BitVec 4) (inst : InstNo) :
    unitField (commandWord unit op inst) = unit :=
  (BitVec.extractLsb'_append_eq_of_le (by decide : 16 ≤ 28)).trans <|
    (BitVec.extractLsb'_append_eq_of_le (by decide : 8 ≤ 12)).trans BitVec.extractLsb'_append_eq_left

@[simp] theorem opField_commandWord (unit op : BitVec 4) (inst : InstNo) :
    opField (commandWord unit op inst) = op :=
  (BitVec.extractLsb'_append_eq_of_le (by decide : 16 ≤ 24)).trans <|
    (BitVec.extractLsb'_append_eq_of_le (by decide : 8 ≤ 8)).trans BitVec.extractLsb'_append_eq_right

@[simp] theorem instField_commandWord (unit op : BitVec 4) (inst : InstNo) :
    instField (commandWord unit op inst) = inst :=
  (BitVec.extractLsb'_append_eq_of_le (by decide : 16 ≤ 16)).trans BitVec.extractLsb'_append_eq_right

@[simp] theorem rsvdField_commandWord (unit op : BitVec 4) (inst : InstNo) :
    rsvdField (commandWord unit op inst) = 0 :=
  BitVec.extractLsb'_append_eq_right

/-- The four fields are the whole word. -/
theorem commandWord_fields (h : rsvdField w = 0) : commandWord (unitField w) (opField w) (instField w) = w := by
  have hr : 0#16 = w.extractLsb' 0 16 := h.symm
  rw [commandWord, unitField, opField, instField, hr,
    BitVec.extractLsb'_append_extractLsb'_eq_extractLsb' (by decide : 28 = 24 + 4),
    BitVec.extractLsb'_append_extractLsb'_eq_extractLsb' (by decide : 24 = 16 + 8),
    BitVec.extractLsb'_append_extractLsb'_eq_extractLsb' (by decide : 16 = 0 + 16)]
  exact BitVec.extractLsb'_eq_self

/-! ### Decoding and encoding (R84 to R86) -/

/-- The decoder reads the opcode table at the fields the word was put together from. -/
theorem decode_commandWord (unit op : BitVec 4) (inst : InstNo) :
    decode (commandWord unit op inst) = decodeUnit op.toNat inst unit.toNat := by
  simp [decode]

@[simp] theorem withoutInst_eq_ok : withoutInst inst j = .ok i ↔ inst = 0 ∧ j = i := by
  by_cases h : inst = 0#8 <;> simp [withoutInst, h]

/-- A row of the opcode table holds the operation that the encoder gives the row's UNIT, OP and INST. -/
theorem encode_of_decodeUnit {op unit : Nat} (h : decodeUnit op inst unit = .ok i) :
    encode i = commandWord (BitVec.ofNat 4 unit) (BitVec.ofNat 4 op) inst := by
  unfold decodeUnit decodeRb decodeClk decodeDb decodeDec decodePp decodeSys at h
  split at h
  -- RB and DB: any INST
  case h_1 | h_3 => split at h <;> cases h <;> rfl
  -- CLK, DEC, PP and SYS: INST 0
  case h_2 | h_4 | h_5 | h_6 =>
    split at h <;> simp only [withoutInst_eq_ok, reduceCtorEq] at h
    all_goals
      obtain ⟨rfl, rfl⟩ := h
      rfl
  -- a reserved UNIT
  case h_7 => cases h

theorem decode_encode (i : Instr) : decode (encode i) = .ok i := by
  cases i <;> exact decode_commandWord _ _ _

theorem encode_of_decode (h : decode w = .ok i) : encode i = w := by
  unfold decode at h
  split at h
  next hr =>
    calc encode i = commandWord (unitField w) (opField w) (instField w) := by
          simpa using encode_of_decodeUnit h
      _ = w := commandWord_fields hr
  next => cases h

/-- Only the words of RB and DB operations have an INST other than 0 (R86). -/
theorem instField_encode (h0 : unitField (encode i) ≠ 0) (h2 : unitField (encode i) ≠ 2) :
    instField (encode i) = 0 := by
  cases i with
  | rbWrite | rbRead | rbPeek | rbUsed | rbFree | rbFlush => simp [encode] at h0
  | dbInit | dbSample | dbState => simp [encode] at h2
  | _ => simp [encode]

end

end Sys2Proof
end

section
/-! PROOF. The checks before an operation (30_encoding R86, R88, R89), each with the outcome of an operation that fails
it, and the step that a command's turn is. -/

namespace Sys2Proof.Machine

section
variable {s : State} {i : Instr} {x : Context}

/-! ### What each check tests (R86, R89) -/

@[simp] theorem legalDataRing_iff {c : Config} {inst : InstNo} :
    legalDataRing c inst = true ↔ 2 ≤ inst.toNat ∧ inst.toNat < c.nrb := by
  simp [legalDataRing]

@[simp] theorem legalRing_iff {c : Config} {inst : InstNo} : legalRing c inst = true ↔ inst.toNat < c.nrb := by
  simp [legalRing]

@[simp] theorem legalDebounce_iff {c : Config} {inst : InstNo} :
    legalDebounce c inst = true ↔ inst.toNat < c.ndb := by
  simp [legalDebounce]

@[simp] theorem fits_iff {v w : Nat} : fits v w = true ↔ v < 2 ^ w := by
  simp [fits]

/-! ### The first check that fails decides (R88) -/

/-- Every operation is its own rule behind the checks of R88. -/
theorem exec_eq_issue (i : Instr) (s : State) : ∃ rule, exec i s = issue i s rule := by
  cases i <;> exact ⟨_, rfl⟩

theorem exec_of_halted (h : s.halted = true) (i : Instr) : exec i s = .fault .halted := by
  obtain ⟨rule, hi⟩ := exec_eq_issue i s
  simp [hi, issue, h]

theorem exec_of_faulted (h : s.halted = false) (hf : s.fault ≠ none) (i : Instr) : exec i s = .fault .faulted := by
  obtain ⟨rule, hi⟩ := exec_eq_issue i s
  simp [hi, issue, h, Option.isSome_iff_ne_none.mpr hf]

theorem exec_of_not_wellFormed (hr : Running s) (h : ¬ i.WellFormed s.cfg) :
    exec i s = raiseFault .illegalCommand s := by
  obtain ⟨rule, hi⟩ := exec_eq_issue i s
  simp [hi, issue, hr.notHalted, hr.noFault, Bool.eq_false_iff.mpr h]

theorem exec_of_not_operandsFit (hr : Running s) (hl : i.WellFormed s.cfg) (hx : contextOfId s.cmd.ctx = some x)
    (hp : permitted s.cfg x i = true) (h : operandsFit s.cfg s.cmd i = false) :
    exec i s = raiseFault .operand s := by
  obtain ⟨rule, hi⟩ := exec_eq_issue i s
  simp [hi, issue, hr.notHalted, hr.noFault, hl, hx, hp, h]

/-! ### The turn of a command (R80, 10_state R26) -/

theorem runCommand_of_decode (h : decode s.cmd.word = .ok i) : runCommand s = exec i s := by
  simp [runCommand, h]

/-- A word that is no operation fails the same check as an operation that is not well formed (R93). -/
theorem runCommand_of_illegal (hr : Running s) (h : ∀ i, decode s.cmd.word = .ok i → ¬ i.WellFormed s.cfg) :
    runCommand s = raiseFault .illegalCommand s := by
  cases hd : decode s.cmd.word with
  | error e => simp [runCommand, hd]
  | ok i => rw [runCommand_of_decode hd, exec_of_not_wellFormed hr (h i hd)]

theorem step_of_command {cmd : Command} {es : List Event} (hr : Running s) (he : s.events = .command cmd :: es)
    (hb : busy s cmd.ctx = false) : step s = runCommand { s with events := es, cmd := cmd } := by
  have hb : busy { s with events := es } cmd.ctx = false := hb
  simp [step_of_event hr he, takeEvent, hb]

theorem step_of_command_busy {cmd : Command} {es : List Event} (hr : Running s) (he : s.events = .command cmd :: es)
    (hb : busy s cmd.ctx = true) : step s = .next { s with events := es } := by
  have hb : busy { s with events := es } cmd.ctx = true := hb
  simp [step_of_event hr he, takeEvent, hb]

end

end Sys2Proof.Machine
end

section
/-! PROOF. The statements of 30_encoding: decode and encode, the checks before an operation and the step that performs
it. -/

namespace Sys2Proof.Machine

/-- Settles O2: the decoder reads back the fields that the encoder wrote. -/
theorem decodeOfEncodeIsInstr : Obligations.DecodeOfEncodeIsInstr := decode_encode

/-- Settles O3: the opcode table gives the fields of the word, and with RSVD = 0 they are all of it. -/
theorem decodedWordIsItsEncoding : Obligations.DecodedWordIsItsEncoding := fun _ _ => encode_of_decode

/-- Settles O4: the table of R86 case by case, and the legality check of R88 behind every operation. -/
theorem illegalCommandRecordsFault : Obligations.IllegalCommandRecordsFault := by
  refine ⟨fun c inst => ?_, fun w i hd h0 h2 => ?_, fun s cmd es hr he hb hill => ?_, fun s i hr hl => ?_⟩
  · simp [Instr.WellFormed, legalInst]
  · obtain rfl := encode_of_decode hd
    exact instField_encode h0 h2
  · have hr' : Running { s with events := es, cmd := cmd } := ⟨hr.notHalted, hr.noFault⟩
    rw [step_of_command hr he hb, runCommand_of_illegal hr' hill]
    rfl
  · exact exec_of_not_wellFormed hr hl

/-- Settles O8: the widths of R89 case by case, and the operand check of R88 behind every operation. -/
theorem operandOutOfRangeFaults : Obligations.OperandOutOfRangeFaults := by
  refine ⟨fun c cmd inst => ?_, fun s i x hr hl hx hp hf => exec_of_not_operandsFit hr hl hx hp hf⟩
  have hbit : cmd.arg0 < 2 ↔ cmd.arg0 = 0 ∨ cmd.arg0 = 1 := by omega
  simp [operandsFit, hbit]
  rfl

/-- Settles O1: the decoder evaluates each word. -/
theorem specWordsDecode : Obligations.SpecWordsDecode :=
  ⟨rfl, rfl, rfl, rfl, rfl, rfl, rfl, rfl, rfl, rfl, rfl⟩

/-- Settles O5: a running core takes the event at the head of its list. -/
theorem stepPerformsDecodedInstr : Obligations.StepPerformsDecodedInstr := by
  refine ⟨fun s cmd es i hr he hb hd => ?_, fun s cmd es => step_of_command_busy, fun s x es => step_of_event,
    fun s es => step_of_event⟩
  rw [step_of_command hr he hb, runCommand_of_decode hd]

/-- Settles O6: the step and every operation test SYS.halted and then SYS.fault before anything else. -/
theorem stoppedCoreHasNoStep : Obligations.StoppedCoreHasNoStep := by
  refine ⟨fun s h => ⟨?_, exec_of_halted h⟩, fun s h hf => ⟨?_, exec_of_faulted h hf⟩⟩
  · simp [step, h]
  · simp [step, h, Option.isSome_iff_ne_none.mpr hf]

end Sys2Proof.Machine
end

section
/-! PROOF. The RB unit's operations, each as one equation (40_ringbuffer R103 to R108), and what a later step of an
operation leaves unchanged. -/

namespace Sys2Proof.Machine

/-! ### Full and empty rings (R101, R102, R109) -/

section
variable {α : Type} {r r' : RingBuffer α} {n : Nat}

/-- A ring is full when N - 1 elements are stored. -/
theorem RingBuffer.free_eq_zero_iff (h : 0 < r.size) : r.free = 0 ↔ r.used = r.size - 1 := by
  have := RingBuffer.used_add_free h
  omega

/-- The counts of R109: both at most N - 1, and together N - 1. -/
theorem RingBuffer.WellFormed.counts (h : r.WellFormed n) :
    r.used ≤ r.size - 1 ∧ r.free ≤ r.size - 1 ∧ r.used + r.free = r.size - 1 := by
  have := RingBuffer.used_add_free (h.size.symm ▸ h.pos)
  omega

/-- The element a read or a peek takes. -/
theorem RingBuffer.WellFormed.front_some (h : r.WellFormed n) : ∃ e, r.front = some e :=
  ⟨_, RingBuffer.front_eq (h.size.symm ▸ h.tail)⟩

/-- The oldest element is the one a read takes, and a read leaves the others. -/
theorem RingBuffer.WellFormed.front_of_contents (h : r.WellFormed n) {e : α} {es : List α} (hc : r.contents = e :: es) :
    r.used ≠ 0 ∧ r.front = some e ∧ r.dropFront.contents = es := by
  have hu : r.used ≠ 0 := fun h0 => by simp [RingBuffer.contents_of_used_zero h0] at hc
  obtain ⟨e', hp⟩ := h.pop_some
  obtain ⟨he, hes⟩ := List.cons.inj ((h.contents_pop (Nat.pos_of_ne_zero hu) hp).symm.trans hc)
  exact ⟨hu, he ▸ (RingBuffer.pop_inv hp).1, hes⟩

/-- The two index writes of a flush, whichever comes first. -/
theorem RingBuffer.clearIndex_otherIndex (i : RingIndex) :
    (r.clearIndex i).clearIndex (otherIndex i) = ⟨r.store, 0, 0⟩ := by
  cases i <;> rfl

@[simp] theorem RingBuffer.used_mk_zero (store : List α) : RingBuffer.used ⟨store, 0, 0⟩ = 0 := by
  simp [RingBuffer.used]

/-- MicSinkWrite's loop does not move the tail. -/
theorem RingBuffer.tail_pushWhileFree {es : List α} (h : r.pushWhileFree es = some r') : r'.tail = r.tail := by
  induction es generalizing r with
  | nil => cases h; rfl
  | cons e es ih =>
    simp only [RingBuffer.pushWhileFree] at h
    split at h
    · obtain ⟨r1, hp, h⟩ := Option.bind_eq_some_iff.mp h
      obtain ⟨-, hr1⟩ := RingBuffer.push_inv hp
      rw [ih h, hr1]
    · exact ih h

end

/-! ### The ports a ring operation names (30_encoding R89) -/

@[simp] theorem ok_okResult (b : Bool) : (okResult b).ok = some b := rfl
@[simp] theorem ok_okResResult (e : Nat) : (okResResult e).ok = some true := rfl
@[simp] theorem res_okResResult (e : Nat) : (okResResult e).res = some e := rfl

/-! ### Each operation, when its checks pass (R103 to R108) -/

section
variable {s t : State} {x y : Context} {i : Instr} {inst : InstNo} {r : RingBuffer Nat} {e : Nat}

theorem exec_rbWrite (hi : Issuable (.rbWrite inst) x s) (hr : s.ring? inst.toNat = some r) (hh : r.head < r.size) :
    exec (.rbWrite inst) s = .next (
      if r.free = 0 then s.setResults x (okResult false)
      else (s.setRing inst.toNat ⟨r.store.set r.head s.cmd.arg0, (r.head + 1) % r.size, r.tail⟩).setResults x
        (okResult true)) := by
  rw [exec, execRbWrite, issue_of_issuable hi, withRing_of_some hr, RingBuffer.push_eq hh]
  split <;> rfl

theorem exec_rbRead (hi : Issuable (.rbRead inst) x s) (hr : s.ring? inst.toNat = some r) (he : r.front = some e) :
    exec (.rbRead inst) s = .next (
      if r.used = 0 then s.setResults x (okResult false)
      else (s.setRing inst.toNat r.dropFront).setResults x (okResResult e)) := by
  rw [exec, execRbRead, issue_of_issuable hi, withRing_of_some hr, RingBuffer.pop, he]
  split <;> rfl

theorem exec_rbPeek (hi : Issuable (.rbPeek inst) x s) (hr : s.ring? inst.toNat = some r) (he : r.front = some e) :
    exec (.rbPeek inst) s = .next (s.setResults x (if r.used = 0 then okResult false else okResResult e)) := by
  rw [exec, execRbPeek, issue_of_issuable hi, withRing_of_some hr, he]
  split <;> rfl

theorem exec_rbFlush (hi : Issuable (.rbFlush inst) x s) (hr : s.ring? inst.toNat = some r) :
    exec (.rbFlush inst) s = .next
      ((s.afterFlushDraw.setRing inst.toNat (r.clearIndex (flushFirst s))).setProgress x
        (.flush inst (otherIndex (flushFirst s)))) := by
  rw [exec, execRbFlush, issue_of_issuable hi, withRing_of_some hr]

/-- The first step of a flush replaces the ring it names. -/
theorem ring?_flushed (hr : s.ring? inst.toNat = some r) (p : Progress) (r' : RingBuffer Nat) :
    ((s.afterFlushDraw.setRing inst.toNat r').setProgress x p).ring? inst.toNat = some r' :=
  setRing_ring?_same (s := s.afterFlushDraw) (by simpa using hr)

/-- The second step of a flush. -/
theorem stepOn_resume_flush {j : RingIndex} (hrun : Running s) (hp : s.progress.get x = .flush inst j)
    (hr : s.ring? inst.toNat = some r) :
    stepOn (.resume x) s =
      .next (((s.setRing inst.toNat (r.clearIndex j)).setProgress x .idle).setResults x .blank) := by
  simp [stepOn_of_running hrun, takeEvent, resumeStep, hp, flushStep, withRing_of_some hr, finish]

/-- With no other step between them, the second step of a flush finds the ring as the first left it. -/
theorem flush_then_resume (hi : Issuable (.rbFlush inst) x s) (hr : s.ring? inst.toNat = some r) :
    ∃ u t, exec (.rbFlush inst) s = .next u ∧ stepOn (.resume x) u = .next t ∧
      t.ring? inst.toNat = some ⟨r.store, 0, 0⟩ ∧ t.progress.get x = .idle ∧ t.results.get x = .blank := by
  have hring := ring?_flushed (x := x) hr (.flush inst (otherIndex (flushFirst s))) (r.clearIndex (flushFirst s))
  have h2 := stepOn_resume_flush (x := x) (j := otherIndex (flushFirst s))
    ⟨by simp [hi.notHalted], by simp [hi.noFault]⟩ (by simp) hring
  rw [RingBuffer.clearIndex_otherIndex] at h2
  exact ⟨_, _, exec_rbFlush hi hr, h2, setRing_ring?_same hring, by simp, by simp⟩

theorem indices?_zero (s : State) : s.indices? 0 = some (s.raw.head, s.raw.tail, s.raw.size) := rfl

theorem indices?_one (s : State) : s.indices? 1 = some (s.mic.head, s.mic.tail, s.mic.size) := rfl

theorem indices?_of_two_le {n : Nat} (h : 2 ≤ n) :
    s.indices? n = (s.ring? n).map fun r => (r.head, r.tail, r.size) := by
  obtain ⟨m, rfl⟩ := Nat.exists_eq_add_of_le' h
  rfl

/-- A count that is a function of the indices and the size answers for whichever ring the operation names (R100). -/
theorem ringCount_of_indices? {h t n : Nat} (hs : s.indices? inst.toNat = some (h, t, n)) (f : Nat → Nat → Nat → Nat)
    (k : Nat → Result) :
    ringCount inst s (fun r => f r.head r.tail r.size) (fun r => f r.head r.tail r.size)
      (fun r => f r.head r.tail r.size) k = k (f h t n) := by
  unfold ringCount
  split
  next h0 =>
    rw [h0, indices?_zero] at hs
    cases hs
    rfl
  next h1 =>
    rw [h1, indices?_one] at hs
    cases hs
    rfl
  next h0 h1 =>
    rw [indices?_of_two_le ((Nat.two_le_iff _).mpr ⟨h0, h1⟩)] at hs
    obtain ⟨r, hr, hs⟩ := Option.map_eq_some_iff.mp hs
    cases hs
    exact withRing_of_some hr

/-! ### A command's turn (30_encoding R80) -/

/-- The turn of an idle context that issues an operation is the operation. -/
theorem stepOn_issueEvent (hrun : Running s) (hx : s.progress.get x = .idle) (arg0 arg1 : Nat) (blkIn : List Sample) :
    stepOn (issueEvent x i arg0 arg1 blkIn) s =
      exec i { s with cmd := ⟨contextId x, encode i, arg0, arg1, blkIn⟩ } := by
  simp [stepOn_of_running hrun, takeEvent, issueEvent, busy, hx, runCommand, decode_encode]

/-- A context that did not issue the command is not the one whose ports are driven. -/
theorem Issuable.ne_of_context_ne (hi : Issuable i x s) (hy : contextOfId s.cmd.ctx ≠ some y) : y ≠ x :=
  fun hyx => hy (hyx ▸ hi.context)

/-- The operation drives no other context's ports (R80). -/
theorem Issuable.results_other (hi : Issuable i x s) (u : State) (res : Results) (y : Context)
    (hy : contextOfId s.cmd.ctx ≠ some y) : (u.setResults x res).results.get y = u.results.get y := by
  simp [hi.ne_of_context_ne hy]

/-- Taking the draw of a flush writes nothing else. -/
theorem afterFlushDraw_eq (s : State) :
    ∃ flushDraws draws, s.afterFlushDraw = { s with flushDraws := flushDraws, draws := draws } := by
  unfold State.afterFlushDraw
  split <;> exact ⟨_, _, rfl⟩

/-! ### What a later step leaves (R108, 43_decimator R161) -/

theorem ResumeEffect.eq_update (he : ResumeEffect x s t) :
    t = { s with raw := t.raw, mic := t.mic, rings := t.rings, fs := t.fs, progress := t.progress,
                 results := t.results, halted := t.halted, haltCode := t.haltCode, diag := t.diag } := by
  cases he <;> rfl

theorem ResumeEffect.get_other (he : ResumeEffect x s t) (hy : y ≠ x) :
    t.results.get y = s.results.get y ∧ t.progress.get y = s.progress.get y := by
  cases he <;> simp [hy]

/-- RAW is only read from: a Collect step moves its tail. -/
theorem ResumeEffect.raw (he : ResumeEffect x s t) : t.raw.store = s.raw.store ∧ t.raw.head = s.raw.head := by
  cases he with
  | drainCollect d e r hp hd he =>
    obtain ⟨-, rfl⟩ := RingBuffer.pop_inv he
    exact ⟨rfl, rfl⟩
  | _ => exact ⟨rfl, rfl⟩

/-- MIC is only written to: an Emit step moves its head. -/
theorem ResumeEffect.mic_tail (he : ResumeEffect x s t) : t.mic.tail = s.mic.tail := by
  cases he with
  | drainEmit d r hp hd hf hr => exact RingBuffer.tail_pushWhileFree hr
  | _ => rfl

theorem ResumeEffect.of_flush {j : RingIndex} (he : ResumeEffect x s t) (hp : s.progress.get x = .flush inst j) :
    ∃ r, s.ring? inst.toNat = some r ∧
      t = ((s.setRing inst.toNat (r.clearIndex j)).setProgress x .idle).setResults x .blank := by
  cases he with
  | flush inst' j' r hp' hr =>
    cases hp.symm.trans hp'
    exact ⟨r, hr, rfl⟩
  | idle hp' | drainDone _ hp' | drainBlock _ hp' | drainCollect _ _ _ hp' | drainOverflow _ hp' | drainEmit _ _ hp' =>
    cases hp.symm.trans hp'

theorem ResumeEffect.rings_of_drain {d : Drain} (he : ResumeEffect x s t) (hp : s.progress.get x = .drain d) :
    t.rings = s.rings := by
  cases he with
  | flush inst j r hp' hr => cases hp.symm.trans hp'
  | _ => rfl

theorem DmaEffect.eq_update (he : DmaEffect s t) : t = { s with played := t.played, pp := t.pp } := by
  cases he <;> rfl

end

end Sys2Proof.Machine
end

section
/-! PROOF. The statements of 40_ringbuffer: the effect of each operation, the laws of the counts and of the order, and
the frames. -/

namespace Sys2Proof.Machine

/-- Settles O9: free is 0 exactly when used is N - 1. -/
theorem rbWriteStoresUnlessFull : Obligations.RbWriteStoresUnlessFull := by
  intro s x inst r hi hr hh _
  have hfull := RingBuffer.free_eq_zero_iff (Nat.zero_lt_of_lt hh)
  simp only [exec_rbWrite hi hr hh, hfull, RingBuffer.used]

/-- Settles O10: the read half takes the element at tail. -/
theorem rbReadTakesOldest : Obligations.RbReadTakesOldest :=
  fun _ _ _ _ _ => exec_rbRead

/-- Settles O11: a peek is a read that leaves the tail. -/
theorem rbPeekShowsOldest : Obligations.RbPeekShowsOldest :=
  fun _ _ _ _ _ => exec_rbPeek

/-- Settles O12: both counts are functions of the head, the tail and the size. -/
theorem rbCountsAreSnapshots : Obligations.RbCountsAreSnapshots := by
  intro s x inst h t n hs
  refine ⟨fun hi => ?_, fun hi => ?_⟩
  · exact (issue_of_issuable hi).trans (ringCount_of_indices? hs (fun h t n => (h + n - t) % n) _)
  · exact (issue_of_issuable hi).trans (ringCount_of_indices? hs (fun h t n => n - (h + n - t) % n - 1) _)

/-- Settles O13: the drawn index is the one cleared, and CTXST names the other. -/
theorem rbFlushClearsDrawnIndexFirst : Obligations.RbFlushClearsDrawnIndexFirst := by
  intro s x inst r hi hr
  refine ⟨flushFirst s, _, exec_rbFlush hi hr, fun y ys hd => by simp [flushFirst, hd], fun hf => ?_, fun hf => ?_⟩
  · rw [hf]
    exact ⟨ring?_flushed hr _ _, by simp [otherIndex]⟩
  · rw [hf]
    exact ⟨ring?_flushed hr _ _, by simp [otherIndex]⟩

/-- Settles O14: the step reads CTXST for the index that remains. -/
theorem flushSecondStepClearsOtherIndex : Obligations.FlushSecondStepClearsOtherIndex := by
  intro s x inst r i hrun hp hr
  rw [stepOn_resume_flush hrun hp hr]
  cases i <;> rfl

/-- Settles O15: the second step finds the ring as the first left it, so both indices are 0 whichever was first. -/
theorem undisturbedFlushEmpties : Obligations.UndisturbedFlushEmpties := by
  intro s x inst r hrun hx hl hperm hr
  have hi : Issuable (.rbFlush inst) x { s with cmd := ⟨contextId x, encode (.rbFlush inst), 0, 0, []⟩ } :=
    ⟨⟨hrun.notHalted, hrun.noFault⟩, hl, contextOfId_contextId x, hperm, rfl⟩
  obtain ⟨u, t, h1, h2, hring, hidle, hports⟩ := flush_then_resume hi hr
  rw [← stepOn_issueEvent hrun hx] at h1
  exact ⟨t, (runEvents_cons h1).trans (runEvents_cons h2), hring, RingBuffer.used_mk_zero r.store,
    by simp [RingBuffer.free, RingBuffer.size], hidle, hports⟩

/-- Settles O16: the counts add up in every well-formed ring, and an operation answers ok = 0 in its full or empty
branch alone. -/
theorem ringCountsAddUp : Obligations.RingCountsAddUp := by
  intro s h
  refine ⟨h.raw.counts, h.mic.counts, fun x inst r hr => ?_⟩
  obtain ⟨hw, -⟩ := h.ring hr
  obtain ⟨e, he⟩ := hw.front_some
  have hpos : 0 < r.size := hw.size.symm ▸ hw.pos
  refine ⟨hw.counts, fun hi => ⟨_, exec_rbWrite hi hr (hw.size.symm ▸ hw.head), ?_⟩,
    fun hi => ⟨_, exec_rbRead hi hr he, ?_⟩, fun hi => ⟨_, exec_rbPeek hi hr he, ?_⟩⟩
  · rw [← RingBuffer.free_eq_zero_iff hpos]
    split <;> simp [*]
  · split <;> simp [*]
  · split <;> simp [*]

/-- Settles O17: a write is a push behind the contents, and a read takes their first element. -/
theorem ringIsFirstInFirstOut : Obligations.RingIsFirstInFirstOut := by
  intro s x inst r h hr
  obtain ⟨hw, -⟩ := h.ring hr
  have hh : r.head < r.size := hw.size.symm ▸ hw.head
  refine ⟨fun hi hf => ?_, fun e es hc => ?_⟩
  · have hx := exec_rbWrite hi hr hh
    rw [if_neg hf] at hx
    exact ⟨_, _, hx, setRing_ring?_same hr, by simp,
      hw.contents_push (Nat.pos_of_ne_zero hf) (RingBuffer.push_eq hh _)⟩
  · obtain ⟨hu, he, hes⟩ := hw.front_of_contents hc
    refine ⟨fun hi => ?_, fun hi => ?_⟩
    · have hx := exec_rbRead hi hr he
      rw [if_neg hu] at hx
      exact ⟨_, _, hx, setRing_ring?_same hr, by simp, hes⟩
    · have hx := exec_rbPeek hi hr he
      rw [if_neg hu] at hx
      exact ⟨_, hx, hr, by simp⟩

/-- Settles O56: an operation that does not fault replaces at most the named ring: a write by the ring with head's slot
stored to, a read by the ring without its oldest element, a flush by the ring with one index cleared. -/
theorem ringOperationsFrame : Obligations.RingOperationsFrame := by
  intro s t inst r hr
  have h2 := (ring?_some hr).1
  refine ⟨fun h => ?_, fun h => ?_, fun h => ?_⟩
  -- RB_WRITE
  · obtain ⟨-, ⟨code, rfl⟩ | ⟨x, hi, he⟩⟩ := exec_effect h
    · exact ⟨rfl, fun _ _ => rfl, fun _ _ => rfl, r, hr, rfl, rfl, fun _ _ => rfl⟩
    cases he with
    | ports _ _ hi => cases hi
    | rbWriteFull _ r' hr' hf =>
      exact ⟨rfl, hi.results_other _ _, fun _ _ => rfl, r, hr, rfl, rfl, fun _ _ => rfl⟩
    | rbWrite _ r₁ r' hr' hf hp =>
      cases hr.symm.trans hr'
      obtain ⟨-, rfl⟩ := RingBuffer.push_inv hp
      exact ⟨rfl, hi.results_other _ _, fun j hj => setRing_ring?_other h2 hj, _, setRing_ring?_same hr, rfl,
        by simp [RingBuffer.size], fun k hk => List.getElem?_set_ne hk.symm⟩
  -- RB_READ
  · obtain ⟨-, ⟨code, rfl⟩ | ⟨x, hi, he⟩⟩ := exec_effect h
    · exact ⟨rfl, fun _ _ => rfl, fun _ _ => rfl, r, hr, rfl, fun _ => rfl⟩
    cases he with
    | ports _ _ hi => cases hi
    | rbReadEmpty _ r' hr' hu => exact ⟨rfl, hi.results_other _ _, fun _ _ => rfl, r, hr, rfl, fun _ => rfl⟩
    | rbRead _ r₁ r' e hr' hu hp =>
      cases hr.symm.trans hr'
      obtain ⟨-, rfl⟩ := RingBuffer.pop_inv hp
      exact ⟨rfl, hi.results_other _ _, fun j hj => setRing_ring?_other h2 hj, _, setRing_ring?_same hr, rfl,
        fun _ => rfl⟩
  -- RB_FLUSH
  · obtain ⟨-, ⟨code, rfl⟩ | ⟨x, hi, he⟩⟩ := exec_effect h
    · exact ⟨rfl, fun _ _ => rfl, fun _ _ => rfl, r, hr, fun _ => rfl⟩
    cases he with
    | ports _ _ hi => cases hi
    | rbFlush _ r₁ hr' =>
      cases hr.symm.trans hr'
      obtain ⟨flushDraws, draws, hd⟩ := afterFlushDraw_eq s
      refine ⟨by rw [hd]; rfl, fun y hy => ?_, fun j hj => ?_, _, ring?_flushed hr _ _, fun k => by simp⟩
      · simp [hi.ne_of_context_ne hy]
      · simpa using setRing_ring?_other (s := s.afterFlushDraw) h2 hj

/-- Settles O60: by cases on what a later step can do. -/
theorem laterStepsFrame : Obligations.LaterStepsFrame := by
  intro s t
  refine ⟨fun x h => ?_, fun h => (dmaStep_effect (stepOn_next h).2).eq_update⟩
  have he : ResumeEffect x s t := resumeStep_effect (stepOn_next h).2
  obtain ⟨hstore, hhead⟩ := he.raw
  refine ⟨he.eq_update, fun y hy => he.get_other hy, fun k => by rw [hstore], hhead, he.mic_tail,
    fun inst i hp => ?_, fun d hp => he.rings_of_drain hp⟩
  obtain ⟨r, hr, rfl⟩ := he.of_flush hp
  exact ⟨rfl, rfl, rfl, fun j hj => setRing_ring?_other (ring?_some hr).1 hj⟩

end Sys2Proof.Machine
end

section
/-! PROOF. The CLK unit (41_clock): the arithmetic of the delay and of the wrapping difference, each operation as one
equation, and a run of ticks. -/

namespace Sys2Proof.Machine

/-! ### The delay in ticks (00_scope R9, R122) -/

/-- The rounding-up division is the least number of periods that covers `a`, as R9 says. -/
theorem ceilDiv_le_iff {a b q : Nat} (hb : 0 < b) : ceilDiv a b ≤ q ↔ a ≤ q * b := by
  rw [ceilDiv, ← Nat.ceilDiv_eq_add_pred_div, ceilDiv_le_iff_le_mul hb, Nat.mul_comm]

theorem ceilDiv_eq_of_least {a b q : Nat} (hb : 0 < b) (hq : a ≤ q * b) (hleast : ∀ q', a ≤ q' * b → q ≤ q') :
    ceilDiv a b = q :=
  le_antisymm ((ceilDiv_le_iff hb).mpr hq) (hleast _ ((ceilDiv_le_iff hb).mp le_rfl))

/-! ### The wrapping difference (R123, R124) -/

section
variable {c : Config} {t0 k m : Nat}

theorem clockModulus_pos (c : Config) : 0 < c.clockModulus := Nat.two_pow_pos c.cw

/-- On a deadline of CW bits the model's difference is the integer difference modulo 2^CW. -/
theorem clockDiff_eq_emod {d : Nat} (hd : d < c.clockModulus) (cnt : Nat) :
    (clockDiff c cnt d : Int) = ((cnt : Int) - d) % c.clockModulus := by
  have hshift : ((cnt + c.clockModulus - d : Nat) : Int) = (cnt : Int) - d + c.clockModulus := by omega
  rw [clockDiff, Int.natCast_mod, hshift, Int.add_emod_right]

theorem hasPassed_eq_decide {d : Nat} (hd : d < c.clockModulus) (cnt : Nat) :
    hasPassed c cnt d = decide (((cnt : Int) - d) % c.clockModulus < c.passThreshold) := by
  rw [hasPassed, decide_eq_decide, ← clockDiff_eq_emod hd, Int.ofNat_lt]

/-- A check `m` ticks after `t0`, of a deadline `k` ticks after it, depends on `m - k` alone. -/
theorem hasPassed_ahead (c : Config) (t0 k m : Nat) :
    hasPassed c ((t0 + m) % c.clockModulus) ((t0 + k) % c.clockModulus) =
      decide (((m : Int) - k) % c.clockModulus < c.passThreshold) := by
  rw [hasPassed_eq_decide (Nat.mod_lt _ (clockModulus_pos c))]
  push_cast
  rw [← Int.sub_emod, add_sub_add_left_eq_sub]

/-- From the deadline on, for one round of the counter, the check reads passed while the ticks since are below `H`. -/
theorem hasPassed_ahead_of_le (hk : k ≤ m) (hm : m < k + c.clockModulus) :
    hasPassed c ((t0 + m) % c.clockModulus) ((t0 + k) % c.clockModulus) = decide (m < k + c.passThreshold) := by
  rw [hasPassed_ahead, Int.emod_eq_of_lt (by omega) (by omega), decide_eq_decide]
  omega

/-- For one round before the deadline the difference has wrapped, and the check reads passed, wrongly, when more than
`M - H` ticks are left. -/
theorem hasPassed_ahead_of_lt (hm : m < k) (hk : k ≤ m + c.clockModulus) :
    hasPassed c ((t0 + m) % c.clockModulus) ((t0 + k) % c.clockModulus) =
      decide (m + c.clockModulus < k + c.passThreshold) := by
  rw [hasPassed_ahead, ← Int.add_emod_right, Int.emod_eq_of_lt (by omega) (by omega), decide_eq_decide]
  omega

/-- A sound configuration has a threshold from 1 to `M - 1` (00_scope R8). -/
theorem passThreshold_bounds (hc : brokenConstraints c = []) :
    1 ≤ c.passThreshold ∧ c.passThreshold < c.clockModulus := by
  have h := constraintHolds_of_ok hc .passThreshold
  have hpos := clockModulus_pos c
  simp only [constraintHolds, Bool.and_eq_true, decide_eq_true_eq] at h
  omega

/-- Every check before the deadline reads not passed exactly when the deadline is within the horizon. -/
theorem not_hasPassed_before_iff (hc : brokenConstraints c = []) :
    (∀ m < k, hasPassed c ((t0 + m) % c.clockModulus) ((t0 + k) % c.clockModulus) = false) ↔
      k ≤ c.clockModulus - c.passThreshold := by
  obtain ⟨hpos, hlt⟩ := passThreshold_bounds hc
  constructor
  · intro h
    by_contra hfar
    -- the last check that is still too early, `M - H + 1` ticks before the deadline
    have hm := h (k - (c.clockModulus - c.passThreshold + 1)) (by omega)
    rw [hasPassed_ahead_of_lt (by omega) (by omega), decide_eq_false_iff_not] at hm
    omega
  · intro hk m hm
    rw [hasPassed_ahead_of_lt hm (by omega), decide_eq_false_iff_not]
    omega

/-- Up to a deadline within the horizon, the check reads passed at the deadline's own tick alone. -/
theorem hasPassed_until_deadline (hc : brokenConstraints c = []) (hk : k ≤ c.clockModulus - c.passThreshold)
    (hm : m ≤ k) :
    hasPassed c ((t0 + m) % c.clockModulus) ((t0 + k) % c.clockModulus) = decide (m = k) := by
  obtain ⟨hpos, hlt⟩ := passThreshold_bounds hc
  obtain hm | rfl := Nat.lt_or_eq_of_le hm
  · rw [(not_hasPassed_before_iff hc).mpr hk m hm, decide_eq_false hm.ne]
  · rw [hasPassed_ahead_of_le le_rfl (by omega), decide_eq_true rfl, decide_eq_true (by omega)]

end

/-! ### Each operation, when its checks pass (R120 to R123) -/

section
variable {s t : State} {x : Context} {i : Instr}

theorem exec_clkTick (hi : Issuable .clkTick x s) :
    exec .clkTick s = .next ({ s with cnt := (s.cnt + 1) % s.cfg.clockModulus }.setResults x .blank) :=
  issue_of_issuable hi

theorem exec_clkNow (hi : Issuable .clkNow x s) : exec .clkNow s = .next (s.setResults x (resResult s.cnt)) :=
  issue_of_issuable hi

theorem exec_clkDelayFrom (hi : Issuable .clkDelayFrom x s) :
    exec .clkDelayFrom s = .next (s.setResults x (resResult (deadlineFrom s.cfg s.cmd.arg0 s.cmd.arg1))) :=
  issue_of_issuable hi

theorem exec_clkHasPassed (hi : Issuable .clkHasPassed x s) :
    exec .clkHasPassed s = .next (s.setResults x (okResult (hasPassed s.cfg s.cnt s.cmd.arg0))) :=
  issue_of_issuable hi

@[simp] theorem res_resResult (v : Nat) : (resResult v).res = some v := rfl

/-- The deadline operand of an issued CLK_HAS_PASSED has CW bits (30_encoding R89). -/
theorem Issuable.arg0_lt_clockModulus (hi : Issuable .clkHasPassed x s) : s.cmd.arg0 < s.cfg.clockModulus :=
  fits_iff.mp hi.operands

/-! ### A context's turn and a run of ticks (R125) -/

/-- `t` is a running core with the configuration and the operations in progress of `s`, its counter `n` ticks on. -/
structure Ticked (n : Nat) (s t : State) : Prop extends Running t where
  cfg : t.cfg = s.cfg
  progress : t.progress = s.progress
  cnt : t.cnt = (s.cnt + n) % s.cfg.clockModulus

theorem Ticked.trans {u : State} {n k : Nat} (h : Ticked n s t) (h' : Ticked k t u) : Ticked (n + k) s u where
  toRunning := h'.toRunning
  cfg := h'.cfg.trans h.cfg
  progress := h'.progress.trans h.progress
  cnt := by rw [h'.cnt, h.cfg, h.cnt, Nat.mod_add_mod, Nat.add_assoc]

/-- The command that a context puts on its interface passes the checks of 30_encoding R88 as its operation does. -/
theorem Issuable.of_issued {arg0 arg1 : Nat} {blkIn : List Sample} (hr : Running s) (hl : i.WellFormed s.cfg)
    (hp : permitted s.cfg x i = true)
    (ho : operandsFit s.cfg ⟨contextId x, encode i, arg0, arg1, blkIn⟩ i = true) :
    Issuable i x { s with cmd := ⟨contextId x, encode i, arg0, arg1, blkIn⟩ } :=
  ⟨⟨hr.notHalted, hr.noFault⟩, hl, contextOfId_contextId x, hp, ho⟩

/-- TICK_ISR's turn with CLK_TICK is one tick. -/
theorem stepOn_clkTick (hr : Running s) (hx : s.progress.get .tickIsr = .idle) :
    ∃ t, stepOn (issueEvent .tickIsr .clkTick 0 0 []) s = .next t ∧ Ticked 1 s t := by
  rw [stepOn_issueEvent hr hx, exec_clkTick (.of_issued hr rfl rfl rfl)]
  exact ⟨_, rfl, ⟨hr.notHalted, hr.noFault⟩, rfl, rfl, rfl⟩

/-- `n` turns of TICK_ISR with CLK_TICK are `n` ticks. -/
theorem runEvents_clkTicks (n : Nat) (hr : Running s) (hclock : ClockInv s) (hx : s.progress.get .tickIsr = .idle) :
    ∃ t, runEvents (List.replicate n (issueEvent .tickIsr .clkTick 0 0 [])) s = .next t ∧ Ticked n s t := by
  induction n with
  | zero => exact ⟨s, rfl, hr, rfl, rfl, (Nat.mod_eq_of_lt hclock).symm⟩
  | succ n ih =>
    obtain ⟨u, hu, htu⟩ := ih
    obtain ⟨t, ht, htt⟩ := stepOn_clkTick htu.toRunning (by rw [htu.progress, hx])
    rw [List.replicate_succ', runEvents_append hu, runEvents_cons ht]
    exact ⟨t, rfl, htu.trans htt⟩

/-- TASK's turn with CLK_DELAY_FROM gives the deadline on its port, and the clock stands. -/
theorem stepOn_clkDelayFrom {us : Nat} (hr : Running s) (hclock : ClockInv s) (hx : s.progress.get .task = .idle)
    (hus : us < 2 ^ s.cfg.usW) :
    ∃ t, stepOn (issueEvent .task .clkDelayFrom s.cnt us []) s = .next t ∧ Ticked 0 s t ∧
      (t.results.get .task).res = some (deadlineFrom s.cfg s.cnt us) := by
  have hfit : operandsFit s.cfg ⟨contextId .task, encode .clkDelayFrom, s.cnt, us, []⟩ .clkDelayFrom = true :=
    Bool.and_eq_true_iff.mpr ⟨fits_iff.mpr hclock, fits_iff.mpr hus⟩
  rw [stepOn_issueEvent hr hx, exec_clkDelayFrom (.of_issued hr rfl rfl hfit)]
  exact ⟨_, rfl, ⟨⟨hr.notHalted, hr.noFault⟩, rfl, rfl, (Nat.mod_eq_of_lt hclock).symm⟩, by simp⟩

/-- TASK's turn with CLK_HAS_PASSED gives the answer for the deadline on its port. -/
theorem stepOn_clkHasPassed {d : Nat} (hr : Running s) (hx : s.progress.get .task = .idle)
    (hd : d < s.cfg.clockModulus) :
    ∃ t, stepOn (issueEvent .task .clkHasPassed d 0 []) s = .next t ∧
      (t.results.get .task).ok = some (hasPassed s.cfg s.cnt d) := by
  rw [stepOn_issueEvent hr hx, exec_clkHasPassed (.of_issued hr rfl rfl (fits_iff.mpr hd))]
  exact ⟨_, rfl, by simp⟩

end

end Sys2Proof.Machine
end

section
/-! PROOF. The statements of 41_clock: the effect of each operation, the horizon, the delay law and the frame. -/

namespace Sys2Proof.Machine

/-- Settles O18: the operation's own equation. -/
theorem clkTickAdvancesCounter : Obligations.ClkTickAdvancesCounter := fun _ _ => exec_clkTick

/-- Settles O19: the least number of ticks that lasts the microseconds is the model's rounding-up division. -/
theorem clkNowAndDelayFromCompute : Obligations.ClkNowAndDelayFromCompute := by
  refine ⟨fun s x => exec_clkNow, fun s x q hi hq hleast hpos => ?_⟩
  rw [exec_clkDelayFrom hi, deadlineFrom, delayTicks, ceilDiv_eq_of_least hpos hq hleast]
  rfl

/-- Settles O20: the deadline has CW bits, so the model's difference is the integer one modulo 2^CW. -/
theorem clkHasPassedTestsDifference : Obligations.ClkHasPassedTestsDifference := by
  intro s x hi
  rw [exec_clkHasPassed hi, hasPassed_eq_decide hi.arg0_lt_clockModulus]
  simp [Config.clockModulus]

/-- Settles O21: one round before the deadline and one after it, by the difference in each. -/
theorem deadlineHorizon : Obligations.DeadlineHorizon := by
  intro c t0 k hc _
  obtain ⟨-, hlt⟩ := passThreshold_bounds hc
  refine ⟨fun m => by rw [hasPassed_ahead, decide_eq_true_iff], not_hasPassed_before_iff hc, fun m hk hm => ?_,
    fun m hk hm => ?_⟩
  · rw [hasPassed_ahead_of_le hk (by omega), decide_eq_true hm]
  · rw [hasPassed_ahead_of_le (by omega) hm, decide_eq_false (by omega)]

/-- Settles O22: the counter stands `m` ticks on when the deadline is checked. -/
theorem delayPassesAfterItsTicks : Obligations.DelayPassesAfterItsTicks := by
  intro s us m hc hr hclock htask htick hus hk hm
  obtain ⟨u, hu, hsu, hres⟩ := stepOn_clkDelayFrom hr hclock htask hus
  have hclock' : ClockInv u := hclock.congr hsu.cfg (hsu.cnt.trans (Nat.mod_eq_of_lt hclock))
  obtain ⟨v, hv, huv⟩ := runEvents_clkTicks m hsu.toRunning hclock' (by rw [hsu.progress, htick])
  have hsv : Ticked (0 + m) s v := hsu.trans huv
  have hd : (s.cnt + delayTicks s.cfg us) % s.cfg.clockModulus < v.cfg.clockModulus := by
    rw [hsv.cfg]
    exact Nat.mod_lt _ (clockModulus_pos _)
  obtain ⟨t, ht, hok⟩ := stepOn_clkHasPassed hsv.toRunning (by rw [hsv.progress, htask]) hd
  refine ⟨u, t, hu, hres, (runEvents_append hv).trans (runEvents_cons ht), ?_⟩
  rw [hok, hsv.cfg, hsv.cnt, Nat.zero_add, hasPassed_until_deadline hc hk hm]

/-- Settles O57: an operation that does not fault writes the counter, or the named filter and its edge, and the ports of
the context that issued it. -/
theorem clockAndDebounceFrame : Obligations.ClockAndDebounceFrame := by
  intro s t inst
  refine ⟨fun h => ?_, fun h => ?_, fun h => ?_⟩
  -- CLK_TICK
  · obtain ⟨-, ⟨code, rfl⟩ | ⟨x, hi, he⟩⟩ := exec_effect h
    · exact ⟨rfl, fun _ _ => rfl⟩
    cases he with
    | ports _ _ hi => cases hi
    | clkTick => exact ⟨rfl, hi.results_other _ _⟩
  -- DB_INIT
  · obtain ⟨-, ⟨code, rfl⟩ | ⟨x, hi, he⟩⟩ := exec_effect h
    · exact ⟨rfl, fun _ _ => rfl, fun _ _ => rfl⟩
    cases he with
    | ports _ _ hi => cases hi
    | dbInit => exact ⟨rfl, hi.results_other _ _, fun j hj => List.getElem?_set_ne hj.symm⟩
  -- DB_SAMPLE
  · obtain ⟨-, ⟨code, rfl⟩ | ⟨x, hi, he⟩⟩ := exec_effect h
    · exact ⟨rfl, fun _ _ => rfl, fun _ _ => rfl⟩
    cases he with
    | ports _ _ hi => cases hi
    | dbSample =>
      rw [emitEdge_eq]
      exact ⟨rfl, hi.results_other _ _, fun j hj => List.getElem?_set_ne hj.symm⟩

end Sys2Proof.Machine
end

section
/-! PROOF. The DB unit (42_debounce): when a sample reports an edge, the edges of a row of equal samples, each operation
as one equation, and a run of samples. -/

namespace Sys2Proof.Machine

/-! ### The edge of one sample (R141) -/

/-- The debounced state that an edge reports. -/
def stateOf : Bool → DebounceState
  | true => .true
  | false => .false

/-- The bound of the integrator at which an edge reports `b`: T for True, 0 for False. -/
def boundOf (top : Nat) (b : Bool) : Nat := if b then top else 0

/-- The edge that the sample `raw` reports on a filter. -/
def Debounce.sampleEdge (top : Nat) (raw : Bool) (d : Debounce) : Option Bool :=
  edgeOf top (integrate top d.integ raw) d.dstate

/-- The filter after the sample `raw`. -/
def Debounce.sampled (top : Nat) (raw : Bool) (d : Debounce) : Debounce :=
  ⟨integrate top d.integ raw, stateAfterEdge d.dstate (d.sampleEdge top raw)⟩

section
variable {top v : Nat} {raw b c : Bool} {d : Debounce} {ds : DebounceState}

@[simp] theorem stateAfterEdge_none (ds : DebounceState) : stateAfterEdge ds none = ds := rfl

@[simp] theorem stateAfterEdge_some (ds : DebounceState) (b : Bool) : stateAfterEdge ds (some b) = stateOf b := by
  cases b <;> rfl

theorem boundOf_eq_top_iff (ht : 1 ≤ top) : boundOf top b = top ↔ b = true := by
  cases b with
  | true => exact iff_of_true rfl rfl
  | false => exact iff_of_false (Nat.ne_of_lt ht) nofun

/-- With T at least 1 the two bounds differ. -/
theorem boundOf_injective (ht : 1 ≤ top) (h : boundOf top b = boundOf top c) : b = c := by
  rw [Bool.eq_iff_iff, ← boundOf_eq_top_iff ht, h, boundOf_eq_top_iff ht]

/-- The edge condition: the integrator stands at a bound that the state is not. -/
theorem edgeOf_eq_some_iff (ht : 1 ≤ top) : edgeOf top v ds = some b ↔ v = boundOf top b ∧ ds ≠ stateOf b := by
  unfold edgeOf
  split
  next h =>
    cases b with
    | true => simp [boundOf, stateOf, h]
    | false => simp [boundOf, show v ≠ 0 by omega]
  next htop =>
  split
  next h =>
    cases b with
    | true => simp [boundOf, show v ≠ top by omega]
    | false => simp [boundOf, stateOf, h]
  next hzero =>
    cases b with
    | true => simpa [boundOf, stateOf] using htop
    | false => simpa [boundOf, stateOf] using hzero

/-- At its bound the integrator saturates. -/
theorem integrate_boundOf (top : Nat) (raw : Bool) : integrate top (boundOf top raw) raw = boundOf top raw := by
  cases raw <;> simp [integrate, boundOf]

/-- A sample moves the integrator away from the other bound. -/
theorem integrate_ne_boundOf_not (ht : 1 ≤ top) (hv : v ≤ top) : integrate top v raw ≠ boundOf top !raw := by
  cases raw with
  | true =>
    simp only [integrate, boundOf, Bool.not_true, Bool.false_eq_true, if_true, if_false]
    omega
  | false =>
    simp only [integrate, boundOf, Bool.not_false, Bool.false_eq_true, if_true, if_false]
    omega

/-- A sample reports its own value or nothing. -/
theorem Debounce.sampleEdge_eq_none_or (ht : 1 ≤ top) (hv : d.integ ≤ top) :
    d.sampleEdge top raw = none ∨ d.sampleEdge top raw = some raw := by
  cases he : d.sampleEdge top raw with
  | none => exact .inl rfl
  | some b =>
    obtain ⟨hb, -⟩ := (edgeOf_eq_some_iff ht).mp he
    obtain rfl | rfl := Bool.eq_or_eq_not b raw
    · exact .inr rfl
    · exact absurd hb (integrate_ne_boundOf_not ht hv)

/-- The edge of a sample leaves the filter at the bound, in the state reported. -/
theorem Debounce.sampled_of_sampleEdge (ht : 1 ≤ top) (h : d.sampleEdge top raw = some raw) :
    d.sampled top raw = ⟨boundOf top raw, stateOf raw⟩ := by
  rw [Debounce.sampled, h, ((edgeOf_eq_some_iff ht).mp h).1, stateAfterEdge_some]

/-- The same sample once more reports nothing and leaves the filter. -/
theorem sampleEdge_atBound (ht : 1 ≤ top) (raw : Bool) :
    Debounce.sampleEdge top raw ⟨boundOf top raw, stateOf raw⟩ = none := by
  rw [Debounce.sampleEdge, integrate_boundOf, Option.eq_none_iff_forall_ne_some]
  intro b h
  obtain ⟨hb, hne⟩ := (edgeOf_eq_some_iff ht).mp h
  exact hne (congrArg stateOf (boundOf_injective ht hb))

theorem sampled_atBound (ht : 1 ≤ top) (raw : Bool) :
    Debounce.sampled top raw ⟨boundOf top raw, stateOf raw⟩ = ⟨boundOf top raw, stateOf raw⟩ := by
  rw [Debounce.sampled, sampleEdge_atBound ht, integrate_boundOf, stateAfterEdge_none]

theorem Debounce.WellFormed.sampled (h : d.WellFormed top) (ht : 1 ≤ top) (raw : Bool) :
    (d.sampled top raw).WellFormed top :=
  wellFormed_sample ht (integrate_le h.bound raw) d.dstate

end

/-! ### The edges of a row of equal samples (R144) -/

/-- The edges that `n` samples `raw` in a row report on a filter. -/
def Debounce.edgesOf (top : Nat) (raw : Bool) : Nat → Debounce → List Bool
  | 0, _ => []
  | n + 1, d => (d.sampleEdge top raw).toList ++ (d.sampled top raw).edgesOf top raw n

/-- The number of samples `raw` after which a filter with integrator `v` reports its edge. -/
def samplesToEdge (top : Nat) (raw : Bool) (v : Nat) : Nat := if raw then top - v else max v 1

section
variable {top : Nat} {raw : Bool} {d : Debounce}

theorem edgesOf_atBound (ht : 1 ≤ top) (raw : Bool) (n : Nat) :
    Debounce.edgesOf top raw n ⟨boundOf top raw, stateOf raw⟩ = [] := by
  induction n with
  | zero => rfl
  | succ n ih => simp [Debounce.edgesOf, sampleEdge_atBound ht, sampled_atBound ht, ih]

theorem Debounce.WellFormed.samplesToEdge_pos (h : d.WellFormed top) (hs : d.dstate ≠ stateOf raw) :
    0 < samplesToEdge top raw d.integ := by
  cases raw with
  | true => exact Nat.sub_pos_of_lt (h.belowTop hs)
  | false => exact Nat.lt_of_lt_of_le Nat.one_pos (le_max_right _ _)

/-- The integrator reaches the bound on the last of the samples counted. -/
theorem Debounce.WellFormed.integrate_eq_boundOf_iff (h : d.WellFormed top) (hs : d.dstate ≠ stateOf raw) :
    integrate top d.integ raw = boundOf top raw ↔ samplesToEdge top raw d.integ = 1 := by
  cases raw with
  | true =>
    have hv : d.integ < top := h.belowTop hs
    simp only [integrate, boundOf, samplesToEdge, if_true]
    omega
  | false =>
    simp only [integrate, boundOf, samplesToEdge, Bool.false_eq_true, if_false]
    omega

/-- Until then each sample leaves one fewer. -/
theorem Debounce.WellFormed.samplesToEdge_sampled (h : d.WellFormed top) (hs : d.dstate ≠ stateOf raw)
    (hne : samplesToEdge top raw d.integ ≠ 1) :
    samplesToEdge top raw (d.sampled top raw).integ + 1 = samplesToEdge top raw d.integ := by
  cases raw with
  | true =>
    have hv : d.integ < top := h.belowTop hs
    simp only [Debounce.sampled, integrate, samplesToEdge, if_true]
    omega
  | false =>
    simp only [Debounce.sampled, integrate, samplesToEdge, Bool.false_eq_true, if_false] at hne ⊢
    omega

/-- R144: samples in a row report exactly one edge, however many they are. -/
theorem Debounce.WellFormed.edgesOf_eq (ht : 1 ≤ top) (h : d.WellFormed top) (hs : d.dstate ≠ stateOf raw) (n : Nat) :
    d.edgesOf top raw n = if n < samplesToEdge top raw d.integ then [] else [raw] := by
  induction n generalizing d with
  | zero => rw [if_pos (h.samplesToEdge_pos hs)]; rfl
  | succ n ih =>
    have hedge : d.sampleEdge top raw = some raw ↔ samplesToEdge top raw d.integ = 1 := by
      rw [← h.integrate_eq_boundOf_iff hs, Debounce.sampleEdge, edgeOf_eq_some_iff ht, and_iff_left hs]
    rw [Debounce.edgesOf]
    obtain he | he := d.sampleEdge_eq_none_or (raw := raw) ht h.bound
    · have hk := h.samplesToEdge_sampled hs fun h1 => by simp [hedge.mpr h1] at he
      rw [ih (h.sampled ht raw) (by simpa [Debounce.sampled, he] using hs), he, ← hk]
      simp
    · rw [Debounce.sampled_of_sampleEdge ht he, edgesOf_atBound ht, he, hedge.mp he]
      simp

end

/-! ### Each operation, when its checks pass (R140 to R142) -/

section
variable {s t : State} {x : Context} {inst : InstNo} {d : Debounce} {raw : Bool}

theorem exec_dbInit (hi : Issuable (.dbInit inst) x s) (hd : inst.toNat < s.db.length) :
    exec (.dbInit inst) s =
      .next ((s.setDebounce inst.toNat ⟨s.cfg.intTop inst.toNat / 2, .undefined⟩).setResults x .blank) := by
  rw [exec, execDbInit, issue_of_issuable hi, withDebounce_of_some (List.getElem?_eq_getElem hd)]
  rfl

theorem exec_dbSample (hi : Issuable (.dbSample inst) x s) (hd : s.db[inst.toNat]? = some (some d))
    (hraw : decide (s.cmd.arg0 = 1) = raw) :
    exec (.dbSample inst) s = .next
      ((emitEdge inst x (d.sampleEdge (s.cfg.intTop inst.toNat) raw)
          (s.setDebounce inst.toNat (d.sampled (s.cfg.intTop inst.toNat) raw))).setResults x
        (edgeResult (d.sampleEdge (s.cfg.intTop inst.toNat) raw) (s.cfg.dbId inst.toNat))) := by
  rw [exec, execDbSample, issue_of_issuable hi, withDebounce_of_some hd, hraw]
  rfl

theorem exec_dbState (hi : Issuable (.dbState inst) x s) (hd : s.db[inst.toNat]? = some (some d)) :
    exec (.dbState inst) s = .next (s.setResults x (resResult (debounceCode d.dstate))) := by
  rw [exec, execDbState, issue_of_issuable hi, withDebounce_of_some hd]
  rfl

theorem exec_dbSample_uninit (hi : Issuable (.dbSample inst) x s) (hd : s.db[inst.toNat]? = some none) :
    exec (.dbSample inst) s = raiseFault .sequence s := by
  rw [exec, execDbSample, issue_of_issuable hi, withDebounce_of_some hd]

theorem exec_dbState_uninit (hi : Issuable (.dbState inst) x s) (hd : s.db[inst.toNat]? = some none) :
    exec (.dbState inst) s = raiseFault .sequence s := by
  rw [exec, execDbState, issue_of_issuable hi, withDebounce_of_some hd]

/-! ### A context's turn and a run of samples (R144) -/

/-- `t` is a running core with the configuration and the operations in progress of `s`; its filter `inst` is `d`, and
context `x` has emitted that filter's edges `bs` since `s`. -/
structure Sampled (x : Context) (inst : InstNo) (d : Debounce) (bs : List Bool) (s t : State) : Prop
    extends Running t where
  cfg : t.cfg = s.cfg
  progress : t.progress = s.progress
  filter : t.db[inst.toNat]? = some (some d)
  edges : t.edges = s.edges ++ bs.map fun b => ⟨inst, b, s.cfg.dbId inst.toNat, x⟩

/-- A context's turn with DB_SAMPLE is one sample of the filter. -/
theorem stepOn_dbSample (hr : Running s) (hx : s.progress.get x = .idle) (hl : inst.toNat < s.cfg.ndb)
    (hd : s.db[inst.toNat]? = some (some d)) (raw : Bool) :
    ∃ t, stepOn (issueEvent x (.dbSample inst) raw.toNat 0 []) s = .next t ∧
      Sampled x inst (d.sampled (s.cfg.intTop inst.toNat) raw)
        (d.sampleEdge (s.cfg.intTop inst.toNat) raw).toList s t := by
  have hi := Issuable.of_issued (i := .dbSample inst) (x := x) (arg0 := raw.toNat) (arg1 := 0) (blkIn := []) hr
    (legalDebounce_iff.mpr hl) rfl (fits_iff.mpr raw.toNat_lt)
  have hraw : decide (raw.toNat = 1) = raw := by cases raw <;> rfl
  have hlen : inst.toNat < s.db.length := (List.getElem?_eq_some_iff.mp hd).1
  rw [stepOn_issueEvent hr hx, exec_dbSample hi hd hraw]
  exact ⟨_, rfl, ⟨by simp [hr.notHalted], by simp [hr.noFault]⟩, by simp, by simp, by simp [hlen], by simp⟩

/-- `n` turns of a context with DB_SAMPLE emit the edges of `n` samples of the filter. -/
theorem runEvents_dbSamples (n : Nat) (hr : Running s) (hx : s.progress.get x = .idle) (hl : inst.toNat < s.cfg.ndb)
    (hd : s.db[inst.toNat]? = some (some d)) (raw : Bool) :
    ∃ t, runEvents (List.replicate n (issueEvent x (.dbSample inst) raw.toNat 0 [])) s = .next t ∧
      t.edges = s.edges ++ (d.edgesOf (s.cfg.intTop inst.toNat) raw n).map
        fun b => ⟨inst, b, s.cfg.dbId inst.toNat, x⟩ := by
  induction n generalizing s d with
  | zero => exact ⟨s, rfl, by simp [Debounce.edgesOf]⟩
  | succ n ih =>
    obtain ⟨u, hu, hsu⟩ := stepOn_dbSample hr hx hl hd raw
    obtain ⟨t, ht, hedges⟩ := ih hsu.toRunning (by rw [hsu.progress, hx]) (hsu.cfg ▸ hl) hsu.filter
    refine ⟨t, (runEvents_cons hu).trans ht, ?_⟩
    rw [hedges, hsu.edges, hsu.cfg, Debounce.edgesOf, List.map_append, List.append_assoc]

/-- R144 on the machine: `n` equal samples in a row of a filter whose state is not theirs emit one edge, on the last of
the samples that its integrator needs. -/
theorem runEvents_dbSamples_edge (n : Nat) (hc : ConfigOk s) (hr : Running s) (hx : s.progress.get x = .idle)
    (hd : s.db[inst.toNat]? = some (some d)) (hl : inst.toNat < s.cfg.ndb) (hs : d.dstate ≠ stateOf raw)
    (hw : d.WellFormed (s.cfg.intTop inst.toNat)) :
    ∃ t, runEvents (List.replicate n (issueEvent x (.dbSample inst) raw.toNat 0 [])) s = .next t ∧
      t.edges = s.edges ++ (if n < samplesToEdge (s.cfg.intTop inst.toNat) raw d.integ then []
        else [⟨inst, raw, s.cfg.dbId inst.toNat, x⟩]) := by
  obtain ⟨t, ht, hedges⟩ := runEvents_dbSamples n hr hx hl hd raw
  refine ⟨t, ht, ?_⟩
  rw [hedges, hw.edgesOf_eq (one_le_intTop hc hl) hs, apply_ite (List.map _)]
  rfl

end

end Sys2Proof.Machine
end

section
/-! PROOF. The statements of 42_debounce: the effect of each operation, the edges of a row of equal samples, and what a
step keeps of the filters. -/

namespace Sys2Proof.Machine

/-- Settles O23: the operation's own equation, for a filter that the state has. -/
theorem dbInitHalvesTop : Obligations.DbInitHalvesTop := fun _ _ _ => exec_dbInit

/-- Settles O24: the branches of the statement are those of the edge condition. -/
theorem dbSampleIntegratesAndReportsEdge : Obligations.DbSampleIntegratesAndReportsEdge := by
  refine ⟨fun s x inst => exec_dbSample_uninit, fun s x inst d v hi hd hv => ?_⟩
  have hv : integrate (s.cfg.intTop inst.toNat) d.integ (decide (s.cmd.arg0 = 1)) = v := by simp [integrate, hv]
  rw [exec_dbSample hi hd rfl, Debounce.sampled, Debounce.sampleEdge, hv, edgeOf]
  split
  · rfl
  split <;> rfl

/-- Settles O25: the code of each state, and the fault of a filter that DB_INIT has not run on. -/
theorem dbStateReportsOnlyInitialised : Obligations.DbStateReportsOnlyInitialised := by
  refine ⟨fun s x inst d hi hd => ?_, fun s x inst => exec_dbState_uninit⟩
  rw [exec_dbState hi hd]
  cases d.dstate <;> rfl

/-- Settles O26: a true sample moves the integrator one towards T, and the one that reaches it reports the edge. -/
theorem trueSamplesFireOneEdge : Obligations.TrueSamplesFireOneEdge :=
  fun _ _ _ _ n hc hr hx hd hl hs hw => runEvents_dbSamples_edge (raw := true) n hc hr hx hd hl hs hw

/-- Settles O27: a false sample moves the integrator one towards 0, and the one that leaves it there reports the edge. -/
theorem falseSamplesFireOneEdge : Obligations.FalseSamplesFireOneEdge :=
  fun _ _ _ _ n hc hr hx hd hl hs hw => runEvents_dbSamples_edge (raw := false) n hc hr hx hd hl hs hw

/-- Settles O47: by cases on what the step can do, in a configuration that no step changes. -/
theorem stepKeepsDebounce : Obligations.StepKeepsDebounce := fun _ _ hc h hs =>
  (step_keeps (fun s => ConfigOk s ∧ DebounceInv s) (fun _ _ _ _ h => ⟨h.1, h.2.congr⟩) (fun _ _ h => ⟨h.1, h.2.congr⟩)
    (fun _ _ _ _ _ h _ _ he => ⟨h.1.of_continues he.continues, h.2.command h.1 he⟩)
    (fun _ _ _ _ h he => ⟨h.1.of_continues he.continues, h.2.resume he⟩)
    (fun _ _ _ h he => ⟨h.1.of_continues he.continues, h.2.dma he⟩) ⟨hc, h⟩ hs).2

end Sys2Proof.Machine
end

section
/-! PROOF. The DEC unit (43_decimator): reads and writes of a ring in a row, each operation and each later step of a drain
as one equation, a run of pushes, and a run of the steps of a drain. -/

namespace Sys2Proof.Machine

/-! ### Reads in a row and writes in a row (R163, R164) -/

section
variable {α : Type} {r r' : RingBuffer α} {n m : Nat} {es : List α}

/-- Several reads are the first one and those that follow it. -/
theorem RingBuffer.popMany_succ_inv (h : r.popMany (m + 1) = some (es, r')) :
    ∃ e es' r₁, r.pop = some (e, r₁) ∧ r₁.popMany m = some (es', r') ∧ es = e :: es' := by
  obtain ⟨⟨e, r₁⟩, hp, h⟩ := Option.bind_eq_some_iff.mp h
  obtain ⟨⟨es', r₂⟩, hm, h⟩ := Option.map_eq_some_iff.mp h
  cases h
  exact ⟨e, es', r₁, hp, hm, rfl⟩

/-- Reads store nothing and leave the head. -/
theorem RingBuffer.popMany_frame (h : r.popMany m = some (es, r')) : r'.store = r.store ∧ r'.head = r.head := by
  induction m generalizing r es with
  | zero => cases h; exact ⟨rfl, rfl⟩
  | succ m ih =>
    obtain ⟨e, es', r₁, hp, hm, -⟩ := RingBuffer.popMany_succ_inv h
    obtain ⟨-, rfl⟩ := RingBuffer.pop_inv hp
    exact ih (r := r.dropFront) hm

/-- `m` reads split the contents after the `m`-th element. -/
theorem RingBuffer.WellFormed.popMany_contents (h : r.WellFormed n) (hm : m ≤ r.used) :
    ∃ r', r.popMany m = some (r.contents.take m, r') ∧ r'.WellFormed n ∧ r'.contents = r.contents.drop m ∧
      r'.used = r.used - m := by
  induction m generalizing r with
  | zero => exact ⟨r, rfl, h, rfl, rfl⟩
  | succ m ih =>
    obtain ⟨e, he⟩ := h.pop_some
    have hu := h.used_dropFront (by omega)
    obtain ⟨r', hp, hw, hc, hu'⟩ := ih h.dropFront (by omega)
    rw [h.contents_pop (by omega) he]
    exact ⟨r', by simp [RingBuffer.popMany, he, hp], hw, hc, by omega⟩

/-- MicSinkWrite's loop uses up as many free slots as it has elements for. -/
theorem RingBuffer.WellFormed.used_pushWhileFree (h : r.WellFormed n) (hp : r.pushWhileFree es = some r') :
    r'.WellFormed n ∧ r'.used = r.used + min es.length r.free := by
  obtain ⟨q, hq, hw⟩ := h.pushWhileFree es
  cases hp.symm.trans hq
  refine ⟨hw, ?_⟩
  rw [← hw.contents_length, (h.contents_pushWhileFree es hp).1, List.length_append, h.contents_length,
    List.length_take, Nat.min_comm]

end

/-! ### The filter (R162, R167) -/

@[simp] theorem length_filterBlock (c : Config) (fs : FilterState) (bytes : List Byte) :
    (filterBlock c fs bytes).length = c.decOut := by
  simp [filterBlock]

theorem length_filterChunks (c : Config) (q : Nat) (fs : FilterState) (bytes : List Byte) :
    (filterChunks c q fs bytes).2.length = q * c.decOut := by
  induction q generalizing fs bytes with
  | zero => simp [filterChunks]
  | succ q ih => simp [filterChunks, ih, Nat.succ_mul, Nat.add_comm]

/-! ### Each operation, when its checks pass (R160, R161, R164) -/

/-- The state after a Check step, the first one or a later one, of a drain that has done `blocks` blocks (R161). -/
def State.checked (s : State) (x : Context) (blocks : Nat) : State :=
  if s.raw.used < s.cfg.decIn then (s.setProgress x .idle).setResults x (resResult blocks)
  else s.setProgress x (.drain ⟨.collect, 0, [], blocks⟩)

/-- The fields that a drain's blocks move: RAW, the filter's state and MIC (R161 to R163). -/
def State.decimated (s : State) (raw : RingBuffer Byte) (fs : FilterState) (mic : RingBuffer Sample) : State :=
  { s with raw := raw, fs := fs, mic := mic }

section
variable (s : State) (raw : RingBuffer Byte) (fs : FilterState) (mic : RingBuffer Sample)

@[simp] theorem State.decimated_cfg : (s.decimated raw fs mic).cfg = s.cfg := rfl
@[simp] theorem State.decimated_raw : (s.decimated raw fs mic).raw = raw := rfl
@[simp] theorem State.decimated_fs : (s.decimated raw fs mic).fs = fs := rfl
@[simp] theorem State.decimated_mic : (s.decimated raw fs mic).mic = mic := rfl

end

/-- A drain in progress with the bytes `acc` collected, before or after the last one (R161). -/
def Drain.collecting (decIn blocks : Nat) (acc : List Byte) : Drain :=
  ⟨if acc.length < decIn then .collect else .emit, acc.length, acc, blocks⟩

section
variable {s t : State} {x : Context} {d : Drain} {blocks : Nat} {acc : List Byte}

theorem exec_decPush (hi : Issuable .decPush x s) (hh : s.raw.head < s.raw.size) :
    exec .decPush s = .next (
      if s.raw.free = 0 then { s with halted := true, haltCode := .decOverflow, diag := s.diag ++ [.decOverflow] }
      else (s.setRaw ⟨s.raw.store.set s.raw.head (BitVec.ofNat 8 s.cmd.arg0), (s.raw.head + 1) % s.raw.size,
        s.raw.tail⟩).setResults x .blank) := by
  rw [exec, execDecPush, issue_of_issuable hi, RingBuffer.push_eq hh]
  split <;> rfl

theorem drainCheck_eq (x : Context) (d : Drain) (s : State) : drainCheck x d s = .next (s.checked x d.blocks) := by
  unfold drainCheck State.checked
  split <;> rfl

theorem exec_decDrain (hi : Issuable .decDrain x s) : exec .decDrain s = .next (s.checked x 0) :=
  (issue_of_issuable hi).trans (drainCheck_eq x _ s)

theorem exec_micFetch {samples : List Sample} {r : RingBuffer Sample} (hi : Issuable .micFetch x s)
    (hp : s.mic.popMany (min s.mic.used s.cfg.micBlock) = some (samples, r)) :
    exec .micFetch s = .next ((s.setMic r).setResults x
      (blockResult (min s.mic.used s.cfg.micBlock) (micBlock s.cfg samples))) := by
  rw [exec, execMicFetch, issue_of_issuable hi, hp]
  rfl

/-! ### Each later step of a drain (R161) -/

/-- The turn of a context that drains is the drain's next step. -/
theorem stepOn_resume_drain (hr : Running s) (hp : s.progress.get x = .drain d) :
    stepOn (.resume x) s = drainStep x d s := by
  simp [stepOn_of_running hr, takeEvent, resumeStep, hp]

theorem stepOn_resume_check (hr : Running s) (hp : s.progress.get x = .drain d) (hd : d.phase = .check) :
    stepOn (.resume x) s = .next (s.checked x d.blocks) := by
  rw [stepOn_resume_drain hr hp, drainStep, hd]
  exact drainCheck_eq x d s

/-- A byte makes a block's bytes DEC_IN, or leaves them fewer. -/
theorem phase_after_collect {k decIn : Nat} (hk : k < decIn) :
    (if k + 1 < decIn then DrainPhase.collect else .emit) = if k + 1 = decIn then .emit else .collect := by
  split
  next h => rw [if_neg h.ne]
  next h => rw [if_pos (by omega)]

theorem stepOn_resume_collect {e : Byte} {r : RingBuffer Byte} (hr : Running s) (hp : s.progress.get x = .drain d)
    (hd : d.phase = .collect) (he : s.raw.pop = some (e, r)) :
    stepOn (.resume x) s = .next ((s.setRaw r).setProgress x
      (.drain ⟨if d.k + 1 < s.cfg.decIn then .collect else .emit, d.k + 1, d.acc ++ [e], d.blocks⟩)) := by
  simp [stepOn_resume_drain hr hp, drainStep, hd, drainCollect, he]

theorem stepOn_resume_emit_fatal (hr : Running s) (hp : s.progress.get x = .drain d) (hd : d.phase = .emit)
    (hf : s.cfg.micFullPolicy = .fatal ∧ s.mic.free < s.cfg.decOut) :
    stepOn (.resume x) s = raiseFatal .micOverflow s := by
  simp [stepOn_resume_drain hr hp, drainStep, hd, drainEmit, hf]

theorem stepOn_resume_emit {mic : RingBuffer Sample} (hr : Running s) (hp : s.progress.get x = .drain d)
    (hd : d.phase = .emit) (hf : ¬ (s.cfg.micFullPolicy = .fatal ∧ s.mic.free < s.cfg.decOut))
    (hm : s.mic.pushWhileFree (filterBlock s.cfg s.fs d.acc) = some mic) :
    stepOn (.resume x) s = .next ((s.decimated s.raw (filterState s.cfg s.fs d.acc) mic).setProgress x
      (.drain ⟨.check, d.k, d.acc, d.blocks + 1⟩)) := by
  rw [stepOn_resume_drain hr hp, drainStep, hd]
  simp only [drainEmit, if_neg hf, hm]
  rfl

/-! ### A run of pushes (R160) -/

/-- `t` is a running core that differs from `s` in RAW, which has taken `bytes`, and in the command interface. -/
structure Pushed (bytes : List Byte) (s t : State) : Prop extends Running t where
  cfg : t.cfg = s.cfg
  progress : t.progress = s.progress
  mic : t.mic = s.mic
  fs : t.fs = s.fs
  diag : t.diag = s.diag
  raw : s.raw.pushWhileFree bytes = some t.raw

theorem Pushed.refl (hr : Running s) : Pushed [] s s :=
  ⟨hr, rfl, rfl, rfl, rfl, rfl, rfl⟩

theorem Pushed.trans {u : State} {bytes bytes' : List Byte} (h : Pushed bytes s u) (h' : Pushed bytes' u t) :
    Pushed (bytes ++ bytes') s t where
  toRunning := h'.toRunning
  cfg := h'.cfg.trans h.cfg
  progress := h'.progress.trans h.progress
  mic := h'.mic.trans h.mic
  fs := h'.fs.trans h.fs
  diag := h'.diag.trans h.diag
  raw := by rw [RingBuffer.pushWhileFree_append, h.raw]; exact h'.raw

/-- Bytes that fit are behind RAW's contents after the pushes. -/
theorem Pushed.contents {n : Nat} {bytes : List Byte} (h : Pushed bytes s t) (hw : s.raw.WellFormed n)
    (hb : bytes.length ≤ s.raw.free) :
    t.raw.WellFormed n ∧ t.raw.contents = s.raw.contents ++ bytes ∧ t.raw.used = s.raw.used + bytes.length := by
  obtain ⟨hw', hu⟩ := hw.used_pushWhileFree h.raw
  have hc := (hw.contents_pushWhileFree bytes h.raw).1
  rw [List.take_of_length_le hb] at hc
  exact ⟨hw', hc, by omega⟩

/-- Each byte takes one free slot. -/
theorem Pushed.free {n : Nat} {bytes : List Byte} (h : Pushed bytes s t) (hw : s.raw.WellFormed n)
    (hb : bytes.length ≤ s.raw.free) : t.raw.free = s.raw.free - bytes.length := by
  obtain ⟨hw', -, hu⟩ := h.contents hw hb
  rw [hw'.free_eq, hw.free_eq, hu]
  omega

/-- A byte fits the operand of DEC_PUSH, which BITSTREAM_ISR may issue (R89, R248). -/
theorem issuable_decPush (hr : Running s) (b : Byte) :
    Issuable .decPush .bitstreamIsr
      { s with cmd := ⟨contextId .bitstreamIsr, encode .decPush, b.toNat, 0, []⟩ } :=
  .of_issued hr rfl rfl (fits_iff.mpr b.isLt)

/-- BITSTREAM_ISR's turn with DEC_PUSH stores the byte when RAW has a free slot. -/
theorem stepOn_decPush_of_free (hr : Running s) (hx : s.progress.get .bitstreamIsr = .idle)
    (hh : s.raw.head < s.raw.size) (hf : 0 < s.raw.free) (b : Byte) :
    ∃ t, stepOn (issueEvent .bitstreamIsr .decPush b.toNat 0 []) s = .next t ∧ Pushed [b] s t := by
  have hraw : s.raw.pushWhileFree [b] =
      some ⟨s.raw.store.set s.raw.head b, (s.raw.head + 1) % s.raw.size, s.raw.tail⟩ := by
    simp [RingBuffer.pushWhileFree, hf, RingBuffer.push_eq hh]
  rw [stepOn_issueEvent hr hx, exec_decPush (issuable_decPush hr b) hh, if_neg (Nat.ne_of_gt hf), BitVec.ofNat_toNat,
    BitVec.setWidth_eq]
  exact ⟨_, rfl, ⟨hr.notHalted, hr.noFault⟩, rfl, rfl, rfl, rfl, rfl, hraw⟩

/-- The same turn halts the core when RAW is full. -/
theorem stepOn_decPush_of_full (hr : Running s) (hx : s.progress.get .bitstreamIsr = .idle)
    (hh : s.raw.head < s.raw.size) (hf : s.raw.free = 0) (b : Byte) :
    ∃ t, stepOn (issueEvent .bitstreamIsr .decPush b.toNat 0 []) s = .next t ∧ t.halted = true ∧
      t.haltCode = .decOverflow ∧ t.diag = s.diag ++ [.decOverflow] := by
  rw [stepOn_issueEvent hr hx, exec_decPush (issuable_decPush hr b) hh, if_pos hf]
  exact ⟨_, rfl, rfl, rfl, rfl⟩

/-- Pushes of bytes that fit store them in order (R160). -/
theorem runEvents_pushes {n : Nat} {bytes : List Byte} (hr : Running s) (hx : s.progress.get .bitstreamIsr = .idle)
    (hw : s.raw.WellFormed n) (hb : bytes.length ≤ s.raw.free) :
    ∃ t, runEvents (pushes bytes) s = .next t ∧ Pushed bytes s t := by
  induction bytes generalizing s with
  | nil => exact ⟨s, rfl, .refl hr⟩
  | cons b bytes ih =>
    rw [List.length_cons] at hb
    have hf : 0 < s.raw.free := Nat.zero_lt_of_lt hb
    obtain ⟨u, hu, hsu⟩ := stepOn_decPush_of_free hr hx (hw.size.symm ▸ hw.head) hf b
    have hfree : u.raw.free = s.raw.free - 1 := hsu.free hw hf
    obtain ⟨t, ht, hut⟩ := ih hsu.toRunning (hsu.progress ▸ hx) (hsu.contents hw hf).1 (by omega)
    exact ⟨t, (runEvents_cons hu).trans ht, hsu.trans hut⟩

/-! ### A run of the steps of a drain (R161, R167) -/

@[simp] theorem State.setProgress_setProgress (s : State) (x : Context) (p q : Progress) :
    (s.setProgress x p).setProgress x q = s.setProgress x q := by
  cases x <;> rfl

/-- A Check step reads nothing of the drain's own progress but the number of blocks. -/
@[simp] theorem State.checked_setProgress (s : State) (x : Context) (p : Progress) (blocks : Nat) :
    (s.setProgress x p).checked x blocks = s.checked x blocks := by
  rw [State.checked, State.setProgress_setProgress, State.setProgress_setProgress]
  rfl

theorem State.setRaw_setProgress (s : State) (x : Context) (p : Progress) (raw : RingBuffer Byte) :
    (s.setProgress x p).setRaw raw = (s.setRaw raw).setProgress x p := rfl

theorem State.decimated_setProgress (s : State) (x : Context) (p : Progress) (raw : RingBuffer Byte)
    (fs : FilterState) (mic : RingBuffer Sample) :
    (s.setProgress x p).decimated raw fs mic = (s.decimated raw fs mic).setProgress x p := rfl

/-- A Check step that finds a block's bytes begins to collect them. -/
theorem State.checked_of_block (hc : 1 ≤ s.cfg.decIn) (hu : s.cfg.decIn ≤ s.raw.used) :
    s.checked x blocks = s.setProgress x (.drain (.collecting s.cfg.decIn blocks [])) := by
  rw [State.checked, if_neg (Nat.not_lt.mpr hu), Drain.collecting, List.length_nil, if_pos (Nat.lt_of_succ_le hc)]

/-- A Check step that finds less than a block's bytes finishes the drain. -/
theorem State.checked_of_short (hu : s.raw.used < s.cfg.decIn) :
    s.checked x blocks = (s.setProgress x .idle).setResults x (resResult blocks) :=
  if_pos hu

theorem Drain.collecting_of_full {decIn : Nat} (h : acc.length = decIn) :
    Drain.collecting decIn blocks acc = ⟨.emit, decIn, acc, blocks⟩ := by
  simp [Drain.collecting, h]

theorem Drain.collecting_append (decIn blocks : Nat) (acc : List Byte) (e : Byte) :
    Drain.collecting decIn blocks (acc ++ [e]) =
      ⟨if acc.length + 1 < decIn then .collect else .emit, acc.length + 1, acc ++ [e], blocks⟩ := by
  simp [Drain.collecting]

/-- A Collect step of a block that lacks bytes. -/
theorem stepOn_collecting {e : Byte} {raw : RingBuffer Byte} (hr : Running s) (hk : acc.length < s.cfg.decIn)
    (he : s.raw.pop = some (e, raw)) :
    stepOn (.resume x) (s.setProgress x (.drain (.collecting s.cfg.decIn blocks acc))) =
      .next ((s.setRaw raw).setProgress x (.drain (.collecting s.cfg.decIn blocks (acc ++ [e])))) := by
  have hphase : (Drain.collecting s.cfg.decIn blocks acc).phase = .collect := if_pos hk
  have hstep := stepOn_resume_collect (x := x) (s := s.setProgress x (.drain (.collecting s.cfg.decIn blocks acc)))
    ⟨hr.notHalted, hr.noFault⟩ (by simp) hphase he
  rw [State.setRaw_setProgress, State.setProgress_setProgress] at hstep
  rw [Drain.collecting_append]
  exact hstep

/-- The Collect steps that complete a block take its last bytes from RAW. -/
theorem runEvents_collecting {n : Nat} {bytes : List Byte} {raw : RingBuffer Byte} (hr : Running s)
    (hp : s.raw.popMany n = some (bytes, raw)) (hn : acc.length + n = s.cfg.decIn) :
    runEvents (List.replicate n (.resume x)) (s.setProgress x (.drain (.collecting s.cfg.decIn blocks acc))) =
      .next ((s.setRaw raw).setProgress x (.drain (.collecting s.cfg.decIn blocks (acc ++ bytes)))) := by
  induction n generalizing s acc bytes with
  | zero => cases hp; simp [State.setRaw]
  | succ n ih =>
    obtain ⟨e, bytes', raw₁, he, hp', rfl⟩ := RingBuffer.popMany_succ_inv hp
    have hstep := stepOn_collecting (x := x) (blocks := blocks) hr (by omega : acc.length < s.cfg.decIn) he
    have hrest := ih (s := s.setRaw raw₁) (acc := acc ++ [e]) ⟨hr.notHalted, hr.noFault⟩ hp'
      (by simp only [List.length_append, List.length_singleton, State.setRaw_cfg]; omega)
    rw [List.append_cons]
    exact (runEvents_cons hstep).trans hrest

/-- From one Check step to the next, a drain under policy Drop moves one block from RAW through the filter to MIC. -/
theorem runEvents_block {bytes : List Byte} {raw : RingBuffer Byte} {mic : RingBuffer Sample} (hr : Running s)
    (hc : 1 ≤ s.cfg.decIn) (hpol : s.cfg.micFullPolicy = .drop) (hu : s.cfg.decIn ≤ s.raw.used)
    (hp : s.raw.popMany s.cfg.decIn = some (bytes, raw)) (hlen : bytes.length = s.cfg.decIn)
    (hm : s.mic.pushWhileFree (filterBlock s.cfg s.fs bytes) = some mic) :
    runEvents (List.replicate (s.cfg.decIn + 2) (.resume x)) (s.checked x blocks) =
      .next ((s.decimated raw (filterState s.cfg s.fs bytes) mic).checked x (blocks + 1)) := by
  have hcollect := runEvents_collecting (x := x) (acc := []) (blocks := blocks) hr hp (Nat.zero_add _)
  rw [List.nil_append, Drain.collecting_of_full hlen] at hcollect
  have hemit := stepOn_resume_emit (x := x) (d := ⟨.emit, s.cfg.decIn, bytes, blocks⟩) (mic := mic)
    (s := (s.setRaw raw).setProgress x (.drain ⟨.emit, s.cfg.decIn, bytes, blocks⟩))
    ⟨hr.notHalted, hr.noFault⟩ (by simp) rfl (by simp [hpol]) hm
  rw [State.decimated_setProgress, State.setProgress_setProgress] at hemit
  have hcheck := stepOn_resume_check (x := x) (d := ⟨.check, s.cfg.decIn, bytes, blocks + 1⟩)
    (s := (s.decimated raw (filterState s.cfg s.fs bytes) mic).setProgress x
      (.drain ⟨.check, s.cfg.decIn, bytes, blocks + 1⟩))
    ⟨hr.notHalted, hr.noFault⟩ (by simp) rfl
  rw [State.checked_setProgress] at hcheck
  rw [State.checked_of_block hc hu, List.replicate_add, runEvents_append hcollect]
  exact (runEvents_cons hemit).trans (runEvents_cons hcheck)

/-- `t` is the core `s` after context `x` drained the `q` blocks that RAW held and finished with the count `total`
(R167). -/
structure Drained (x : Context) (total q : Nat) (s t : State) : Prop where
  res : (t.results.get x).res = some total
  idle : t.progress.get x = .idle
  raw : t.raw.used = 0
  fs : t.fs = (filterChunks s.cfg q s.fs s.raw.contents).1
  mic : s.mic.pushWhileFree (filterChunks s.cfg q s.fs s.raw.contents).2 = some t.mic

theorem Drained.of_empty (hc : 1 ≤ s.cfg.decIn) (hu : s.raw.used = 0) :
    Drained x blocks 0 s (s.checked x blocks) := by
  rw [State.checked_of_short (hu ▸ hc)]
  exact ⟨by simp, by simp, hu, rfl, rfl⟩

/-- One block, and then those that follow it in RAW. -/
theorem Drained.of_block {total q : Nat} {raw : RingBuffer Byte} {mic : RingBuffer Sample}
    (hraw : raw.contents = s.raw.contents.drop s.cfg.decIn)
    (hm : s.mic.pushWhileFree (filterBlock s.cfg s.fs (s.raw.contents.take s.cfg.decIn)) = some mic)
    (h : Drained x total q (s.decimated raw (filterState s.cfg s.fs (s.raw.contents.take s.cfg.decIn)) mic) t) :
    Drained x total (q + 1) s t := by
  obtain ⟨hres, hidle, hu, hfs, hmic⟩ := h
  rw [State.decimated_raw, hraw] at hfs hmic
  refine ⟨hres, hidle, hu, hfs, ?_⟩
  rw [filterChunks, RingBuffer.pushWhileFree_append, hm]
  exact hmic

/-- A drain under policy Drop that finds `q` blocks' worth of bytes in RAW forwards them as `q` blocks, in order, and
finishes (R167). -/
theorem runEvents_blocks {n m : Nat} (q : Nat) (hr : Running s) (hc : 1 ≤ s.cfg.decIn)
    (hpol : s.cfg.micFullPolicy = .drop) (hraw : s.raw.WellFormed n) (hmic : s.mic.WellFormed m)
    (hu : s.raw.used = q * s.cfg.decIn) :
    ∃ t, runEvents (List.replicate (q * (s.cfg.decIn + 2)) (.resume x)) (s.checked x blocks) = .next t ∧
      Drained x (blocks + q) q s t := by
  induction q generalizing s blocks with
  | zero =>
    rw [Nat.zero_mul] at hu ⊢
    exact ⟨_, rfl, .of_empty hc hu⟩
  | succ q ih =>
    rw [Nat.succ_mul] at hu
    obtain ⟨raw, hp, hraw', hrest, hused⟩ := hraw.popMany_contents (m := s.cfg.decIn) (by omega)
    have hlen : (s.raw.contents.take s.cfg.decIn).length = s.cfg.decIn :=
      List.length_take_of_le (by rw [hraw.contents_length]; omega)
    obtain ⟨mic, hm, hmic'⟩ := hmic.pushWhileFree (filterBlock s.cfg s.fs (s.raw.contents.take s.cfg.decIn))
    have hblock := runEvents_block (x := x) (blocks := blocks) hr hc hpol (by omega) hp hlen hm
    obtain ⟨t, ht, hut⟩ := ih (blocks := blocks + 1)
      (s := s.decimated raw (filterState s.cfg s.fs (s.raw.contents.take s.cfg.decIn)) mic)
      ⟨hr.notHalted, hr.noFault⟩ hc hpol hraw' hmic' (by rw [State.decimated_raw, State.decimated_cfg]; omega)
    rw [Nat.succ_mul, Nat.add_comm, List.replicate_add, runEvents_append hblock, ← Nat.add_assoc, Nat.add_right_comm]
    exact ⟨t, ht, .of_block hrest hm hut⟩

/-- TASK's turn with DEC_DRAIN is the first Check step, and its later turns are the steps of `q` blocks. -/
theorem runEvents_drain {n m : Nat} (q : Nat) (hr : Running s) (hx : s.progress.get .task = .idle)
    (hc : 1 ≤ s.cfg.decIn) (hpol : s.cfg.micFullPolicy = .drop) (hraw : s.raw.WellFormed n)
    (hmic : s.mic.WellFormed m) (hu : s.raw.used = q * s.cfg.decIn) :
    ∃ t, runEvents (issueEvent .task .decDrain 0 0 [] :: List.replicate (q * (s.cfg.decIn + 2)) (.resume .task)) s =
        .next t ∧ Drained .task q q s t := by
  have hfirst := (stepOn_issueEvent hr hx 0 0 []).trans (exec_decDrain (.of_issued hr rfl rfl rfl))
  obtain ⟨t, ht, hres, hidle, hused, hfs, hm⟩ := runEvents_blocks (x := .task) (blocks := 0) q
    (s := { s with cmd := ⟨contextId .task, encode .decDrain, 0, 0, []⟩ }) ⟨hr.notHalted, hr.noFault⟩ hc hpol hraw
    hmic hu
  exact ⟨t, (runEvents_cons hfirst).trans ht, Nat.zero_add q ▸ hres, hidle, hused, hfs, hm⟩

end

end Sys2Proof.Machine
end

section
/-! PROOF. The statements of 43_decimator: the effect of each operation and of each later step of a drain, the laws of
the blocks and of the overflow, and the frame. -/

namespace Sys2Proof.Machine

/-- Settles O28: free is 0 exactly when used is N - 1. -/
theorem decPushStoresOrHalts : Obligations.DecPushStoresOrHalts := by
  intro s x hi hh _
  have hfull := RingBuffer.free_eq_zero_iff (Nat.zero_lt_of_lt hh)
  rw [exec_decPush hi hh]
  simp only [hfull, RingBuffer.used]
  rfl

/-- Settles O29: the first Check step and a later one are the same rule. -/
theorem drainCheckFinishesOrCollects : Obligations.DrainCheckFinishesOrCollects :=
  ⟨fun _ _ => exec_decDrain, fun _ _ _ => stepOn_resume_check⟩

/-- Settles O30: with less than DEC_IN bytes before it, the step makes them DEC_IN or leaves them fewer. -/
theorem drainCollectTakesOneByte : Obligations.DrainCollectTakesOneByte := by
  intro s x d e hr hp hd hk he
  have hpop : s.raw.pop = some (e, s.raw.dropFront) := congrArg (Option.map fun e => (e, s.raw.dropFront)) he
  rw [stepOn_resume_collect hr hp hd hpop, phase_after_collect hk]
  rfl

/-- Settles O31: MicSinkWrite's loop appends what there is room for and stores to the next slots from head. -/
theorem drainEmitForwardsOrHalts : Obligations.DrainEmitForwardsOrHalts := by
  intro s x d hr hp hd hw
  refine ⟨stepOn_resume_emit_fatal hr hp hd, fun hf => ?_⟩
  obtain ⟨mic, hm, hmic⟩ := hw.pushWhileFree (filterBlock s.cfg s.fs d.acc)
  obtain ⟨hcontents, htail⟩ := hw.contents_pushWhileFree _ hm
  refine ⟨mic, hmic, htail, hcontents, fun k hk => ?_, stepOn_resume_emit hr hp hd hf hm⟩
  exact hw.read_pushWhileFree _ hm (by rwa [length_filterBlock])

/-- Settles O32: `m` reads of a ring that holds at least `m` samples. -/
theorem micFetchReadsOldestAndPads : Obligations.MicFetchReadsOldestAndPads := by
  rintro s x m hi hw rfl
  have hlen : (s.mic.contents.take (min s.mic.used s.cfg.micBlock)).length = min s.mic.used s.cfg.micBlock := by
    rw [List.length_take, hw.contents_length]
    omega
  rw [exec_micFetch hi (hw.popMany_eq (Nat.min_le_left _ _)), micBlock, hlen]
  rfl

/-- Settles O33: the pushes leave `bytes` in RAW, and the drain takes it DEC_IN bytes at a time. -/
theorem blocksInBlocksOut : Obligations.BlocksInBlocksOut := by
  intro s bytes k hc hrings hr htask hbits hpol hempty hlen hfit
  have hdec := hc.one_le_decIn.1
  have hroom : bytes.length ≤ s.raw.free := by rw [hrings.raw.free_eq]; omega
  obtain ⟨u, hu, hsu⟩ := runEvents_pushes hr hbits hrings.raw hroom
  obtain ⟨hraw, hcontents, hused⟩ := hsu.contents hrings.raw hroom
  rw [RingBuffer.contents_of_used_zero hempty, List.nil_append] at hcontents
  rw [← hsu.cfg] at hdec hpol hlen
  obtain ⟨t, ht, hres, hidle, hraw0, hfs, hmic⟩ := runEvents_drain k hsu.toRunning (hsu.progress ▸ htask) hdec hpol
    hraw (hsu.mic ▸ hrings.mic) (by omega)
  rw [hsu.cfg, hsu.fs, hcontents] at hfs hmic
  rw [hsu.mic] at hmic
  have hsamples := length_filterChunks s.cfg k s.fs bytes
  refine ⟨t, (runEvents_append hu).trans (hsu.cfg ▸ ht), hres, hidle, hraw0, hfs, hsamples,
    (hrings.mic.contents_pushWhileFree _ hmic).1, ?_⟩
  rw [(hrings.mic.used_pushWhileFree hmic).2, hsamples]

/-- Settles O34: each push that fits takes one free slot, and the push that finds none halts the core. -/
theorem overflowHaltsExactlyOnce : Obligations.OverflowHaltsExactlyOnce := by
  intro s bytes b hrings hr hx hlen
  obtain ⟨t, ht, hst⟩ := runEvents_pushes hr hx hrings.raw hlen.le
  obtain ⟨hw, -⟩ := hst.contents hrings.raw hlen.le
  have hfull : t.raw.free = 0 := by rw [hst.free hrings.raw hlen.le, hlen, Nat.sub_self]
  obtain ⟨v, hv, hhalted, hcode, hdiag⟩ := stepOn_decPush_of_full hst.toRunning (hst.progress ▸ hx)
    (hw.size.symm ▸ hw.head) hfull b
  refine ⟨⟨t, ht, hst.toRunning, hfull, hst.diag⟩, v, ?_, hhalted, hcode, hst.diag ▸ hdiag, fun e => ?_⟩
  · rw [pushes, List.map_append]
    exact (runEvents_append ht).trans (runEvents_cons hv)
  · simp [stepOn, hhalted]

/-- Settles O58: an operation that does not fault changes the ring it moves and the ports of the context that issued
it, or enters the fatal halt, or begins its operation. -/
theorem decimatorFrame : Obligations.DecimatorFrame := by
  intro s t
  refine ⟨fun h => ?_, fun h => ?_, fun h => ?_⟩
  -- DEC_PUSH
  · obtain ⟨-, ⟨code, rfl⟩ | ⟨x, hi, he⟩⟩ := exec_effect h
    · exact ⟨rfl, fun _ _ => rfl, rfl, rfl, fun _ _ => rfl⟩
    cases he with
    | ports _ _ hi => cases hi
    | decPushFull => exact ⟨rfl, fun _ _ => rfl, rfl, rfl, fun _ _ => rfl⟩
    | decPush r hf hp =>
      obtain ⟨-, rfl⟩ := RingBuffer.push_inv hp
      exact ⟨rfl, hi.results_other _ _, rfl, by simp [RingBuffer.size], fun k hk => List.getElem?_set_ne hk.symm⟩
  -- DEC_DRAIN
  · obtain ⟨-, ⟨code, rfl⟩ | ⟨x, hi, he⟩⟩ := exec_effect h
    · exact ⟨rfl, fun _ _ => ⟨rfl, rfl⟩⟩
    cases he with
    | ports _ _ hi => cases hi
    | decDrainEmpty | decDrain => exact ⟨rfl, fun y hy => by simp [hi.ne_of_context_ne hy]⟩
  -- MIC_FETCH
  · obtain ⟨-, ⟨code, rfl⟩ | ⟨x, hi, he⟩⟩ := exec_effect h
    · exact ⟨rfl, fun _ _ => rfl, rfl, fun _ => rfl⟩
    cases he with
    | ports _ _ hi => cases hi
    | micFetch samples r hp =>
      obtain ⟨hstore, hhead⟩ := RingBuffer.popMany_frame hp
      exact ⟨rfl, hi.results_other _ _, hhead, fun k => congrArg (memRead · k) hstore⟩

end Sys2Proof.Machine
end

section
/-! PROOF. The PP unit and the DMA engine (44_pingpong): each operation and the engine's finish step as one equation,
the status word's value, and a run of completions. -/

namespace Sys2Proof.Machine

/-! ### Each operation, when its checks pass (R190 to R195) -/

section
variable {s : State} {x : Context} {i : Instr} {p : Playback}

/-- Before PP_START there is no scheduler to act on (R190). -/
theorem exec_of_not_started (hm : i ∈ [Instr.ppComplete, .ppPoll, .ppFill, .ppPlaying]) (hi : Issuable i x s)
    (hp : s.pp = none) : exec i s = raiseFault .sequence s := by
  simp only [List.mem_cons, List.not_mem_nil, or_false] at hm
  obtain rfl | rfl | rfl | rfl := hm
  · rw [exec, execPpComplete, issue_of_issuable hi, hp]
  · rw [exec, execPpPoll, issue_of_issuable hi, hp]
  · rw [exec, execPpFill, issue_of_issuable hi, hp]
  · rw [exec, execPpPlaying, issue_of_issuable hi, hp]

theorem exec_ppStart (hi : Issuable .ppStart x s) :
    exec .ppStart s =
      if s.ppStarted then raiseFault .sequence s
      else finish x .blank (s.setPlayback playbackStart) := by
  rw [exec, execPpStart, issue_of_issuable hi, State.ppStarted]
  cases s.pp <;> rfl

theorem exec_ppComplete (hi : Issuable .ppComplete x s) (hp : s.pp = some p) :
    exec .ppComplete s =
      if p.dmaPending then finish x .blank (s.setPlayback (completed p)) else raiseFault .spurious s := by
  rw [exec, execPpComplete, issue_of_issuable hi, hp]
  cases hd : p.dmaPending <;> simp [hd]

theorem exec_ppPoll (hi : Issuable .ppPoll x s) (hp : s.pp = some p) :
    exec .ppPoll s =
      if p.phase = .fill then raiseFault .sequence s
      else if p.playing = p.expected ∧ p.idleCount = 0 then raiseFatal .pbOverrun s
      else if p.playing = p.expected then
        finish x (okResult true) (s.setPlayback { p with phase := .fill, idleCount := 0 })
      else finish x (okResult false) (s.setPlayback { p with idleCount := p.idleCount + 1 }) := by
  rw [exec, execPpPoll, issue_of_issuable hi, hp]
  cases hph : p.phase with
  | fill => simp [hph]
  | wait => by_cases he : p.playing = p.expected <;> simp [hph, he]

theorem exec_ppFill (hi : Issuable .ppFill x s) (hp : s.pp = some p) :
    exec .ppFill s =
      if p.phase = .wait then raiseFault .sequence s
      else if p.dmaActive = true ∧ p.dmaBuf = p.expected.other then raiseFault .ownership s
      else finish x .blank
        ((s.setBuf p.expected.other (s.cmd.blkIn.map (sampleConvert s.cfg))).setPlayback
          { p with expected := p.expected.other, phase := .wait, idleCount := 0 }) := by
  rw [exec, execPpFill, issue_of_issuable hi, hp]
  cases hph : p.phase <;> simp [hph]

theorem exec_ppPlaying (hi : Issuable .ppPlaying x s) (hp : s.pp = some p) :
    exec .ppPlaying s = finish x (resResult (bufNumber p.playing)) s := by
  rw [exec, execPpPlaying, issue_of_issuable hi, hp]

/-- The DMA engine's turn after PP_START (R191). -/
theorem stepOn_dma (hr : Running s) (hp : s.pp = some p) :
    stepOn .dma s =
      if p.dmaActive = true ∧ p.dmaPending = false then
        .next ({ s with played := s.played ++ [(p.dmaBuf, s.buf p.dmaBuf)] }.setPlayback
          { p with dmaActive := false, dmaPending := true })
      else .next s := by
  rw [stepOn_of_running hr, takeEvent, dmaStep, hp]

/-- The DMA engine's turn before PP_START (R190). -/
theorem stepOn_dma_not_started (hr : Running s) (hp : s.pp = none) : stepOn .dma s = .next s := by
  rw [stepOn_of_running hr, takeEvent, dmaStep, hp]

end

/-! ### The status word's value (10_state R44) -/

/-- A field on the right of a word takes the low bits. -/
theorem toNat_append_eq_add {m n : Nat} (a : BitVec m) (b : BitVec n) : (a ++ b).toNat = a.toNat * 2 ^ n + b.toNat := by
  rw [BitVec.toNat_append, ← Nat.shiftLeft_add_eq_or_of_lt b.isLt, Nat.shiftLeft_eq]

theorem toNat_playbackBit (s : State) (f : Playback → Bool) :
    (playbackBit s f).toNat = ((s.pp.map f).getD false).toNat :=
  BitVec.toNat_ofBool _

theorem bufBit_iff {b : BufIx} : bufBit b = true ↔ b = .one := by cases b <;> decide

theorem mul_toNat_eq_ite (w : Nat) (b : Bool) : w * b.toNat = if b then w else 0 := by cases b <;> simp

/-- The fields of the status word by their weights. -/
theorem toNat_statusWord (s : State) :
    (statusWord s).toNat =
      s.halted.toNat + 2 * (haltCodeBits s.haltCode).toNat +
      (16 * s.ppStarted.toNat +
        32 * (playbackBit s fun p => bufBit p.playing).toNat + 64 * (playbackBit s fun p => bufBit p.expected).toNat +
        128 * (playbackBit s fun p => decide (p.phase = .fill)).toNat + 256 * (playbackBit s (·.dmaActive)).toNat +
        512 * (playbackBit s (·.dmaPending)).toNat + 1024 * (playbackBit s fun p => bufBit p.dmaBuf).toNat) := by
  simp only [statusWord, toNat_append_eq_add, BitVec.toNat_ofBool, BitVec.toNat_zero]
  omega

/-! ### A run of completions (R198) -/

/-- The scheduler and the engine while buffer `b` plays. -/
def Playback.withPlaying (p : Playback) (b : BufIx) : Playback :=
  { p with playing := b, dmaActive := true, dmaPending := false, dmaBuf := b }

/-- The buffer that plays `n` completions after `b`. -/
def BufIx.after (b : BufIx) (n : Nat) : BufIx := if n % 2 = 0 then b else b.other

theorem BufIx.after_of_even {n : Nat} (h : n % 2 = 0) (b : BufIx) : b.after n = b := if_pos h

theorem BufIx.after_of_odd {n : Nat} (h : n % 2 = 1) (b : BufIx) : b.after n = b.other := if_neg (by omega)

theorem BufIx.after_succ (b : BufIx) (n : Nat) : b.after (n + 1) = b.other.after n := by
  obtain h | h := Nat.mod_two_eq_zero_or_one n
  · rw [after_of_odd (by omega), after_of_even h]
  · rw [after_of_even (by omega), after_of_odd h, other_other]

/-- `t` is a running core with the configuration and the operations in progress of `s`, and with playback `p`. -/
structure PlaysOn (p : Playback) (s t : State) : Prop extends Running t where
  cfg : t.cfg = s.cfg
  progress : t.progress = s.progress
  pp : t.pp = some p

theorem PlaysOn.trans {s t u : State} {p q : Playback} (h : PlaysOn p s t) (h' : PlaysOn q t u) : PlaysOn q s u where
  toRunning := h'.toRunning
  cfg := h'.cfg.trans h.cfg
  progress := h'.progress.trans h.progress
  pp := h'.pp

section
variable {s : State} {p : Playback} {b : BufIx}

/-- A playing buffer is finished by the engine, and its completion is pending. -/
theorem stepOn_dma_withPlaying (hr : Running s) (hp : s.pp = some (p.withPlaying b)) :
    ∃ t, stepOn .dma s = .next t ∧ PlaysOn { p.withPlaying b with dmaActive := false, dmaPending := true } s t := by
  rw [stepOn_dma hr hp, if_pos ⟨rfl, rfl⟩]
  exact ⟨_, rfl, ⟨hr.notHalted, hr.noFault⟩, rfl, rfl, rfl⟩

/-- DMA_ISR's turn with PP_COMPLETE takes a pending completion. -/
theorem stepOn_ppComplete (hr : Running s) (hx : s.progress.get .dmaIsr = .idle) (hp : s.pp = some p)
    (hd : p.dmaPending = true) :
    ∃ t, stepOn (issueEvent .dmaIsr .ppComplete 0 0 []) s = .next t ∧ PlaysOn (completed p) s t := by
  rw [stepOn_issueEvent hr hx, exec_ppComplete (.of_issued hr rfl rfl rfl) hp, if_pos hd]
  exact ⟨_, rfl, ⟨hr.notHalted, hr.noFault⟩, rfl, rfl, rfl⟩

/-- Each completion, restarted at once, changes the buffer that plays and nothing else of the scheduler. -/
theorem runEvents_completions (n : Nat) (hr : Running s) (hx : s.progress.get .dmaIsr = .idle)
    (hp : s.pp = some (p.withPlaying b)) :
    ∃ t, runEvents (completions n) s = .next t ∧ PlaysOn (p.withPlaying (b.after n)) s t := by
  induction n generalizing s b with
  | zero => exact ⟨s, rfl, hr, rfl, rfl, hp⟩
  | succ n ih =>
    obtain ⟨u, hu, hsu⟩ := stepOn_dma_withPlaying hr hp
    obtain ⟨v, hv, huv⟩ := stepOn_ppComplete hsu.toRunning (hsu.progress ▸ hx) hsu.pp rfl
    have hsv : PlaysOn (p.withPlaying b.other) s v := hsu.trans huv
    obtain ⟨t, ht, hvt⟩ := ih hsv.toRunning (hsv.progress ▸ hx) hsv.pp
    rw [BufIx.after_succ]
    exact ⟨t, (runEvents_cons hu).trans ((runEvents_cons hv).trans ht), hsv.trans hvt⟩

/-! ### TASK's turns (R193, R194, R198) -/

/-- The scheduler once the task has filled (R194). -/
def Playback.filled (p : Playback) : Playback :=
  { p with expected := p.expected.other, phase := .wait, idleCount := 0 }

variable {blk : List Sample}

/-- A block of CH*B samples passes the checks of PP_FILL, which TASK may issue (30_encoding R89, 60_exceptions R248). -/
theorem issuable_ppFill (hr : Running s) (hlen : blk.length = s.cfg.blockLen) :
    Issuable .ppFill .task { s with cmd := ⟨contextId .task, encode .ppFill, 0, 0, blk⟩ } :=
  .of_issued hr rfl rfl (decide_eq_true hlen)

/-- TASK's fill faults when the buffer it would write plays. -/
theorem stepOn_ppFill_of_owned (hr : Running s) (hx : s.progress.get .task = .idle)
    (hlen : blk.length = s.cfg.blockLen) (hp : s.pp = some (p.withPlaying p.expected.other)) (hf : p.phase = .fill) :
    ∃ t, stepOn (issueEvent .task .ppFill 0 0 blk) s = .next t ∧
      t.fault = some (.command .ownership (contextId .task) (encode .ppFill)) := by
  have hw : (p.withPlaying p.expected.other).phase ≠ .wait := fun h => nomatch hf.symm.trans h
  rw [stepOn_issueEvent hr hx, exec_ppFill (issuable_ppFill hr hlen) hp, if_neg hw, if_pos ⟨rfl, rfl⟩]
  exact ⟨_, rfl, rfl⟩

/-- TASK's fill succeeds while the expected buffer plays. -/
theorem stepOn_ppFill_of_free (hr : Running s) (hx : s.progress.get .task = .idle)
    (hlen : blk.length = s.cfg.blockLen) (hp : s.pp = some (p.withPlaying p.expected)) (hf : p.phase = .fill) :
    ∃ t, stepOn (issueEvent .task .ppFill 0 0 blk) s = .next t ∧ PlaysOn (p.filled.withPlaying p.expected) s t := by
  have hw : (p.withPlaying p.expected).phase ≠ .wait := fun h => nomatch hf.symm.trans h
  have ho : ¬ ((p.withPlaying p.expected).dmaActive = true ∧
      (p.withPlaying p.expected).dmaBuf = (p.withPlaying p.expected).expected.other) :=
    fun h => p.expected.other_ne h.2.symm
  rw [stepOn_issueEvent hr hx, exec_ppFill (issuable_ppFill hr hlen) hp, if_neg hw, if_neg ho]
  exact ⟨_, rfl, ⟨by simp [hr.notHalted], by simp [hr.noFault]⟩, by simp, by simp, rfl⟩

/-- The first poll after a fill halts when the buffer filled already plays. -/
theorem stepOn_ppPoll_overrun (hr : Running s) (hx : s.progress.get .task = .idle)
    (hp : s.pp = some (p.filled.withPlaying p.expected.other)) :
    ∃ t, stepOn (issueEvent .task .ppPoll 0 0 []) s = .next t ∧ t.halted = true ∧ t.haltCode = .pbOverrun := by
  rw [stepOn_issueEvent hr hx, exec_ppPoll (.of_issued hr rfl rfl rfl) hp, if_neg nofun, if_pos ⟨rfl, rfl⟩]
  exact ⟨_, rfl, rfl, rfl⟩

/-- The first poll after a fill answers not ready while the other buffer plays. -/
theorem stepOn_ppPoll_waiting (hr : Running s) (hx : s.progress.get .task = .idle)
    (hp : s.pp = some (p.filled.withPlaying p.expected)) :
    ∃ t, stepOn (issueEvent .task .ppPoll 0 0 []) s = .next t ∧ Running t ∧
      (t.results.get .task).ok = some false := by
  have hne : (p.filled.withPlaying p.expected).playing ≠ (p.filled.withPlaying p.expected).expected :=
    p.expected.other_ne.symm
  rw [stepOn_issueEvent hr hx, exec_ppPoll (.of_issued hr rfl rfl rfl) hp, if_neg nofun, if_neg fun h => hne h.1,
    if_neg hne]
  exact ⟨_, rfl, ⟨hr.notHalted, hr.noFault⟩, rfl⟩

/-- A turn up to its poll: an even number of completions lets the task fill, and those after the fill change the buffer
that plays. -/
theorem runEvents_turn {a n : Nat} (hr : Running s) (htask : s.progress.get .task = .idle)
    (hdma : s.progress.get .dmaIsr = .idle) (hlen : blk.length = s.cfg.blockLen)
    (hp : s.pp = some (p.withPlaying p.expected)) (hf : p.phase = .fill) (ha : a % 2 = 0) :
    ∃ t, runEvents (completions a ++ issueEvent .task .ppFill 0 0 blk :: completions n) s = .next t ∧
      PlaysOn (p.filled.withPlaying (p.expected.after n)) s t := by
  obtain ⟨u, hu, hsu⟩ := runEvents_completions a hr hdma hp
  rw [BufIx.after_of_even ha] at hsu
  obtain ⟨v, hv, huv⟩ := stepOn_ppFill_of_free hsu.toRunning (hsu.progress ▸ htask) (hsu.cfg ▸ hlen) hsu.pp hf
  have hsv := hsu.trans huv
  obtain ⟨t, ht, hvt⟩ := runEvents_completions n hsv.toRunning (hsv.progress ▸ hdma) hsv.pp
  exact ⟨t, (runEvents_append hu).trans ((runEvents_cons hv).trans ht), hsv.trans hvt⟩

end

end Sys2Proof.Machine
end

section
/-! PROOF. The statements of 44_pingpong and of the operations of 45_system: the alternation of the buffers played, the
effect of each operation and of the DMA engine's step, the overrun check, and the frame. -/

namespace Sys2Proof.Machine

/-- Settles O48: by cases on what the step can do. -/
theorem stepKeepsPlaybackAlternation : Obligations.StepKeepsPlaybackAlternation := fun _ _ =>
  step_keeps PlaybackInv (fun _ _ _ _ h => h.congr) (fun _ _ h => h.congr) (fun _ _ _ _ _ h _ _ he => h.command he)
    (fun _ _ _ _ h he => h.resume he) (fun _ _ _ h he => h.dma he)

/-- Settles O35: the operation's own equation. -/
theorem ppStartStartsOnce : Obligations.PpStartStartsOnce := by
  intro s x hi
  rw [exec_ppStart hi]
  split <;> rfl

/-- Settles O36: the operation's own equation, on each side of PP_START. -/
theorem ppCompleteRestartsOtherBuffer : Obligations.PpCompleteRestartsOtherBuffer := by
  refine ⟨fun s x hi hp => exec_of_not_started (by simp) hi hp, fun s x p hi hp => ?_⟩
  rw [exec_ppComplete hi hp]
  split <;> rfl

/-- Settles O37: the operation's own equation, on each side of PP_START. -/
theorem ppPollWaitsOrHalts : Obligations.PpPollWaitsOrHalts := by
  refine ⟨fun s x hi hp => exec_of_not_started (by simp) hi hp, fun s x p hi hp => ?_⟩
  rw [exec_ppPoll hi hp]
  split
  · rfl
  split
  · rfl
  split <;> rfl

/-- Settles O38: the buffer that is not expected is the one written, whichever is expected. -/
theorem ppFillWritesFreedBuffer : Obligations.PpFillWritesFreedBuffer := by
  refine ⟨fun s x hi hp => exec_of_not_started (by simp) hi hp, fun s x p hi hp => ?_⟩
  rw [exec_ppFill hi hp]
  split
  · rfl
  split
  · rfl
  cases he : p.expected <;> rfl

/-- Settles O39: neither the operations nor the engine find a scheduler. -/
theorem schedulerNeedsStart : Obligations.SchedulerNeedsStart := fun _ hp =>
  ⟨fun _ _ hm hi => exec_of_not_started hm hi hp, fun hr => stepOn_dma_not_started hr hp⟩

/-- Settles O40: the engine's own equation, with the content of whichever buffer it plays. -/
theorem dmaFinishRecordsPlayback : Obligations.DmaFinishRecordsPlayback := by
  intro s p hr hp
  rw [stepOn_dma hr hp]
  split
  · cases p.dmaBuf <;> rfl
  · rfl

/-- Settles O41: after an odd number of completions the buffer that the task is to fill plays; after an even number the
expected one plays, the task fills, and the first poll sees whether the completions since are odd. -/
theorem overrunIsSeenOnlyWhenOdd : Obligations.OverrunIsSeenOnlyWhenOdd := by
  intro s e idle a b blk hr htask hdma hlen hp
  replace hp : s.pp = some (Playback.withPlaying ⟨e, e, .fill, idle, true, false, e⟩ e) := hp
  refine ⟨fun ha => ?_, fun ha hab => ?_, fun ha hab => ?_⟩
  · obtain ⟨u, hu, hsu⟩ := runEvents_completions a hr hdma hp
    rw [BufIx.after_of_odd ha] at hsu
    obtain ⟨t, ht, hfault⟩ := stepOn_ppFill_of_owned hsu.toRunning (hsu.progress ▸ htask) (hsu.cfg ▸ hlen) hsu.pp rfl
    exact ⟨t, (runEvents_append hu).trans (runEvents_cons ht), hfault⟩
  · obtain ⟨u, hu, hsu⟩ := runEvents_turn (n := b) hr htask hdma hlen hp rfl ha
    rw [BufIx.after_of_odd (by omega)] at hsu
    obtain ⟨t, ht, hhalt⟩ := stepOn_ppPoll_overrun hsu.toRunning (hsu.progress ▸ htask) hsu.pp
    exact ⟨t, (runEvents_append hu).trans (runEvents_cons ht), hhalt⟩
  · obtain ⟨u, hu, hsu⟩ := runEvents_turn (n := b) hr htask hdma hlen hp rfl ha
    rw [BufIx.after_of_even (by omega)] at hsu
    obtain ⟨t, ht, hok⟩ := stepOn_ppPoll_waiting hsu.toRunning (hsu.progress ▸ htask) hsu.pp
    exact ⟨t, (runEvents_append hu).trans (runEvents_cons ht), hok⟩

/-- Settles O42: each operation's own equation, and the weights of the status word's fields. -/
theorem playingIdleAndStatus : Obligations.PlayingIdleAndStatus := by
  refine ⟨fun s x hi hp => exec_of_not_started (by simp) hi hp, fun s x p hi hp => ?_,
    fun s x => issue_of_issuable, fun s x => issue_of_issuable, fun s => ?_⟩
  · rw [exec_ppPlaying hi hp]
    cases p.playing <;> rfl
  · rw [toNat_statusWord]
    refine congrArg₂ (· + ·) (congrArg₂ (· + ·) ?_ ?_) ?_
    · cases s.halted <;> rfl
    · cases s.haltCode <;> rfl
    · simp only [toNat_playbackBit, State.ppStarted, mul_toNat_eq_ite]
      cases s.pp with
      | none => rfl
      | some p => simp [bufBit_iff]

/-- Settles O59: an operation that does not fault writes the scheduler's fields, enters the fatal halt, or fills the
buffer that is not expected. -/
theorem schedulerFrame : Obligations.SchedulerFrame := by
  intro s t
  refine ⟨fun i hm h => ?_, fun h => ?_⟩
  -- PP_START, PP_COMPLETE and PP_POLL
  · obtain ⟨-, ⟨code, rfl⟩ | ⟨x, hi, he⟩⟩ := exec_effect h
    · exact ⟨rfl, fun _ _ => rfl, fun b _ => by cases b <;> rfl⟩
    cases he with
    | ports _ _ hreads =>
      simp only [List.mem_cons, List.not_mem_nil, or_false] at hm
      obtain rfl | rfl | rfl := hm <;> cases hreads
    | ppPollOverrun => exact ⟨rfl, fun _ _ => rfl, fun b _ => by cases b <;> rfl⟩
    | ppStart | ppComplete | ppPollReady | ppPollIdle =>
      exact ⟨rfl, hi.results_other _ _, fun b _ => by simp⟩
    | _ => simp at hm
  -- PP_FILL
  · obtain ⟨-, ⟨code, rfl⟩ | ⟨x, hi, he⟩⟩ := exec_effect h
    · exact ⟨rfl, fun _ _ => rfl, fun p hp => ⟨p, hp, rfl, rfl, rfl, rfl, fun b _ _ => by cases b <;> rfl⟩⟩
    cases he with
    | ports _ _ hi => cases hi
    | ppFill p hp =>
      refine ⟨by cases p.expected <;> rfl, fun y hy => by simp [hi.ne_of_context_ne hy], fun q hq => ?_⟩
      cases hp.symm.trans hq
      exact ⟨_, rfl, rfl, rfl, rfl, rfl, fun b k hb => by simp [hb]⟩

end Sys2Proof.Machine
end

section
/-! PROOF. The exceptions (60_exceptions): who may issue an operation (R248), what raises a model fault (R237), and what
enters the fatal halt (R233 to R235, R240). -/

namespace Sys2Proof.Machine

/-! ### The permission table (R248) -/

section
variable {s t : State} {x : Context} {i : Instr}

@[simp] theorem isProducer_iff {c : Config} {inst : InstNo} :
    isProducer c inst x = true ↔ c.ringProd inst.toNat = some x := by
  simp [isProducer]

@[simp] theorem isConsumer_iff {c : Config} {inst : InstNo} :
    isConsumer c inst x = true ↔ c.ringCons inst.toNat = some x := by
  simp [isConsumer]

/-- A reserved context id names no context, so the hypothesis holds of it too (30_encoding R81, R88). -/
theorem exec_of_not_permitted (hr : Running s) (hl : i.WellFormed s.cfg)
    (hp : ∀ x, contextOfId s.cmd.ctx = some x → permitted s.cfg x i = false) :
    exec i s = raiseFault .context s := by
  obtain ⟨rule, hi⟩ := exec_eq_issue i s
  cases hx : contextOfId s.cmd.ctx with
  | none => simp [hi, issue, hr.notHalted, hr.noFault, hl, hx]
  | some x => simp [hi, issue, hr.notHalted, hr.noFault, hl, hx, hp x hx]

/-! ### A stopped core (R237, R240) -/

theorem stepOn_of_halted (h : s.halted = true) (e : Event) : stepOn e s = .fault .halted := by
  simp [stepOn, h]

theorem stepOn_of_faulted (h : s.halted = false) (hf : s.fault ≠ none) (e : Event) : stepOn e s = .fault .faulted := by
  simp [stepOn, h, Option.isSome_iff_ne_none.mpr hf]

/-- Taking an event changes nothing but the environment's own fields. -/
theorem State.afterEvent_eq (s : State) :
    s.afterEvent = { s with events := s.afterEvent.events, draws := s.afterEvent.draws } := by
  unfold State.afterEvent
  split <;> rfl

/-! ### Model faults (R237): no effect of a step writes SYS.fault -/

theorem CommandEffect.fault (he : CommandEffect x s i t) : t.fault = s.fault := by cases he <;> simp

theorem ResumeEffect.fault (he : ResumeEffect x s t) : t.fault = s.fault := by cases he <;> rfl

theorem DmaEffect.fault (he : DmaEffect s t) : t.fault = s.fault := by cases he <;> rfl

/-- A model fault comes of a command, and it is all that the command's turn changes. -/
theorem takeEvent_faults {e : Event} (hr : Running s) (h : takeEvent e s = .next t) (hf : t.fault ≠ none) :
    ∃ cmd code, e = .command cmd ∧ t = { s with cmd := cmd, fault := some (.command code cmd.ctx cmd.word) } := by
  obtain ⟨cmd, hev, rfl | ⟨code, ht⟩ | ⟨i, x, -, -, -, he⟩⟩ | ⟨x, -, he⟩ | ⟨-, he⟩ := takeEvent_effect h
  · exact absurd hr.noFault hf
  · exact ⟨cmd, code, hev, ht⟩
  · exact absurd (he.fault.trans hr.noFault) hf
  · exact absurd (he.fault.trans hr.noFault) hf
  · exact absurd (he.fault.trans hr.noFault) hf

/-! ### Fatal halts (R233 to R235): the effects that enter one -/

theorem CommandEffect.halts (hr : Running s) (he : CommandEffect x s i t) (hh : t.halted = true) :
    (i = .decPush ∧ s.raw.free = 0 ∧ raiseFatal .decOverflow s = .next t) ∨
    (i = .ppPoll ∧ (∃ p, s.pp = some p ∧ p.phase = .wait ∧ p.playing = p.expected ∧ p.idleCount = 0) ∧
      raiseFatal .pbOverrun s = .next t) := by
  cases he with
  | decPushFull hf => exact .inl ⟨rfl, hf, rfl⟩
  | ppPollOverrun p hp hw he hi => exact .inr ⟨rfl, ⟨p, hp, hw, he, hi⟩, rfl⟩
  | _ => simp [hr.notHalted] at hh

theorem ResumeEffect.halts (hr : Running s) (he : ResumeEffect x s t) (hh : t.halted = true) :
    s.cfg.micFullPolicy = .fatal ∧ s.mic.free < s.cfg.decOut ∧ (∃ d, s.progress.get x = .drain d ∧ d.phase = .emit) ∧
      raiseFatal .micOverflow s = .next t := by
  cases he with
  | drainOverflow d hp hd hf => exact ⟨hf.1, hf.2, ⟨d, hp, hd⟩, rfl⟩
  | _ => simp [hr.notHalted] at hh

theorem DmaEffect.halted (he : DmaEffect s t) : t.halted = s.halted := by cases he <;> rfl

/-- The halt of a step is precise (R241): R240's three writes, and the environment's own fields. -/
theorem raiseFatal_afterEvent {cmd : Command} {code : HaltCode}
    (h : raiseFatal code { s.afterEvent with cmd := cmd } = .next t) :
    t.haltCode = code ∧
    t = { s with
      halted := true, haltCode := t.haltCode, diag := s.diag ++ [t.haltCode],
      cmd := t.cmd, events := t.events, draws := t.draws } := by
  rw [State.afterEvent_eq] at h
  cases h
  exact ⟨rfl, rfl⟩

end

end Sys2Proof.Machine
end

section
/-! PROOF. The statements of 60_exceptions: the sources of a fatal halt and its precision, the permission table, and
that a model fault has no other effect. -/

namespace Sys2Proof.Machine

/-- Settles O53: of everything a step can do, three effects enter the halt, and each is R240's three writes. -/
theorem fatalHaltSourcesAndPrecision : Obligations.FatalHaltSourcesAndPrecision := by
  intro s t h hh
  obtain ⟨-, hr, h⟩ := step_effect h
  have hstop : step t = .fault .halted ∧ ∀ e, stepOn e t = .fault .halted :=
    ⟨step_eq_stepOn.trans (stepOn_of_halted (by simpa using hh) _), stepOn_of_halted hh⟩
  obtain ⟨cmd, hev, rfl | ⟨code, rfl⟩ | ⟨i, x, hi, hx, -, he⟩⟩ | ⟨x, hev, he⟩ | ⟨-, he⟩ := takeEvent_effect h
  · cases hr.notHalted.symm.trans hh
  · cases hr.notHalted.symm.trans hh
  · obtain ⟨rfl, hfull, ht⟩ | ⟨rfl, hover, ht⟩ := he.halts hx.toRunning hh
    · obtain ⟨hcode, ht⟩ := raiseFatal_afterEvent ht
      exact ⟨.inl ⟨hcode, by simpa using hfull, cmd, hev, hi⟩, ht, hstop⟩
    · obtain ⟨hcode, ht⟩ := raiseFatal_afterEvent ht
      exact ⟨.inr (.inl ⟨hcode, by simpa using hover, cmd, hev, hi⟩), ht, hstop⟩
  · obtain ⟨hpolicy, hfit, ⟨d, hd, hemit⟩, ht⟩ := he.halts hr hh
    obtain ⟨hcode, ht⟩ := raiseFatal_afterEvent ht
    exact ⟨.inr (.inr ⟨hcode, by simpa using hpolicy, by simpa using hfit, x, d, hev, by simpa using hd, hemit⟩), ht,
      hstop⟩
  · cases (he.halted.trans hr.notHalted).symm.trans hh

/-- Settles O7: the table of R248 case by case, and the permission check of R88 behind every operation. -/
theorem unpermittedContextFaults : Obligations.UnpermittedContextFaults :=
  ⟨fun c x inst => by simp [permitted], fun _ _ => exec_of_not_permitted⟩

/-- Settles O54: a step's model fault is the whole of a command's turn, and the core it leaves is stopped. -/
theorem modelFaultHasNoOtherEffect : Obligations.ModelFaultHasNoOtherEffect := by
  intro s t h hf
  obtain ⟨-, hr, h⟩ := step_effect h
  obtain ⟨cmd, code, hev, ht⟩ := takeEvent_faults hr h hf
  have hh : t.halted = false := by rw [ht]; exact hr.notHalted
  refine ⟨cmd, code, hev, by rw [ht], ?_,
    step_eq_stepOn.trans (stepOn_of_faulted (by simpa using hh) (by simpa using hf) _), stepOn_of_faulted hh hf⟩
  rw [ht, State.afterEvent_eq]

end Sys2Proof.Machine
end

section
/-! PROOF. The configuration check of 70_reset_and_hazards: that it finds nothing exactly when the parameter table of
00_scope R8 is met, and that a core it refuses never steps. -/

namespace Sys2Proof.Machine

section

variable {c : Config}

/-- With two rings or more, what the check reads of rings 0 and 1 is what the parameter table asks of RAW and MIC. -/
theorem raw_mic_constraints_iff (h : 2 ≤ c.nrb) :
    (∃ raw mic rest, c.rb = raw :: mic :: rest ∧ raw.w = 8 ∧ raw.prod = .bitstreamIsr ∧ raw.cons = .task ∧
      mic.prod = .task ∧ mic.cons = .task ∧ c.decIn ≤ raw.n - 1 ∧ 2 ≤ mic.n) ↔
    c.ringW 0 = 8 ∧ c.ringProd 0 = some .bitstreamIsr ∧ c.ringCons 0 = some .task ∧
      c.ringProd 1 = some .task ∧ c.ringCons 1 = some .task ∧ c.decIn ≤ c.ringN 0 - 1 ∧ 2 ≤ c.ringN 1 := by
  obtain ⟨raw, mic, rest, hrb⟩ : ∃ raw mic rest, c.rb = raw :: mic :: rest := by
    unfold Config.nrb at h
    match hrb : c.rb with
    | raw :: mic :: rest => exact ⟨raw, mic, rest, rfl⟩
    | [] | [_] => simp [hrb] at h
  simp [Config.ringN, Config.ringW, Config.ringProd, Config.ringCons, hrb]

/-- The check finds nothing exactly when every row of the parameter table holds (00_scope R8). -/
theorem brokenConstraints_eq_nil_iff : brokenConstraints c = [] ↔
    (2 ≤ c.nrb ∧ c.nrb ≤ 256) ∧ (∀ r ∈ c.rb, 1 ≤ r.n ∧ 1 ≤ r.w) ∧
    (∃ raw mic rest, c.rb = raw :: mic :: rest ∧ raw.w = 8 ∧ raw.prod = .bitstreamIsr ∧ raw.cons = .task ∧
      mic.prod = .task ∧ mic.cons = .task ∧ c.decIn ≤ raw.n - 1 ∧ 2 ≤ mic.n) ∧
    2 ≤ c.cw ∧ 1 ≤ c.tickUs ∧ 1 ≤ c.usW ∧ (1 ≤ c.passThreshold ∧ c.passThreshold ≤ c.clockModulus - 1) ∧
    c.clkReset < c.clockModulus ∧ c.ndb ≤ 256 ∧ (∀ d ∈ c.db, 1 ≤ d.intTop ∧ d.id < 2 ^ c.dbIdW) ∧
    8 ≤ c.dbIdW ∧ 1 ≤ c.decIn ∧ 1 ≤ c.decOut ∧ 1 ≤ c.b ∧ c.ch = 2 ∧ 1 ≤ c.micBlock := by
  have hcheck : brokenConstraints c = [] ↔ ∀ k ∈ allConstraints, constraintHolds c k = true := by
    simp [brokenConstraints]
  rw [hcheck]
  simp only [allConstraints, List.forall_mem_cons, constraintHolds, Bool.and_eq_true, decide_eq_true_eq,
    List.all_eq_true, forall₂_and]
  constructor
  · rintro ⟨nrb, ringN, ringW, rawW, rawProd, rawCons, micProd, micCons, cw, tick, us, pass, clk, ndb, top, idW, id,
      ⟨decIn, rawN⟩, decOut, b, ch, block, micN, -⟩
    exact ⟨nrb, ⟨ringN, ringW⟩,
      (raw_mic_constraints_iff nrb.1).mpr ⟨rawW, rawProd, rawCons, micProd, micCons, rawN, micN⟩,
      cw, tick, us, pass, clk, ndb, ⟨top, id⟩, idW, decIn, decOut, b, ch, block⟩
  · rintro ⟨nrb, ⟨ringN, ringW⟩, rawMic, cw, tick, us, pass, clk, ndb, ⟨top, id⟩, idW, decIn, decOut, b, ch, block⟩
    obtain ⟨rawW, rawProd, rawCons, micProd, micCons, rawN, micN⟩ := (raw_mic_constraints_iff nrb.1).mp rawMic
    exact ⟨nrb, ringN, ringW, rawW, rawProd, rawCons, micProd, micCons, cw, tick, us, pass, clk, ndb, top, idW, id,
      ⟨decIn, rawN⟩, decOut, b, ch, block, micN, List.forall_mem_nil _⟩

/-- A configuration that fails the check leaves the constraints it breaks in SYS.fault (70_reset_and_hazards R272). -/
theorem resetOf_fault_of_broken (h : brokenConstraints c ≠ []) (d : Draws) :
    (State.resetOf c d).fault = some (.config (brokenConstraints c)) :=
  if_neg h

end

/-- Settles O44: the check's list against the parameter table, and a faulted core, which has no step, at reset. -/
theorem brokenConfigurationIsRefused : Obligations.BrokenConfigurationIsRefused := by
  refine ⟨fun c => brokenConstraints_eq_nil_iff, fun c d h => ?_⟩
  have hf := resetOf_fault_of_broken h d
  have hne : (State.resetOf c d).fault ≠ none := by simp [hf]
  have hh : (State.resetOf c d).halted = false := rfl
  exact ⟨hf, step_eq_stepOn.trans (stepOn_of_faulted (by simpa using hh) (by simpa using hne) _),
    stepOn_of_faulted hh hne⟩

end Sys2Proof.Machine
end
